-- ==== Sys2Proof/Word.lean ====
section
/-! DEFINITION. The units of data of FCR: the byte, byte sequences, and the values that SEND and RECV carry. -/

namespace Sys2Proof

/-- A byte: 8 bits in every space (R8, R40; R7's BYTE_BITS, decision D4; log 16). -/
abbrev Byte := BitVec 8

/-- A finite sequence of bytes, first byte on the wire first (R8). -/
abbrev Bytes := List Byte

/-- The values `send` and `recv` carry. R7 takes the type as an argument; the model names a value by a
byte sequence (DESIGN CHOICE, log 11). -/
abbrev Value := Bytes

end Sys2Proof
end

