-- ==== Sys2Proof/Config.lean ====
section
/-! DEFINITION. What is fixed for the hardware: the parameters of R7 whose value the spec gives, and the
external serializer (R4, R7), which stays uninterpreted. -/

namespace Sys2Proof

/-- The external serializer (R4, R7, decision D19): the type `Value`, as the byte sequences that stand for its
values (log 11), and two total functions with the round-trip law on it. The defaults only show that such a
serializer exists; `Config.external` is not one of them. -/
structure Serializer where
  isValue : Value → Bool := fun _ => true
  encode : Value → Bytes := id
  decode : Bytes → Value := id
  decode_isValue : ∀ b, isValue (decode b) = true := by intro b; rfl
  law : ∀ v, isValue v = true → decode (encode v) = v := by intro v _; rfl
  deriving Inhabited

namespace Config

/-- `SMALL_MAX`, the largest payload length that takes the 4-byte header (R7). -/
def smallMax : Nat := 0x7FFFFFFF

/-- `SMALL_HDR_LEN` (R7). -/
def smallHdrLen : Nat := 4

/-- `LARGE_HDR_LEN`, 4 bytes of escape and 8 of length (R7). -/
def largeHdrLen : Nat := 12

/-- `LEN_MAX`, the largest length the 8-byte unsigned field can carry (R7). -/
def lenMax : Nat := 2 ^ 64 - 1

/-- The default of the argument `COALESCE_MAX` (R7, R94). -/
def coalesceMax : Nat := 16384

/-- The external serializers, numbered: uninterpreted, with R7's law and nothing else (log 11). -/
opaque external : Nat → Serializer

end Config
end Sys2Proof
end

