-- ==== Sys2Proof/Syntax.lean ====
section
/-! DEFINITION. What is executed (one constructor per row of spec/opcode_table.json) and what carries it: a
command on the host port, or a header on the inbound wire. -/

namespace Sys2Proof

/-- The instructions: the commands of R69, the reserved codes of R71, and the three classes of first header
word of R61, R62 and R66, which are the instruction stream of the receiver (R1, R24, decision D28). -/
inductive Instr where
  /-- HDR_ENC, code 0x1 (R80). -/
  | hdrEnc (n : Int)
  /-- HDR_PARSE, code 0x2 (R82). -/
  | hdrParse (bytes : Bytes)
  /-- FRAME_ENC, code 0x3 (R81). -/
  | frameEnc (payload : Bytes)
  /-- SEND, code 0x4 (R98). -/
  | send (value : Value)
  /-- SEND_BYTES, code 0x5 (R91). -/
  | sendBytes (buffer : Bytes) (offset size : Int)
  /-- DRAIN, code 0x6 (R97). -/
  | drain
  /-- RECV, code 0x7 (R109). -/
  | recv
  /-- RECV_BYTES, code 0x8 (R108). -/
  | recvBytes
  /-- RECV_BYTES_INTO, code 0x9 (R110). -/
  | recvBytesInto (cap : Int)
  /-- RECV_NB, code 0xA (R120). -/
  | recvNb (maxlength : Int)
  /-- CLOSE, code 0xB (R135). -/
  | close
  /-- The reserved code 0x0 (R71). -/
  | reserved0
  /-- The reserved codes 0xC to 0xF, by their two low bits (R71). -/
  | reservedCF (low : BitVec 2)
  /-- A SMALL header: bit 31 zero, bits 30:0 the payload length (R61). -/
  | small (len : BitVec 31)
  /-- A LARGE header: the escape, then 64 bits of length (R62). -/
  | large (len64 : BitVec 64)
  /-- An illegal first header word: bit 31 set, bits 30:0 not all ones (R66). -/
  | invalidHdr (rest : BitVec 31)
  deriving DecidableEq, Repr

/-- One operand of a command: a mathematical integer, a byte sequence, or a value (R69). -/
inductive Operand where
  | int (i : Int)
  | bytes (b : Bytes)
  | value (v : Value)
  deriving DecidableEq, Repr

/-- A command as the host port carries it: a 4-bit code and the operands, in the order of its row (R69, D1). -/
structure Command where
  op : BitVec 4
  operands : List Operand
  deriving DecidableEq, Repr

/-- An instruction as it arrives: a command on the host port, or header bytes on the inbound wire. -/
inductive Packet where
  | command (c : Command)
  | header (b : Bytes)
  deriving DecidableEq, Repr

end Sys2Proof
end

