-- ==== Sys2Proof/WellFormed.lean ====
section
/-! DEFINITION. Which terms of Instr stand for something the hardware can be given. -/

namespace Sys2Proof

/-- Every operand value of a command can be presented, negative integers included (R69: validation is the
command's own, R91, R110, R120). An illegal header word has bits 30:0 not all ones, since the word of all
ones is the escape (R66). -/
def Instr.wf : Instr → Bool
  | .hdrEnc _ => true
  | .hdrParse _ => true
  | .frameEnc _ => true
  | .send _ => true
  | .sendBytes _ _ _ => true
  | .drain => true
  | .recv => true
  | .recvBytes => true
  | .recvBytesInto _ => true
  | .recvNb _ => true
  | .close => true
  | .reserved0 => true
  | .reservedCF _ => true
  | .small _ => true
  | .large _ => true
  | .invalidHdr rest => rest != BitVec.allOnes 31

end Sys2Proof
end

