-- ==== Sys2Proof/Decode.lean ====
section
/-! DEFINITION. Byte order (R9, R44), the decoder of commands (R69, R71) and of header bytes (R61 to R66), the
encoder, and the host's numbered words. -/

namespace Sys2Proof

/-- The `k` bytes of `n`, most significant first: `be32` and `be64` of R9 at `k` = 4 and 8. -/
def beBytes : Nat → Nat → Bytes
  | 0, _ => []
  | k + 1, n => BitVec.ofNat 8 (n / 256 ^ k) :: beBytes k n

/-- The number that bytes spell, most significant first: `u32` and `u64` of R9. -/
def beNat (b : Bytes) : Nat :=
  b.foldl (fun acc x => acc * 256 + x.toNat) 0

/-- `be32` (R9). -/
def be32 (n : Nat) : Bytes := beBytes 4 n

/-- `be64` (R9). -/
def be64 (n : Nat) : Bytes := beBytes 8 n

/-- `ESCAPE`: the word that spells -1, FF FF FF FF (R7, R62). -/
def escapeBytes : Bytes := be32 0xFFFFFFFF

/-- What the front of a byte sequence holds, read as a header. -/
inductive HeaderFetch where
  /-- Too few bytes: nothing is decided yet (R65). -/
  | incomplete
  /-- A header, and how many bytes it takes. -/
  | fetched (i : Instr) (hlen : Nat)
  deriving DecidableEq, Repr

/-- The header decoder, by the match and mask of each class in the table's order of priority: LARGE (R62),
SMALL (R61), illegal (R66). Fewer than 4 bytes decide nothing, an escape needs 12 (R65). -/
def decodeHeader (b : Bytes) : HeaderFetch :=
  if b.length < 4 then .incomplete
  else
    let w : BitVec 32 := BitVec.ofNat 32 (beNat (b.take 4))
    if w &&& 0xFFFFFFFF#32 = 0xFFFFFFFF#32 then
      if b.length < 12 then .incomplete
      else .fetched (.large (BitVec.ofNat 64 (beNat ((b.drop 4).take 8)))) 12
    else if w &&& 0x80000000#32 = 0#32 then .fetched (.small (w.extractLsb' 0 31)) 4
    else .fetched (.invalidHdr (w.extractLsb' 0 31)) 4

/-- Why a packet is no instruction. -/
inductive Reject where
  /-- The operands are not those the command's row lists (R69, R72; log 7). -/
  | wrongOperands (op : BitVec 4)
  /-- The bytes do not make a header yet (R65). -/
  | incompleteHeader
  /-- Bytes follow the header. -/
  | trailingBytes
  deriving DecidableEq, Repr

/-- The command decoder: the table of R69, and the reserved codes of R71, whatever comes with them. -/
def decodeCommand (c : Command) : Except Reject Instr :=
  match c.op.toNat, c.operands with
  | 0x0, _ => .ok .reserved0
  | 0x1, [.int n] => .ok (.hdrEnc n)
  | 0x2, [.bytes b] => .ok (.hdrParse b)
  | 0x3, [.bytes p] => .ok (.frameEnc p)
  | 0x4, [.value v] => .ok (.send v)
  | 0x5, [.bytes b, .int offset, .int size] => .ok (.sendBytes b offset size)
  | 0x6, [] => .ok .drain
  | 0x7, [] => .ok .recv
  | 0x8, [] => .ok .recvBytes
  | 0x9, [.int cap] => .ok (.recvBytesInto cap)
  | 0xA, [.int maxlength] => .ok (.recvNb maxlength)
  | 0xB, [] => .ok .close
  | 0xC, _ => .ok (.reservedCF 0)
  | 0xD, _ => .ok (.reservedCF 1)
  | 0xE, _ => .ok (.reservedCF 2)
  | 0xF, _ => .ok (.reservedCF 3)
  | _, _ => .error (.wrongOperands c.op)

/-- The decoder, total on any command and any bytes. -/
def decode : Packet → Except Reject Instr
  | .command c => decodeCommand c
  | .header b =>
    match decodeHeader b with
    | .incomplete => .error .incompleteHeader
    | .fetched i hlen => if hlen = b.length then .ok i else .error .trailingBytes

/-- The encoder: the code and operands of R69, the bytes of R61, R62 and R66. -/
def encode : Instr → Packet
  | .hdrEnc n => .command ⟨0x1, [.int n]⟩
  | .hdrParse b => .command ⟨0x2, [.bytes b]⟩
  | .frameEnc p => .command ⟨0x3, [.bytes p]⟩
  | .send v => .command ⟨0x4, [.value v]⟩
  | .sendBytes b offset size => .command ⟨0x5, [.bytes b, .int offset, .int size]⟩
  | .drain => .command ⟨0x6, []⟩
  | .recv => .command ⟨0x7, []⟩
  | .recvBytes => .command ⟨0x8, []⟩
  | .recvBytesInto cap => .command ⟨0x9, [.int cap]⟩
  | .recvNb maxlength => .command ⟨0xA, [.int maxlength]⟩
  | .close => .command ⟨0xB, []⟩
  | .reserved0 => .command ⟨0x0, []⟩
  | .reservedCF low => .command ⟨0b11#2 ++ low, []⟩
  | .small len => .header (be32 (0#1 ++ len).toNat)
  | .large len64 => .header (escapeBytes ++ be64 len64.toNat)
  | .invalidHdr rest => .header (be32 (1#1 ++ rest).toNat)

/-- The operands of a table row whose operand words are all zero: integers 0, sequences empty (log 7). -/
def zeroOperands (op : BitVec 4) : List Operand :=
  match op.toNat with
  | 0x1 => [.int 0]
  | 0x2 => [.bytes []]
  | 0x3 => [.bytes []]
  | 0x4 => [.value []]
  | 0x5 => [.bytes [], .int 0, .int 0]
  | 0x9 => [.int 0]
  | 0xA => [.int 0]
  | _ => []

/-- A word of the table as the port carries it. A row of at most 8 bits is a command code in a byte whose
upper four bits are zero; a wider row is a header whose first word is bits 31:0 and whose length field is
bits 95:32 (log 8). -/
def tablePacket (nbits w : Nat) : Option Packet :=
  if nbits ≤ 8 then
    if w < 16 then some (.command ⟨BitVec.ofNat 4 w, zeroOperands (BitVec.ofNat 4 w)⟩) else none
  else
    let bits := w % 2 ^ nbits
    let first := bits % 2 ^ 32
    some (.header (be32 first ++ if first = 0xFFFFFFFF then be64 (bits / 2 ^ 32 % 2 ^ 64) else []))

/-- The instruction this decoder reads from an instruction word numbered as the opcode table numbers it. -/
def decodeTableWord (nbits w : Nat) : Option Instr :=
  match tablePacket nbits w with
  | none => none
  | some p => (decode p).toOption

end Sys2Proof
end

