-- ==== Sys2Proof/Machine/State.lean ====
section
/-! DEFINITION. Everything the spec gives the machine, as plain data: the endpoint record of R20, the creation
arguments of R7, the executing command's continuation (R31), the transport port (R40 to R43, R54), the host's
buffer and response, and the inputs from outside. -/

namespace Sys2Proof.Machine

/-! ### The endpoint (R20) -/

/-- A transport handle: opaque, no width (R23). -/
abbrev Handle := Nat

/-- A transport error: opaque, any value, passed through uninterpreted (R152, U11). -/
abbrev TErr := Nat

/-- The two values of `rx_phase` (R24). -/
inductive RxPhase where
  | awaitingHeader
  | inProgress
  deriving DecidableEq, Repr

/-- The Pending Receive Context (R27). -/
structure RxContext where
  /-- The payload bytes received so far. -/
  payload : Bytes
  /-- How many are still to come, 0 .. 2^64-1. -/
  remaining : Nat
  deriving DecidableEq, Repr

/-- The state `S` of one endpoint, field by field as R20 lists it. -/
structure Endpoint where
  readable : Bool
  writable : Bool
  blocking : Bool
  closed : Bool
  hRd : Handle
  hWr : Handle
  txq : Bytes
  rxPhase : RxPhase
  rxHdr : Bytes
  ctx : Option RxContext
  rxDesync : Bool
  deriving DecidableEq, Repr

/-- Which serializer the endpoint is given (R7): the identity on byte sequences, the one the test vectors
use, or an uninterpreted external one (log 11). -/
inductive SerializerChoice where
  | identity
  | external (k : Nat)
  deriving DecidableEq, Repr

/-- The creation arguments of R7 that are not fields of `S`; no step writes them. A capacity of `none` is
unbounded (R50). -/
structure Params where
  readable0 : Bool
  writable0 : Bool
  coalesceMax : Nat
  txqCap : Option Nat
  rxCap : Option Nat
  serializer : SerializerChoice
  deriving DecidableEq, Repr

/-! ### Responses (R69, R70) -/

/-- How a completed command ends (R70); a transport error carries the transport's value (R152). -/
inductive Status where
  | ok
  | validationError
  | closedHandleError
  | capabilityError
  | cleanEOF
  | truncatedMessageError
  | badMessageLengthError
  | transportError (e : TErr)
  deriving DecidableEq, Repr

/-- The three-way result of HDR_PARSE (R82). -/
inductive ParseResult where
  | incomplete
  | header (n hlen : Nat)
  | invalid
  deriving DecidableEq, Repr

/-- The result a response carries (R69). -/
inductive Result where
  | none
  /-- HDR_ENC, FRAME_ENC, RECV_BYTES. -/
  | bytes (b : Bytes)
  /-- HDR_PARSE. -/
  | parse (r : ParseResult)
  /-- RECV. -/
  | value (v : Value)
  /-- RECV_BYTES_INTO: the length received. -/
  | count (n : Nat)
  /-- RECV_NB: the values completed, in order. -/
  | values (vs : List Value)
  deriving DecidableEq, Repr

/-- A response: a status code and a result (R69). -/
structure Response where
  status : Status
  result : Result
  deriving DecidableEq, Repr

/-! ### The executing command (R31 (d)) -/

/-- Which blocking receive command is executing, and so what becomes of the payload (R108 to R110). -/
inductive RecvKind where
  | bytes
  | value
  | into (cap : Nat)
  deriving DecidableEq, Repr

/-- The continuation of the executing command. Every command but a blocking one completes within the step
that starts it, so between steps the last form is never left (Safety.lean). -/
inductive Cont where
  /-- No command executes: the endpoint takes the next one. -/
  | idle
  /-- A blocking send: the bytes of the current chunk not yet written, and the chunks to follow (R93). -/
  | writing (current : Bytes) (rest : List Bytes)
  /-- A blocking receive reading its header: the header bytes read so far (R107). -/
  | recvHeader (kind : RecvKind) (acc : Bytes)
  /-- A blocking receive reading its payload of `n` bytes: the bytes read so far (R106, R108). -/
  | recvPayload (kind : RecvKind) (n : Nat) (acc : Bytes)
  /-- A non-blocking receive at work on the bytes in hand, with the values completed (R122's `in`, `out`). -/
  | assembling (inBytes : Bytes) (out : List Value)
  deriving DecidableEq, Repr

/-! ### The transport port -/

/-- One direction of the transport (R54): the bytes in flight, whether its writer has closed, whether its
reader has. -/
structure Direction where
  bytes : Bytes
  wclosed : Bool
  rclosed : Bool
  deriving DecidableEq, Repr

/-- The oracle's choice for one TRead (R41, R54, U10). -/
inductive ReadChoice where
  /-- As many bytes as are asked for and in flight: the eager transport's choice. -/
  | all
  /-- The next `k` bytes, or those there are; none, or more than were asked for, is a breach (U1). -/
  | take (k : Nat)
  /-- Would-block, or the end of the stream where it has ended (R41). -/
  | wouldBlock
  | err (e : TErr)
  /-- No answer yet: a blocking command is held (R11 (b)). The request stays outstanding, and the plan's next
  choice is the transport's at the next step (log 26). -/
  | hold
  deriving DecidableEq, Repr

/-- The oracle's choice for one TWrite (R42, R54, U10, U21). -/
inductive WriteChoice where
  /-- Everything offered, or the reference transport's error once the far reader has gone. -/
  | all
  /-- The first `n` bytes; more than were offered is a breach (U1). -/
  | wrote (n : Nat)
  | wouldBlock
  | err (e : TErr)
  /-- No answer yet. -/
  | hold
  deriving DecidableEq, Repr

/-- The choices to come, oldest first, and the one made each time after them (log 2). -/
structure Plan (α : Type) where
  pending : List α
  thereafter : α
  deriving DecidableEq, Repr

/-- An answer to TRead (R41). -/
inductive ReadAnswer where
  | data (b : Bytes)
  | eof
  | wouldBlock
  | err (e : TErr)
  deriving DecidableEq, Repr

/-- An answer to TWrite (R42). -/
inductive WriteAnswer where
  | wrote (n : Nat)
  | wouldBlock
  | err (e : TErr)
  deriving DecidableEq, Repr

/-- A request on the transport port (D1, R41 to R43). -/
inductive Request where
  | read (h : Handle) (max : Nat)
  | write (h : Handle) (b : Bytes)
  | close (h : Handle)
  deriving DecidableEq, Repr

/-- The transport as the endpoint meets it. -/
structure Port where
  /-- The inbound wire: the peer writes, this endpoint reads. -/
  inb : Direction
  /-- The outbound wire: this endpoint writes, the peer reads. -/
  outb : Direction
  readPlan : Plan ReadChoice
  writePlan : Plan WriteChoice
  /-- What the reference transport answers to a write once the far reader has gone (R54, G4; log 14). -/
  goneErr : TErr
  /-- The requests issued, oldest first (log 17). -/
  calls : List Request
  /-- Whether the last of them is outstanding: issued and not yet answered (R11 (b), R41, R42; log 26). -/
  held : Bool
  deriving DecidableEq, Repr

/-! ### Host memory and inputs -/

/-- The host destination buffer (R48): canonical list of (index, byte), indices rising, no byte listed that
an unlisted index reads as. -/
abbrev Memory := List Host.Cell

/-- What the host does (R3). -/
inductive HostAct where
  /-- Present a command once the endpoint is idle, as R173 asks. -/
  | command (c : Command)
  /-- Present a command at once, even while another executes (R53). -/
  | intrude (c : Command)
  /-- The owner is destroyed once the endpoint is idle (R33, R141; log 6). -/
  | ownerDestroyed
  deriving DecidableEq, Repr

/-- What the peer does at the far end (R3, R159). -/
inductive PeerAct where
  | writes (b : Bytes)
  | closesWriter
  | reads (n : Nat)
  | closesReader
  deriving DecidableEq, Repr

/-- Who moves in a step (log 5). -/
inductive Turn where
  | core
  | peer (a : PeerAct)
  /-- The owner is destroyed at this moment, whatever is executing (R141, U7; log 6). -/
  | ownerDestroyed
  deriving DecidableEq, Repr

/-- The state of the machine. -/
structure State where
  /-- Creation arguments (R7). -/
  params : Params
  /-- The endpoint record (R20). -/
  ep : Endpoint
  /-- The executing command (R31). -/
  cont : Cont
  /-- The last response; none before the first (log 22). -/
  resp : Option Response
  /-- The host destination buffer (R48): one buffer for every receive-into of a run, of no fixed size, written by
  nothing else (log 27). -/
  dst : Memory
  /-- The transport port. -/
  port : Port
  /-- What the host will do, oldest first. -/
  hostQ : List HostAct
  /-- Whose turn it is, oldest first; the core's when empty. -/
  agenda : List Turn
  deriving DecidableEq, Repr

/-! ### How a run ends -/

/-- FCR has no traps: every error of the spec is a status of a command, after which the machine goes on
(R145, R157). No step faults (log 19). -/
inductive Fault
  deriving DecidableEq, Repr

/-- R11 (d): the spec gives the command no meaning and the run is marked. Each is safe: the model stops where
real hardware would do something that the spec declines to say. -/
inductive Refusal where
  /-- An instruction with no meaning in this model; raised by no arm. Safe. -/
  | notModelled (mnemonic : String)
  /-- RESERVED_0, RESERVED_C_F: the code names no command (R71, U12). Safe. -/
  | reservedCode (op : BitVec 4)
  /-- A receive command of the other mode's variant (R71, U13). Safe. -/
  | wrongVariant
  /-- A command presented, or the close of a destroyed owner, while a command executes (R53, R159, U3; log 6).
  Safe. -/
  | overlappingCommand
  /-- HDR_ENC, FRAME_ENC, SEND, SEND_BYTES: a length outside 0 .. 2^64-1 (R80, U14). Safe. -/
  | lengthNotEncodable
  /-- RECV_NB with maxlength 0 (R120, U5). Safe. -/
  | zeroMaxlength
  /-- A receive after a transport error struck mid-frame (R30, R105, U15). Safe. -/
  | receiverDesynchronised
  /-- The transport answered would-block to a blocking endpoint (R93, R106, U2). Safe. -/
  | wouldBlockInBlockingMode
  /-- The transport's answer is outside its contract (R41, R42, U1). Safe. -/
  | transportContractBreach
  /-- The transport does not answer a request that is never held: a non-blocking endpoint's (R174, U18), or
  a drain's (log 15). Safe. -/
  | transportHeld
  /-- A frame that would make the outbound queue exceed TXQ_CAP (R50, R95, U16). Safe. -/
  | txqCapacity
  /-- A header that declares more than RX_CAP (R50, R107, R122, U16). Safe. -/
  | rxCapacity
  /-- The operands are not those the command's row lists (R72; log 7); raised by the step's fetch. Safe. -/
  | malformedCommand (op : BitVec 4)
  /-- InProgress without a context, which R27 excludes: no run reaches it (log 15). Safe. -/
  | contextMissing
  deriving DecidableEq, Repr

/-- One step's outcome. -/
abbrev Out := Host.Outcome State Fault Refusal

/-! ### Creation, which is reset (R32, R170) -/

/-- The state of the reference transport at creation: empty and open in both directions, eager (R32, R54). -/
def Port.initial : Port where
  inb := ⟨[], false, false⟩
  outb := ⟨[], false, false⟩
  readPlan := ⟨[], .all⟩
  writePlan := ⟨[], .all⟩
  goneErr := 0
  calls := []
  held := false

/-- An endpoint right after creation with these arguments: R32's table. -/
def State.create (p : Params) (blocking : Bool) (hRd hWr : Handle) : State where
  params := p
  ep :=
    { readable := p.readable0
      writable := p.writable0
      blocking := blocking
      closed := false
      hRd := hRd
      hWr := hWr
      txq := []
      rxPhase := .awaitingHeader
      rxHdr := []
      ctx := none
      rxDesync := false }
  cont := .idle
  resp := none
  dst := []
  port := Port.initial
  hostQ := []
  agenda := []

/-- The creation arguments of the one endpoint `State.reset` is: duplex, R7's defaults, the identity
serializer (DESIGN CHOICE, log 1). -/
def Params.initial : Params where
  readable0 := true
  writable0 := true
  coalesceMax := Config.coalesceMax
  txqCap := none
  rxCap := none
  serializer := .identity

/-- The machine right after reset: a blocking duplex endpoint on one shared handle, as in program P1 of
95_test_vectors.md (DESIGN CHOICE, log 1: every creation argument is an argument in the spec). -/
def State.reset : State := State.create Params.initial true 0 0

end Sys2Proof.Machine
end

