-- ==== Sys2Proof/Machine/Ops.lean ====
section
/-! DEFINITION. The shared operations: host memory, the serializer, the transport primitives (R41 to R43), how a
command ends (R11), taking an error (R136, R145), and the gates every command passes (R90, R105, R155). -/

namespace Sys2Proof.Machine

/-! ### Host destination buffer (R48) -/

/-- What an index nothing has written reads as (DESIGN CHOICE, log 12). -/
def Memory.blank : Byte := 0

/-- The byte at an index. -/
def Memory.read (m : Memory) (a : Nat) : Byte :=
  match m with
  | [] => Memory.blank
  | (k, v) :: rest => if k = a then v else Memory.read rest a

/-- Write one byte, keeping the canonical form. -/
def Memory.write (m : Memory) (a : Nat) (b : Byte) : Memory :=
  match m with
  | [] => if b = Memory.blank then [] else [(a, b)]
  | (k, v) :: rest =>
    if a < k then (if b = Memory.blank then (k, v) :: rest else (a, b) :: (k, v) :: rest)
    else if a = k then (if b = Memory.blank then rest else (a, b) :: rest)
    else (k, v) :: Memory.write rest a b

/-- `MemWrite(addr, n, v)` with `n` the length of `v` (R10, R48). -/
def Memory.writeBytes (m : Memory) (a : Nat) : Bytes → Memory
  | [] => m
  | b :: bs => Memory.writeBytes (Memory.write m a b) (a + 1) bs

/-- Every index listed is at least `lo`, rising, and no byte listed reads as an unlisted one does. -/
def Memory.wfFrom (lo : Nat) : Memory → Bool
  | [] => true
  | (k, v) :: rest => decide (lo ≤ k) && v != Memory.blank && Memory.wfFrom (k + 1) rest

/-- The canonical form. -/
def Memory.wf (m : Memory) : Bool := Memory.wfFrom 0 m

/-! ### Serializer (R4, R7, R73) -/

/-- Which byte sequences stand for values of the argument `Value` (R7; log 11). -/
def isValue (c : SerializerChoice) (v : Value) : Bool :=
  match c with
  | .identity => true
  | .external k => (Config.external k).isValue v

/-- `ser_encode` (R7). -/
def serEncode (c : SerializerChoice) (v : Value) : Bytes :=
  match c with
  | .identity => v
  | .external k => (Config.external k).encode v

/-- `ser_decode` (R7). -/
def serDecode (c : SerializerChoice) (b : Bytes) : Value :=
  match c with
  | .identity => b
  | .external k => (Config.external k).decode b

/-! ### The end of a command (R10's `return` and `raise`, R11 (a)) -/

/-- The command ends with this status and result; what it wrote before stays. -/
def complete (st : Status) (r : Result) (s : State) : State :=
  { s with cont := .idle, resp := some ⟨st, r⟩ }

/-- `return` (R10). -/
def finish (st : Status) (r : Result) (s : State) : Out := .next (complete st r s)

/-- `raise K` (R10): the status is the whole report; nothing is saved anywhere (R156). -/
def raise (st : Status) (s : State) : Out := finish st .none s

/-! ### Close and degrade (R135, R136) -/

/-- The distinct handles the endpoint owns, the read handle first (R135, decision D15). -/
def ownedHandles (p : Params) (e : Endpoint) : List Handle :=
  (if p.readable0 then [e.hRd] else []) ++
    (if p.writable0 && (!p.readable0 || e.hWr != e.hRd) then [e.hWr] else [])

/-- The transport side of closing: one TClose for each distinct owned handle (R135); a shared handle ends
both directions. -/
def closeHandles (s : State) : State :=
  { s with port :=
    { s.port with
      inb := { s.port.inb with rclosed := s.port.inb.rclosed || s.params.readable0 }
      outb := { s.port.outb with wclosed := s.port.outb.wclosed || s.params.writable0 }
      calls := s.port.calls ++ (ownedHandles s.params s.ep).map .close } }

/-- The endpoint fields after `DoClose` (R135). -/
def Endpoint.shut (e : Endpoint) : Endpoint :=
  { e with
    closed := true
    readable := false
    writable := false
    txq := []
    rxHdr := []
    ctx := none
    rxPhase := .awaitingHeader }

/-- `DoClose()` (R135). -/
def doClose (s : State) : State :=
  { closeHandles s with ep := s.ep.shut }

/-- The endpoint fields after the half-close of `Degrade` (R136). -/
def Endpoint.halfClosed (e : Endpoint) : Endpoint :=
  { e with readable := false, rxHdr := [], ctx := none, rxPhase := .awaitingHeader }

/-- `Degrade()` (R136): half-close while still writable, otherwise a full close. -/
def degrade (s : State) : State :=
  if s.ep.writable then { s with ep := s.ep.halfClosed } else doClose s

/-- Taking a fatal receive error: degrade first, then report (R136, conflict C3), with the result the command
still carries (R125). -/
def degradeAndRaise (st : Status) (r : Result) (s : State) : Out := finish st r (degrade s)

/-! ### Transport primitives (R41, R42) -/

/-- The next choice of a plan, and the plan after it. -/
def Plan.pop {α : Type} (p : Plan α) : α × Plan α :=
  match p.pending with
  | [] => (p.thereafter, p)
  | c :: rest => (c, { p with pending := rest })

/-- What a request comes to: an answer, no answer yet, or an answer for which the command is refused. -/
inductive Call (α : Type) where
  | answered (a : α) (s : State)
  | held (s : State)
  | breach (r : Refusal)

/-- What the reference transport gives when asked for up to `k` bytes (R54): bytes if there are any, the end
of the stream once the writer has closed, and otherwise would-block or no answer, by mode. -/
def deliver (blocking : Bool) (d : Direction) (k : Nat) : Option ReadAnswer :=
  if d.bytes = [] then
    if d.wclosed then some .eof else if blocking then none else some .wouldBlock
  else some (.data (d.bytes.take k))

/-- The transport's answer to `TRead(_, max)` under a choice (R41, R54). -/
def readAnswer (blocking : Bool) (d : Direction) (max : Nat) : ReadChoice → Option ReadAnswer
  | .all => deliver blocking d max
  | .take k => deliver blocking d k
  | .wouldBlock => some (if d.bytes.isEmpty && d.wclosed then .eof else .wouldBlock)
  | .err e => some (.err e)
  | .hold => none

/-- The first `k` bytes leave the inbound wire (R41, R46). -/
def dropInbound (k : Nat) (s : State) : State :=
  { s with port := { s.port with inb := { s.port.inb with bytes := s.port.inb.bytes.drop k } } }

/-- The requests on the port once these have been made, the first of which is on it already where a request is
outstanding (R41, R42; log 26). -/
def Port.requested (p : Port) (rs : List Request) : List Request := p.calls ++ if p.held then rs.tail else rs

/-- A TRead meets the transport: the request is on the port, put there now or outstanding from before, and a choice
of the transport is used up (log 26). -/
def readIssued (max : Nat) (s : State) : State :=
  { s with port :=
    { s.port with
      readPlan := s.port.readPlan.pop.2
      calls := s.port.requested [.read s.ep.hRd max]
      held := false } }

/-- The request has no answer yet and stays outstanding (R11 (b)). -/
def unanswered (s : State) : State := { s with port := { s.port with held := true } }

/-- `TRead(S.h_rd, max)` (R41): the transport's answer is measured against the contract: at least one byte and at
most `max` (U1), would-block only in non-blocking mode (U2), no answer only in blocking mode (R174, U18; log 3). -/
def tRead (max : Nat) (s : State) : Call ReadAnswer :=
  let s' := readIssued max s
  match readAnswer s.ep.blocking s.port.inb max s.port.readPlan.pop.1 with
  | none => if s.ep.blocking then .held (unanswered s') else .breach .transportHeld
  | some (.data b) =>
    if b = [] ∨ max < b.length then .breach .transportContractBreach
    else .answered (.data b) (dropInbound b.length s')
  | some .eof => .answered .eof s'
  | some .wouldBlock => if s.ep.blocking then .breach .wouldBlockInBlockingMode else .answered .wouldBlock s'
  | some (.err e) => .answered (.err e) s'

/-- The transport's answer to `TWrite(_, b)` under a choice (R42, R54). -/
def writeAnswer (p : Port) (b : Bytes) : WriteChoice → Option WriteAnswer
  | .all => if p.outb.rclosed then some (.err p.goneErr) else some (.wrote b.length)
  | .wrote n => some (.wrote n)
  | .wouldBlock => some .wouldBlock
  | .err e => some (.err e)
  | .hold => none

/-- Confirmed bytes join the outbound wire (R42, R54). -/
def appendOutbound (b : Bytes) (s : State) : State :=
  { s with port := { s.port with outb := { s.port.outb with bytes := s.port.outb.bytes ++ b } } }

/-- A TWrite meets the transport, as `readIssued` for a TRead. -/
def writeIssued (b : Bytes) (s : State) : State :=
  { s with port :=
    { s.port with
      writePlan := s.port.writePlan.pop.2
      calls := s.port.requested [.write s.ep.hWr b]
      held := false } }

/-- `TWrite(S.h_wr, b)` (R42), with the contract's checks as for `tRead`. -/
def tWrite (b : Bytes) (s : State) : Call WriteAnswer :=
  let s' := writeIssued b s
  match writeAnswer s.port b s.port.writePlan.pop.1 with
  | none => if s.ep.blocking then .held (unanswered s') else .breach .transportHeld
  | some (.wrote n) =>
    if b.length < n then .breach .transportContractBreach
    else .answered (.wrote n) (appendOutbound (b.take n) s')
  | some .wouldBlock => if s.ep.blocking then .breach .wouldBlockInBlockingMode else .answered .wouldBlock s'
  | some (.err e) => .answered (.err e) s'

/-! ### Gates -/

/-- Check (0) of R155 for every command: one command at a time (R53, R159, R173). -/
def whenIdle (s : State) (k : Out) : Out :=
  if s.cont = .idle then k else .refused .overlappingCommand

/-- Check (0) of R155 for a command of one variant: refused on an endpoint of the other mode (R71). -/
def onlyInMode (blocking : Bool) (s : State) (k : Out) : Out :=
  if s.ep.blocking = blocking then k else .refused .wrongVariant

/-- `SendChecks()` (R90): closed, then capability. -/
def sendChecks (s : State) (k : Out) : Out :=
  if s.ep.closed then raise .closedHandleError s
  else if s.ep.writable then k
  else raise .capabilityError s

/-- `RecvChecks()` (R105): closed, then capability, then the mark of R30. -/
def recvChecks (s : State) (k : Out) : Out :=
  if s.ep.closed then raise .closedHandleError s
  else if s.ep.readable then (if s.ep.rxDesync then .refused .receiverDesynchronised else k)
  else raise .capabilityError s

/-- Whether a length exceeds a capacity; never, when unbounded (R50). -/
def exceeds (n : Nat) : Option Nat → Bool
  | none => false
  | some cap => decide (cap < n)

end Sys2Proof.Machine
end

