-- ==== Sys2Proof/Machine/Operands.lean ====
section
/-! DEFINITION. Operand forms: the slice of the host source buffer (R47, R91), and the integer operands that a
command validates (R110, R120). -/

namespace Sys2Proof.Machine

/-- The four tests of SEND_BYTES, over unbounded integers: the sum does not wrap (R84, R91). -/
def sliceValid (buffer : Bytes) (offset size : Int) : Bool :=
  decide (0 ≤ offset) && decide (offset ≤ buffer.length) && decide (0 ≤ size) &&
    decide (offset + size ≤ buffer.length)

/-- `MemRead(offset, size)` on the source buffer: `buffer[offset : offset+size]` (R47). -/
def slice (buffer : Bytes) (offset size : Int) : Bytes :=
  (buffer.drop offset.toNat).take size.toNat

/-- Validation of one integer operand that may not be negative: `cap` (R110), `maxlength` (R120). It comes
before any I/O (R146). -/
def nonNegative (n : Int) (s : State) (k : Nat → Out) : Out :=
  if n < 0 then raise .validationError s else k n.toNat

end Sys2Proof.Machine
end

