-- ==== Sys2Proof/Machine/Codec.lean ====
section
/-! DEFINITION. The Frame Codec (40_frame_codec.md): HDR_ENC, HDR_PARSE, FRAME_ENC. None reads or writes endpoint
state, performs I/O, or checks a flag. -/

namespace Sys2Proof.Machine

/-- `HDR_ENC(n)` for an encodable `n` (R80): 4 bytes up to SMALL_MAX, else the escape and 8 bytes. -/
def hdrEnc (n : Nat) : Bytes :=
  if n ≤ Config.smallMax then be32 n else escapeBytes ++ be64 n

/-- `FRAME_ENC(payload)` (R81): the header of its length, then the payload unchanged. -/
def frameEnc (payload : Bytes) : Bytes := hdrEnc payload.length ++ payload

/-- `HDR_PARSE(b)`, the pseudocode of R82. -/
def hdrParse (b : Bytes) : ParseResult :=
  if b.length < 4 then .incomplete
  else
    let w := beNat (b.take 4)
    if w = 0xFFFFFFFF then
      if b.length < 12 then .incomplete else .header (beNat ((b.drop 4).take 8)) 12
    else if 0x80000000 ≤ w then .invalid
    else .header w 4

/-- HDR_ENC (R80): a length outside 0 .. 2^64-1 is refused (U14). -/
def execHdrEnc (n : Int) (s : State) : Out :=
  whenIdle s <|
    if n < 0 ∨ Config.lenMax < n.toNat then .refused .lengthNotEncodable
    else finish .ok (.bytes (hdrEnc n.toNat)) s

/-- HDR_PARSE (R82). -/
def execHdrParse (b : Bytes) (s : State) : Out :=
  whenIdle s <| finish .ok (.parse (hdrParse b)) s

/-- FRAME_ENC (R81), refused where HDR_ENC of the length is. -/
def execFrameEnc (payload : Bytes) (s : State) : Out :=
  whenIdle s <|
    if Config.lenMax < payload.length then .refused .lengthNotEncodable
    else finish .ok (.bytes (frameEnc payload)) s

end Sys2Proof.Machine
end

