-- ==== Sys2Proof/Machine/Header.lean ====
section
/-! DEFINITION. The receiver's own instructions: what a SMALL, LARGE or illegal header does to the receive command
that meets it (R107, R122, R123, R125, R127), and the blocking read loop that both the header and the payload
are read by (R106). -/

namespace Sys2Proof.Machine

/-! ### The blocking read loop -/

/-- How a read loop ends, with the bytes it has. -/
inductive ReadEnd where
  | got (acc : Bytes) (s : State)
  | eof (acc : Bytes) (s : State)
  | failed (e : TErr) (acc : Bytes) (s : State)
  | held (acc : Bytes) (s : State)
  | refused (r : Refusal)

/-- `ReadExact(n, _)` with `acc` already read (R106): each TRead asks for exactly the bytes still wanted, and
none is issued for a count that is met. Fuel `n` is enough: each answer that goes round again brings a byte. -/
def readLoop : Nat → Nat → Bytes → State → ReadEnd
  | 0, n, acc, s => if n ≤ acc.length then .got acc s else .held acc s
  | fuel + 1, n, acc, s =>
    if n ≤ acc.length then .got acc s
    else
      match tRead (n - acc.length) s with
      | .held s' => .held acc s'
      | .breach r => .refused r
      | .answered (.data b) s' => readLoop fuel n (acc ++ b) s'
      | .answered .eof s' => .eof acc s'
      | .answered (.err e) s' => .failed e acc s'
      | .answered .wouldBlock _ => .refused .wouldBlockInBlockingMode

/-- `ReadExact` (R106). Each turn that goes round takes a byte off the inbound wire, so the wire's length
bounds the turns. -/
def readExact (n : Nat) (acc : Bytes) (s : State) : ReadEnd :=
  readLoop (s.port.inb.bytes.length + 1) n acc s

/-- What ends a blocking receive inside a read loop (R106), `started` saying whether a byte of the frame came
before the loop: a clean end of stream, a truncated message (degrade, then raise), or a transport error, after
which bytes of the frame that were consumed are lost and the receiver is marked (R30). -/
def readEnded (started : Bool) (k : Bytes → State → Out) (wait : Bytes → Cont) : ReadEnd → Out
  | .got acc s => k acc s
  | .eof acc s =>
    if !started && acc.isEmpty then raise .cleanEOF s
    else degradeAndRaise .truncatedMessageError .none s
  | .failed e acc s =>
    raise (.transportError e)
      { s with ep := { s.ep with rxDesync := s.ep.rxDesync || started || !acc.isEmpty } }
  | .held acc s => .next { s with cont := wait acc }
  | .refused r => .refused r

/-- A whole payload is in hand: the command's result (R108 to R110). RECV_BYTES_INTO writes the destination
only here (R48). -/
def deliverPayload (kind : RecvKind) (p : Bytes) (s : State) : Out :=
  match kind with
  | .bytes => finish .ok (.bytes p) s
  | .value => finish .ok (.value (serDecode s.params.serializer p)) s
  | .into _ => finish .ok (.count p.length) { s with dst := Memory.writeBytes s.dst 0 p }

/-- `ReadExact(N, started = true)` and what follows it (R108). -/
def readPayload (kind : RecvKind) (n : Nat) (acc : Bytes) (s : State) : Out :=
  readEnded true (deliverPayload kind) (.recvPayload kind n) (readExact n acc s)

/-! ### A header -/

/-- Whether the declared length exceeds the destination of a receive-into (R110: strictly). -/
def RecvKind.tooSmall (kind : RecvKind) (n : Nat) : Bool :=
  match kind with
  | .bytes => false
  | .value => false
  | .into cap => decide (cap < n)

/-- A header that declares `n` payload bytes. A blocking receive judges the capacities and reads the payload
(R107, R108, R110). A non-blocking one creates the Pending Receive Context and moves to InProgress (R123). With
no receive executing nothing happens (R3, R154; log 10). -/
def headerResolved (n : Nat) (s : State) : Out :=
  match s.cont with
  | .idle => .next s
  | .writing _ _ => .next s
  | .recvPayload _ _ _ => .next s
  | .recvHeader kind _ =>
    if exceeds n s.params.rxCap then .refused .rxCapacity
    else if kind.tooSmall n then degradeAndRaise .badMessageLengthError .none s
    else readPayload kind n [] s
  | .assembling _ _ =>
    if exceeds n s.params.rxCap then .refused .rxCapacity
    else .next { s with ep := { s.ep with rxHdr := [], ctx := some ⟨[], n⟩, rxPhase := .inProgress } }

/-- An illegal first header word: degrade, then BadMessageLengthError, with the values completed before it in
a non-blocking receive (R107, R125, R151). With no receive executing nothing happens (log 10). -/
def headerInvalid (s : State) : Out :=
  match s.cont with
  | .idle => .next s
  | .writing _ _ => .next s
  | .recvPayload _ _ _ => .next s
  | .recvHeader _ _ => degradeAndRaise .badMessageLengthError .none s
  | .assembling _ out => degradeAndRaise .badMessageLengthError (.values out) s

/-- SMALL (R61, R63): the length is bits 30:0. -/
def execSmall (len : BitVec 31) (s : State) : Out := headerResolved len.toNat s

/-- LARGE (R62, R63): the length is the 64-bit field, unsigned, canonical or not (R67). -/
def execLarge (len64 : BitVec 64) (s : State) : Out := headerResolved len64.toNat s

/-- INVALID_HDR (R66): what the word is makes no difference and is not reported (R151). -/
def execInvalidHdr (_rest : BitVec 31) (s : State) : Out := headerInvalid s

/-- Run a header that `decodeHeader` has fetched; it fetches no other instruction. -/
def runHeader (i : Instr) (s : State) : Out :=
  match i with
  | .small len => execSmall len s
  | .large len64 => execLarge len64 s
  | .invalidHdr rest => execInvalidHdr rest s
  | .hdrEnc _ => .next s
  | .hdrParse _ => .next s
  | .frameEnc _ => .next s
  | .send _ => .next s
  | .sendBytes _ _ _ => .next s
  | .drain => .next s
  | .recv => .next s
  | .recvBytes => .next s
  | .recvBytesInto _ => .next s
  | .recvNb _ => .next s
  | .close => .next s
  | .reserved0 => .next s
  | .reservedCF _ => .next s

end Sys2Proof.Machine
end

