-- ==== Sys2Proof/Machine/Assembler.lean ====
section
/-! DEFINITION. The non-blocking Receiver (43_receiver_nonblocking.md): RECV_NB and the reassembly machine. -/

namespace Sys2Proof.Machine

/-- Where a pass of Assemble leads: round again, or to an outcome. -/
inductive Pass where
  | again (s : State)
  | stop (o : Out)

/-- A header that has run: the loop goes round unless the command has ended. -/
def passOn : Out → Pass
  | .next s => if s.cont = .idle then .stop (.next s) else .again s
  | .fault f => .stop (.fault f)
  | .refused r => .stop (.refused r)

/-- The InProgress pass (R124): the context takes up to its remaining count from the bytes in hand; a context
that is filled is decoded, emitted and discarded; if the bytes run out first the command ends. -/
def fillPass (inBytes : Bytes) (out : List Value) (s : State) : Pass :=
  match s.ep.ctx with
  | none => .stop (.refused .contextMissing)
  | some c =>
    let k := min c.remaining inBytes.length
    let payload := c.payload ++ inBytes.take k
    if c.remaining = k then
      .again { s with
        ep := { s.ep with ctx := none, rxPhase := .awaitingHeader }
        cont := .assembling (inBytes.drop k) (out ++ [serDecode s.params.serializer payload]) }
    else
      .stop (finish .ok (.values out)
        { s with ep := { s.ep with ctx := some ⟨payload, c.remaining - k⟩ } })

/-- The AwaitingHeader pass (R123): the kept header bytes and the new ones are read as a header; too few are
kept for the next command, and a header is fetched and run. -/
def headerPass (inBytes : Bytes) (out : List Value) (s : State) : Pass :=
  let avail := s.ep.rxHdr ++ inBytes
  match decodeHeader avail with
  | .incomplete => .stop (finish .ok (.values out) { s with ep := { s.ep with rxHdr := avail } })
  | .fetched i hlen => passOn (runHeader i { s with cont := .assembling (avail.drop hlen) out })

/-- One pass, by the phase (R122). -/
def assemblePass (inBytes : Bytes) (out : List Value) (s : State) : Pass :=
  match s.ep.rxPhase with
  | .awaitingHeader => headerPass inBytes out s
  | .inProgress => fillPass inBytes out s

/-- The loop of Assemble (R122) on the bytes in hand that `cont` holds. -/
def assembleLoop : Nat → State → Out
  | 0, s => .next s
  | fuel + 1, s =>
    match s.cont with
    | .assembling inBytes out =>
      match assemblePass inBytes out s with
      | .again s' => assembleLoop fuel s'
      | .stop o => o
    | .idle => .next s
    | .writing _ _ => .next s
    | .recvHeader _ _ => .next s
    | .recvPayload _ _ _ => .next s

/-- The passes Assemble can need: each header takes 4 bytes or more and one fill follows it, and a context may
be waiting at the start. -/
def assembleFuel (s : State) : Nat :=
  match s.cont with
  | .assembling inBytes _ => s.ep.rxHdr.length + inBytes.length + 2
  | .idle => 0
  | .writing _ _ => 0
  | .recvHeader _ _ => 0
  | .recvPayload _ _ _ => 0

/-- `Assemble` on the bytes in hand that `cont` holds (R122). -/
def assembleHeld (s : State) : Out := assembleLoop (assembleFuel s) s

/-- `Assemble(new)` (R122). -/
def assemble (new : Bytes) (s : State) : Out := assembleHeld { s with cont := .assembling new [] }

/-- `ReadOnce(max)` (R121) and what follows it: would-block and the end of the stream both bring no bytes. -/
def readOnce (max : Nat) (s : State) : Out :=
  match tRead max s with
  | .held _ => .refused .transportHeld
  | .breach r => .refused r
  | .answered (.data b) s' => assemble b s'
  | .answered .wouldBlock s' => assemble [] s'
  | .answered .eof s' => assemble [] s'
  | .answered (.err e) s' => raise (.transportError e) s'

/-- RECV_NB (R120): checks, then exactly one read, then every value the bytes in hand complete. -/
def execRecvNb (maxlength : Int) (s : State) : Out :=
  whenIdle s <| onlyInMode false s <| recvChecks s <|
    nonNegative maxlength s fun max => if max = 0 then .refused .zeroMaxlength else readOnce max s

end Sys2Proof.Machine
end

