-- ==== Sys2Proof/Machine/Channel.lean ====
section
/-! DEFINITION. Channel control (44_channel_control.md): CLOSE, and the reserved codes, which name no command (R71). -/

namespace Sys2Proof.Machine

/-- The effect of CLOSE on the endpoint (R135): nothing on a closed one. -/
def closeOnce (s : State) : State := if s.ep.closed then s else doClose s

/-- Destruction of the owner: the effect of CLOSE, with no response, at the moment it comes (R33, R141). While a
command executes that effect is refused as CLOSE itself is (R53; log 6). -/
def destroyOwner (s : State) : Out := whenIdle s <| .next (closeOnce s)

/-- CLOSE (R135): idempotent, no capability check. -/
def execClose (s : State) : Out :=
  whenIdle s <| finish .ok .none (closeOnce s)

/-- RESERVED_0: code 0x0 names no command; presenting it is refused (R71, U12). -/
def execReserved0 (_s : State) : Out := .refused (.reservedCode 0x0)

/-- RESERVED_C_F: codes 0xC to 0xF name no command; presenting one is refused (R71, U12). -/
def execReservedCF (low : BitVec 2) (_s : State) : Out := .refused (.reservedCode (0b11#2 ++ low))

end Sys2Proof.Machine
end

