-- ==== Sys2Proof/Machine/Receiver.lean ====
section
/-! DEFINITION. The blocking Receiver (42_receiver_blocking.md): RECV, RECV_BYTES, RECV_BYTES_INTO. -/

namespace Sys2Proof.Machine

/-- A header's bytes are in hand: fetch it and run it. -/
def headerInHand (kind : RecvKind) (w : Bytes) (s : State) : Out :=
  match decodeHeader w with
  | .fetched i _ => runHeader i { s with cont := .recvHeader kind w }
  | .incomplete => .next { s with cont := .recvHeader kind w }

/-- `ReadHeader()` and what follows it, with `acc` already read (R107): 4 bytes, then 8 more after an escape.
A clean end of stream needs that no byte was read. -/
def readHeader (kind : RecvKind) (acc : Bytes) (s : State) : Out :=
  readEnded false
    (fun w s' =>
      match decodeHeader w with
      | .fetched _ _ => headerInHand kind w s'
      | .incomplete => readEnded false (headerInHand kind) (.recvHeader kind) (readExact 12 w s'))
    (.recvHeader kind) (readExact 4 acc s)

/-- RECV (R109): RECV_BYTES, then `ser_decode` of the payload. -/
def execRecv (s : State) : Out :=
  whenIdle s <| onlyInMode true s <| recvChecks s <| readHeader .value [] s

/-- RECV_BYTES (R108). -/
def execRecvBytes (s : State) : Out :=
  whenIdle s <| onlyInMode true s <| recvChecks s <| readHeader .bytes [] s

/-- RECV_BYTES_INTO (R110): a negative `cap` is a ValidationError before any I/O. -/
def execRecvBytesInto (cap : Int) (s : State) : Out :=
  whenIdle s <| onlyInMode true s <| recvChecks s <|
    nonNegative cap s fun c => readHeader (.into c) [] s

end Sys2Proof.Machine
end

