-- ==== Sys2Proof/Machine/Sender.lean ====
section
/-! DEFINITION. The Sender (41_sender.md): SEND, SEND_BYTES, DRAIN, in the blocking variant (R92 to R94) and the
non-blocking one (R95, R96). -/

namespace Sys2Proof.Machine

/-! ### Blocking variant -/

/-- How a write loop over one chunk ends. -/
inductive WriteEnd where
  /-- Every byte of the chunk is confirmed. -/
  | done (s : State)
  /-- The transport has not answered, or has confirmed nothing: these bytes are still to be written. -/
  | waiting (c : Bytes) (s : State)
  | failed (e : TErr) (s : State)
  | refused (r : Refusal)

/-- `WriteAll(c)` (R93). A short write goes round again with the bytes not yet written. A zero-progress answer
is retried by the next step, so that a loop that never ends is an endless run of steps (R11 (c), log 4). The
fuel is the chunk's length: each turn that goes round again has written a byte. -/
def writeAll : Nat → Bytes → State → WriteEnd
  | 0, c, s => if c = [] then .done s else .waiting c s
  | fuel + 1, c, s =>
    if c = [] then .done s
    else
      match tWrite c s with
      | .held s' => .waiting c s'
      | .breach r => .refused r
      | .answered (.wrote n) s' => if n = 0 then .waiting c s' else writeAll fuel (c.drop n) s'
      | .answered (.err e) s' => .failed e s'
      | .answered .wouldBlock _ => .refused .wouldBlockInBlockingMode

/-- `SendBlocking` from some chunk on (R92): each chunk in full, in order, then OK. -/
def writeChunks : List Bytes → State → Out
  | [], s => finish .ok .none s
  | c :: rest, s =>
    match writeAll c.length c s with
    | .done s' => writeChunks rest s'
    | .waiting c' s' => .next { s' with cont := .writing c' rest }
    | .failed e s' => raise (.transportError e) s'
    | .refused r => .refused r

/-- `Chunks(h, p)` (R94): one chunk up to COALESCE_MAX, else header, then payload. -/
def chunks (coalesceMax : Nat) (p : Bytes) : List Bytes :=
  if p.length ≤ coalesceMax then [hdrEnc p.length ++ p] else [hdrEnc p.length, p]

/-! ### Non-blocking variant -/

/-- `DrainOnce()` (R96): one TWrite offered the whole queue, none for an empty queue. The command then ends:
OK, or the transport's error with the queue as it was. -/
def drainOnce (s : State) : Out :=
  if s.ep.txq = [] then finish .ok .none s
  else
    match tWrite s.ep.txq s with
    | .held _ => .refused .transportHeld
    | .breach r => .refused r
    | .answered (.wrote n) s' => finish .ok .none { s' with ep := { s'.ep with txq := s'.ep.txq.drop n } }
    | .answered .wouldBlock s' => finish .ok .none s'
    | .answered (.err e) s' => raise (.transportError e) s'

/-- `SendNonBlocking(h, p)` (R95): the whole frame joins the queue, then one best-effort write. -/
def sendNonBlocking (p : Bytes) (s : State) : Out :=
  let queue := s.ep.txq ++ frameEnc p
  if exceeds queue.length s.params.txqCap then .refused .txqCapacity
  else drainOnce { s with ep := { s.ep with txq := queue } }

/-! ### Commands -/

/-- SEND_BYTES after its checks (R91): frame the payload and hand it to the variant. -/
def sendFrame (p : Bytes) (s : State) : Out :=
  if Config.lenMax < p.length then .refused .lengthNotEncodable
  else if s.ep.blocking then writeChunks (chunks s.params.coalesceMax p) s
  else sendNonBlocking p s

/-- SEND_BYTES as R91 states it, for a buffer and a slice of it. -/
def sendSlice (buffer : Bytes) (offset size : Int) (s : State) : Out :=
  sendChecks s <|
    if sliceValid buffer offset size then sendFrame (slice buffer offset size) s
    else raise .validationError s

/-- SEND_BYTES (R91). -/
def execSendBytes (buffer : Bytes) (offset size : Int) (s : State) : Out :=
  whenIdle s <| sendSlice buffer offset size s

/-- SEND (R98): SEND_BYTES of the whole encoded value. -/
def execSend (value : Value) (s : State) : Out :=
  whenIdle s <|
    let b := serEncode s.params.serializer value
    sendSlice b 0 b.length s

/-- DRAIN (R97). -/
def execDrain (s : State) : Out :=
  whenIdle s <| sendChecks s <| drainOnce s

end Sys2Proof.Machine
end

