-- ==== Sys2Proof/Machine/Dispatch.lean ====
section
/-! DEFINITION. One arm per constructor of Instr: its meaning. -/

namespace Sys2Proof.Machine

def exec (i : Instr) (s : State) : Host.Outcome State Fault Refusal :=
  match i with
  -- 40_frame_codec.md
  | .hdrEnc n => Sys2Proof.Machine.execHdrEnc n s
  | .hdrParse b => Sys2Proof.Machine.execHdrParse b s
  | .frameEnc p => Sys2Proof.Machine.execFrameEnc p s
  -- 41_sender.md
  | .send v => Sys2Proof.Machine.execSend v s
  | .sendBytes buffer offset size => Sys2Proof.Machine.execSendBytes buffer offset size s
  | .drain => Sys2Proof.Machine.execDrain s
  -- 42_receiver_blocking.md
  | .recv => Sys2Proof.Machine.execRecv s
  | .recvBytes => Sys2Proof.Machine.execRecvBytes s
  | .recvBytesInto cap => Sys2Proof.Machine.execRecvBytesInto cap s
  -- 43_receiver_nonblocking.md
  | .recvNb maxlength => Sys2Proof.Machine.execRecvNb maxlength s
  -- 44_channel_control.md
  | .close => Sys2Proof.Machine.execClose s
  -- 30_encoding.md
  | .reserved0 => Sys2Proof.Machine.execReserved0 s
  | .reservedCF low => Sys2Proof.Machine.execReservedCF low s
  | .small len => Sys2Proof.Machine.execSmall len s
  | .large len64 => Sys2Proof.Machine.execLarge len64 s
  | .invalidHdr rest => Sys2Proof.Machine.execInvalidHdr rest s

end Sys2Proof.Machine
end

