-- ==== Sys2Proof/Machine/Fetch.lean ====
section
/-! DEFINITION. What a step finds to do: the next command on the host port, a header in hand, or an executing
command to go on with (R3, R11, R31); what the peer does to the wires (R54); and how the host's numbered words
are placed. -/

namespace Sys2Proof.Machine

/-- Go on with the executing command (R11 (b), R31 (d)). -/
def resume (s : State) : Out :=
  match s.cont with
  | .idle => .next s
  | .writing current rest => writeChunks (current :: rest) s
  | .recvHeader kind acc => readHeader kind acc s
  | .recvPayload kind n acc => readPayload kind n acc s
  | .assembling _ _ => assembleHeld s

/-- What the core finds to do. -/
inductive Fetched where
  /-- Nothing: between commands nothing happens to an endpoint (R154). -/
  | nothing
  /-- A command the host presents, which the decoder reads as this instruction. -/
  | instr (i : Instr) (s : State)
  /-- A command whose operands are not those of its row. -/
  | malformed (op : BitVec 4)
  /-- A command is executing. -/
  | executing
  /-- The owner has been destroyed (R141). -/
  | ownerGone (s : State)
  deriving DecidableEq, Repr

/-- Read a presented command with the decoder. -/
def fetchCommand (c : Command) (s : State) : Fetched :=
  match decodeCommand c with
  | .ok i => .instr i s
  | .error _ => .malformed c.op

/-- What the core finds to do: an idle endpoint takes the host's next act; a busy one goes on, unless the host
presents a command at once (R53), which then meets the gate of `whenIdle`. -/
def fetch (s : State) : Fetched :=
  match s.hostQ with
  | [] => if s.cont = .idle then .nothing else .executing
  | .command c :: rest => if s.cont = .idle then fetchCommand c { s with hostQ := rest } else .executing
  | .intrude c :: rest => fetchCommand c { s with hostQ := rest }
  | .ownerDestroyed :: rest => if s.cont = .idle then .ownerGone { s with hostQ := rest } else .executing

/-- The peer's act on the wires (R54): it writes until it has closed its writer or this endpoint has closed its
reader, when the transport answers the peer with an error and no byte joins the wire; and it reads the bytes at
the head of the outbound wire until it has closed its reader (R43; log 23). -/
def peerMove (a : PeerAct) (s : State) : State :=
  match a with
  | .writes b =>
    if s.port.inb.wclosed || s.port.inb.rclosed then s
    else { s with port := { s.port with inb := { s.port.inb with bytes := s.port.inb.bytes ++ b } } }
  | .closesWriter => { s with port := { s.port with inb := { s.port.inb with wclosed := true } } }
  | .reads n =>
    if s.port.outb.rclosed then s
    else { s with port := { s.port with outb := { s.port.outb with bytes := s.port.outb.bytes.drop n } } }
  | .closesReader => { s with port := { s.port with outb := { s.port.outb with rclosed := true } } }

/-- Place a packet where the next step fetches it (log 9): a command at the head of the host's queue of an idle
endpoint; header bytes where the receiver meets them, with a receive command waiting for its header, the core's
turn, no command intruding, and a transport that delivers. No request is outstanding. -/
def place (p : Packet) (s : State) : State :=
  match p with
  | .command c =>
    { s with
      cont := .idle
      agenda := []
      hostQ := .command c :: s.hostQ
      port := { s.port with held := false } }
  | .header b =>
    if s.ep.blocking then
      { s with
        cont := .recvHeader .bytes []
        agenda := []
        hostQ := []
        port := { s.port with
          inb := { s.port.inb with bytes := b ++ s.port.inb.bytes }
          readPlan := ⟨[], .all⟩
          held := false } }
    else
      { s with
        cont := .assembling b []
        agenda := []
        hostQ := []
        port := { s.port with held := false }
        ep := { s.ep with rxPhase := .awaitingHeader, rxHdr := [], ctx := none } }

end Sys2Proof.Machine
end

