-- ==== Sys2Proof/Machine/Step.lean ====
section
/-! DEFINITION. One step of the machine, and where the host's numbered words are placed. -/

namespace Sys2Proof.Machine

/-- The core's move: run the instruction fetched, or go on with the executing command. -/
def coreMove (s : State) : Out :=
  match fetch s with
  | .nothing => .next s
  | .instr i s' => exec i s'
  | .malformed op => .refused (.malformedCommand op)
  | .executing => resume s
  | .ownerGone s' => destroyOwner s'

/-- One step: the agent whose turn it is moves, the core when the agenda is empty (log 5). -/
def step (s : State) : Host.Outcome State Fault Refusal :=
  match s.agenda with
  | [] => coreMove s
  | .core :: rest => coreMove { s with agenda := rest }
  | .peer a :: rest => .next (peerMove a { s with agenda := rest })
  | .ownerDestroyed :: rest => destroyOwner { s with agenda := rest }

/-- `s` with the numbered word placed where `step` fetches its next instruction; `s` itself where the word is
no packet. -/
def State.withFetchWord (s : State) (nbits w : Nat) : State :=
  match tablePacket nbits w with
  | none => s
  | some p => place p s

end Sys2Proof.Machine
end

