-- ==== Sys2Proof/Machine/Flags.lean ====
section
/-! DEFINITION. What the host sees of an endpoint: the FLAGS word and the status view (R29), the status codes
(R70), and the capability states (R139). -/

namespace Sys2Proof.Machine

/-- The FLAGS word (R29): bit 0 `readable`, bit 1 `writable`, bit 2 `blocking`, bit 3 `closed`, bit 4
`rx_phase`, other bits zero. R29 gives no width; 8 bits hold every bit it names (DESIGN CHOICE, log 13). -/
def Endpoint.flags (e : Endpoint) : BitVec 8 :=
  0#3 ++ BitVec.ofBool (e.rxPhase == .inProgress) ++ BitVec.ofBool e.closed ++
    BitVec.ofBool e.blocking ++ BitVec.ofBool e.writable ++ BitVec.ofBool e.readable

/-- The status view (R29). -/
structure StatusView where
  flags : BitVec 8
  txqLen : Nat
  rxPhase : RxPhase
  remaining : Option Nat
  deriving DecidableEq, Repr

/-- The view the host has while no command is executing (R29); it changes nothing. -/
def statusView (s : State) : Option StatusView :=
  if s.cont = .idle then
    some
      { flags := s.ep.flags
        txqLen := s.ep.txq.length
        rxPhase := s.ep.rxPhase
        remaining := s.ep.ctx.map (·.remaining) }
  else none

/-- The status codes of R70. -/
def Status.code : Status → Nat
  | .ok => 0
  | .validationError => 1
  | .closedHandleError => 2
  | .capabilityError => 3
  | .cleanEOF => 4
  | .truncatedMessageError => 5
  | .badMessageLengthError => 6
  | .transportError _ => 7

/-- Which statuses are errors (R70): neither OK nor CleanEOF. -/
def Status.isError : Status → Bool
  | .ok => false
  | .cleanEOF => false
  | .validationError => true
  | .closedHandleError => true
  | .capabilityError => true
  | .truncatedMessageError => true
  | .badMessageLengthError => true
  | .transportError _ => true

/-- The four capability states of R139. -/
inductive Capability where
  | duplex
  | readOnly
  | writeOnly
  | neither
  deriving DecidableEq, Repr

/-- The capability state of an endpoint (R139). -/
def Endpoint.capability (e : Endpoint) : Capability :=
  match e.readable, e.writable with
  | true, true => .duplex
  | true, false => .readOnly
  | false, true => .writeOnly
  | false, false => .neither

end Sys2Proof.Machine
end

