-- ==== Sys2Proof/Machine/Link.lean ====
section
/-! DEFINITION. Two endpoints joined by one transport (R159, R54): each is the other's peer, and they share
nothing but the wire. -/

namespace Sys2Proof.Machine

/-- The two ends of a transport, and whose step comes next, `true` for the left end's. -/
structure Link where
  left : State
  right : State
  turns : List Bool
  deriving DecidableEq, Repr

/-- The one wire from `src` to `dst` (R54): what `src` has written is in flight to `dst`, `dst` sees that `src`
has closed its writer, and `src` sees that `dst` has closed its reader. -/
def carry (src dst : State) : State × State :=
  ({ src with port :=
      { src.port with outb := { src.port.outb with bytes := [], rclosed := dst.port.inb.rclosed } } },
   { dst with port :=
      { dst.port with inb :=
        { dst.port.inb with
          bytes := dst.port.inb.bytes ++ src.port.outb.bytes
          wclosed := src.port.outb.wclosed } } })

/-- Both directions of the transport; nothing orders one against the other (R51 (b)). -/
def Link.settle (l : Link) : Link :=
  let lr := carry l.left l.right
  let rl := carry lr.2 lr.1
  { l with left := rl.2, right := rl.1 }

/-- One endpoint takes a step of its own (R159: any interleaving), then the transport carries. -/
def Link.step (l : Link) : Host.Outcome Link Fault Refusal :=
  match l.turns with
  | [] => .next l
  | true :: rest =>
    match Machine.step l.left with
    | .next s => .next (Link.settle { l with left := s, turns := rest })
    | .fault f => .fault f
    | .refused r => .refused r
  | false :: rest =>
    match Machine.step l.right with
    | .next s => .next (Link.settle { l with right := s, turns := rest })
    | .fault f => .fault f
    | .refused r => .refused r

end Sys2Proof.Machine
end

