-- ==== Sys2Proof/Safety.lean ====
section
/-! DEFINITION. What the spec says of every state between commands, and of an executing command: the invariant
that every step keeps; and the words the statements are written in. -/

namespace Sys2Proof.Machine

/-- A header prefix that decides nothing yet (R26): at most 3 bytes, or 4 to 11 that begin with the escape. -/
def isHeaderPrefix (b : Bytes) : Bool :=
  decide (b.length < 4) || (decide (b.length < 12) && b.take 4 == escapeBytes)

/-- The receive state between commands (R24, R26, R27): a header prefix and no context, or no header bytes and
a context that still wants bytes, of a length the header can declare. -/
def Endpoint.receiveOk (rxCap : Option Nat) (e : Endpoint) : Bool :=
  match e.rxPhase, e.ctx with
  | .awaitingHeader, none => isHeaderPrefix e.rxHdr
  | .inProgress, some c =>
    e.rxHdr == [] && decide (1 ≤ c.remaining) && decide (c.payload.length + c.remaining ≤ Config.lenMax) &&
      !exceeds (c.payload.length + c.remaining) rxCap
  | .awaitingHeader, some _ => false
  | .inProgress, none => false

/-- The receive state of reset (R32). -/
def Endpoint.receiveClear (e : Endpoint) : Bool :=
  e.rxPhase == .awaitingHeader && e.rxHdr == [] && e.ctx == none

/-- The executing command, if any, is one this endpoint can be executing: a blocking one, with something still
to write or to read (R31 (d), R93, R106, R107). -/
def contOk (p : Params) (e : Endpoint) : Cont → Bool
  | .idle => true
  | .writing current rest => e.blocking && e.writable && current != [] && rest.all (· != [])
  | .recvHeader _ acc => e.blocking && e.readable && isHeaderPrefix acc
  | .recvPayload kind n acc =>
    e.blocking && e.readable && decide (acc.length < n) && decide (n ≤ Config.lenMax) && !exceeds n p.rxCap &&
      (match kind with
        | .into cap => decide (n ≤ cap)
        | .bytes => true
        | .value => true)
  | .assembling _ _ => false

/-- A TClose (R43). -/
def Request.isClose : Request → Bool
  | .close _ => true
  | .read _ _ => false
  | .write _ _ => false

/-- The close requests issued so far: none while the endpoint is open, and then one for each distinct handle it
owns, in R135's order. -/
def closesOk (s : State) : Bool :=
  s.port.calls.filter Request.isClose ==
    if s.ep.closed then (ownedHandles s.params s.ep).map .close else []

/-- What a receive asks for with these header bytes in hand (R106, R107). -/
def headerWants (acc : Bytes) : Nat := if acc.length < 4 then 4 - acc.length else 12 - acc.length

/-- The request that the executing command goes on with (R93, R106). -/
def State.awaits (s : State) : Option Request :=
  match s.cont with
  | .idle => none
  | .writing current _ => some (.write s.ep.hWr current)
  | .recvHeader _ acc => some (.read s.ep.hRd (headerWants acc))
  | .recvPayload _ n acc => some (.read s.ep.hRd (n - acc.length))
  | .assembling _ _ => none

/-- An outstanding request is the last one issued, and the one the executing command goes on with (R41, R42). -/
def heldOk (s : State) : Bool :=
  !s.port.held || (s.awaits.isSome && s.port.calls.getLast? == s.awaits)

/-- The invariant of a run. -/
structure Inv (s : State) : Prop where
  /-- No capability is ever gained (R21, R158). -/
  capabilities : (s.ep.readable = true → s.params.readable0 = true) ∧
    (s.ep.writable = true → s.params.writable0 = true)
  /-- A closed endpoint can do nothing and holds nothing (R22, R33, R135). -/
  closed : s.ep.closed = true →
    s.ep.readable = false ∧ s.ep.writable = false ∧ s.ep.txq = [] ∧ s.ep.receiveClear = true
  /-- The receive state (R24, R26, R27). -/
  receive : s.ep.receiveOk s.params.rxCap = true
  /-- A blocking endpoint uses neither the queue nor the reassembly state (R24, R25, R108). -/
  blockingUnused : s.ep.blocking = true → s.ep.txq = [] ∧ s.ep.receiveClear = true
  /-- Only a blocking receive marks the receiver (R30). -/
  desync : s.ep.rxDesync = true → s.ep.blocking = true
  /-- The queue keeps within its capacity (R50). -/
  queue : exceeds s.ep.txq.length s.params.txqCap = false
  /-- The executing command. -/
  cont : contOk s.params s.ep s.cont = true
  /-- Each distinct handle is closed exactly once, when the endpoint closes (R135). -/
  closes : closesOk s = true
  /-- A held request is one request, of an executing command (R11 (b)). -/
  request : heldOk s = true
  /-- The destination buffer is in canonical form. -/
  memory : s.dst.wf = true

/-! ### The words the statements are written in -/

/-- A command of R69; the rest are the reserved codes and the wire headers. -/
def isCommand : Instr → Bool
  | .hdrEnc _ => true
  | .hdrParse _ => true
  | .frameEnc _ => true
  | .send _ => true
  | .sendBytes _ _ _ => true
  | .drain => true
  | .recv => true
  | .recvBytes => true
  | .recvBytesInto _ => true
  | .recvNb _ => true
  | .close => true
  | .reserved0 => false
  | .reservedCF _ => false
  | .small _ => false
  | .large _ => false
  | .invalidHdr _ => false

/-- The send-side commands (R90). -/
def isSend (i : Instr) : Prop := (∃ v, i = .send v) ∨ (∃ b o n, i = .sendBytes b o n) ∨ i = .drain

/-- The receive commands of the blocking variant that have no operand to reject (R108 to R110). -/
def isBlockingReceive (i : Instr) (kind : RecvKind) : Prop :=
  (i = .recv ∧ kind = .value) ∨ (i = .recvBytes ∧ kind = .bytes) ∨ ∃ c : Nat, i = .recvBytesInto c ∧ kind = .into c

/-- The receive commands of an endpoint's own mode (R71, R105). -/
def isReceive (blocking : Bool) (i : Instr) : Prop :=
  if blocking then i = .recv ∨ i = .recvBytes ∨ ∃ c, i = .recvBytesInto c else ∃ m, i = .recvNb m

/-- Between commands, and past SendChecks (R90). -/
abbrev canSend (s : State) : Prop := s.cont = .idle ∧ s.ep.closed = false ∧ s.ep.writable = true

/-- Between commands, and past RecvChecks (R105). -/
abbrev canReceive (s : State) : Prop :=
  s.cont = .idle ∧ s.ep.closed = false ∧ s.ep.readable = true ∧ s.ep.rxDesync = false

/-- The eager transport's reads (R54). -/
abbrev eagerReads (p : Port) : Prop := p.readPlan = ⟨[], .all⟩

/-- The eager transport's writes, with the far reader still there (R54). -/
abbrev eagerWrites (p : Port) : Prop := p.writePlan = ⟨[], .all⟩ ∧ p.outb.rclosed = false

/-- A command that frames the payload `p`: SEND of a value (R98), or SEND_BYTES of a valid slice (R91). -/
def framesPayload (s : State) (i : Instr) (p : Bytes) : Prop :=
  (∃ v, i = .send v ∧ p = serEncode s.params.serializer v) ∨
    ∃ b o n, i = .sendBytes b o n ∧ 0 ≤ o ∧ 0 ≤ n ∧ o + n ≤ b.length ∧ p = (b.drop o.toNat).take n.toNat

/-- The bytes of a header that declares `n`: SMALL (R61), or LARGE, canonical or not (R62, R67). -/
abbrev isHeader (h : Bytes) (n : Nat) : Prop :=
  (n ≤ 0x7FFFFFFF ∧ h = be32 n) ∨ (n < 2 ^ 64 ∧ h = [0xFF, 0xFF, 0xFF, 0xFF] ++ be64 n)

/-- An illegal first header word (R66). -/
abbrev isIllegalWord (w : Bytes) : Prop :=
  w.length = 4 ∧ 0x80000000 ≤ beNat w ∧ beNat w ≠ 0xFFFFFFFF

/-- The reads of a header by a blocking receive (R107): 4 bytes, then 8 more of a LARGE one. -/
def headerReads (h : Bytes) : List Nat := if h.length = 4 then [4] else [4, 8]

/-- The read of a payload, none for a count of zero (R106). -/
def payloadReads (n : Nat) : List Nat := if n = 0 then [] else [n]

/-- The state after eager reads asking for these counts have left `rest` on the inbound wire. -/
def afterReads (asked : List Nat) (rest : Bytes) (s : State) : State :=
  { s with port :=
    { s.port with
      inb := { s.port.inb with bytes := rest }
      calls := s.port.requested (asked.map (.read s.ep.hRd))
      held := s.port.held && asked.isEmpty } }

/-- The state after one TRead asking for `want` bytes was answered, and the first `k` bytes in flight came with the
answer (R41). -/
def afterRead (want k : Nat) (s : State) : State :=
  { s with port :=
    { s.port with
      inb := { s.port.inb with bytes := s.port.inb.bytes.drop k }
      readPlan := s.port.readPlan.pop.2
      calls := s.port.requested [.read s.ep.hRd want]
      held := false } }

/-- The state after one TWrite offering `b` was answered, its first `n` bytes confirmed (R42). -/
def afterWrite (b : Bytes) (n : Nat) (s : State) : State :=
  { s with port :=
    { s.port with
      outb := { s.port.outb with bytes := s.port.outb.bytes ++ b.take n }
      writePlan := s.port.writePlan.pop.2
      calls := s.port.requested [.write s.ep.hWr b]
      held := false } }

/-- The state after one TWrite offered the queue `q` confirmed its first `n` bytes (R96). -/
def afterDrain (q : Bytes) (n : Nat) (s : State) : State :=
  { afterWrite q n s with ep := { s.ep with txq := q.drop n } }

/-- The state after one TRead asking for `want` bytes had no answer: one request is outstanding (R11 (b), R41). -/
def readOutstanding (want : Nat) (s : State) : State :=
  { s with port :=
    { s.port with
      readPlan := s.port.readPlan.pop.2
      calls := s.port.requested [.read s.ep.hRd want]
      held := true } }

/-- The state after one TWrite offering `b` had no answer: one request is outstanding (R11 (b), R42). -/
def writeOutstanding (b : Bytes) (s : State) : State :=
  { s with port :=
    { s.port with
      writePlan := s.port.writePlan.pop.2
      calls := s.port.requested [.write s.ep.hWr b]
      held := true } }

/-- The transport's next read answer carries no byte, or more than the `want` asked for (R41, U1). -/
def breaksReadContract (want : Nat) (p : Port) : Prop :=
  p.inb.bytes ≠ [] ∧ ∃ k, p.readPlan.pop.1 = .take k ∧ (k = 0 ∨ want < k ∧ want < p.inb.bytes.length)

/-- The transport's next read answer is would-block, the stream not having ended (R41, U2). -/
def readWouldBlock (p : Port) : Prop :=
  p.readPlan.pop.1 = .wouldBlock ∧ (p.inb.bytes ≠ [] ∨ p.inb.wclosed = false)

/-- The transport's next write answer confirms more bytes than the `offered` ones (R42, U1). -/
def breaksWriteContract (offered : Nat) (p : Port) : Prop :=
  ∃ n, p.writePlan.pop.1 = .wrote n ∧ offered < n

/-- Nobody but the core has anything to do in the next step, and the host presents nothing. -/
abbrev undisturbed (s : State) : Prop := s.agenda = [] ∧ s.hostQ = []

/-- A byte of the frame being received has been read (R30, R106). -/
def Cont.midFrame : Cont → Bool
  | .idle => false
  | .writing _ _ => false
  | .recvHeader _ acc => !acc.isEmpty
  | .recvPayload _ _ _ => true
  | .assembling _ _ => false

/-- The response to a payload received (R108 to R110). -/
def payloadResult (c : SerializerChoice) (kind : RecvKind) (p : Bytes) : Result :=
  match kind with
  | .bytes => .bytes p
  | .value => .value (serDecode c p)
  | .into _ => .count p.length

/-- What a destination reads as after `p` is written at index 0 (R48). -/
def destinationHolds (before after : Memory) (kind : RecvKind) (p : Bytes) : Prop :=
  match kind with
  | .bytes => after = before
  | .value => after = before
  | .into _ => before.wf = true → after.wf = true ∧ ∀ a, after.read a = (p[a]?).getD (before.read a)

/-- Complete frames, header and payload, as they follow one another on a wire (R60). -/
def wireOf (fs : List (Bytes × Bytes)) : Bytes := (fs.map fun f => f.1 ++ f.2).flatten

/-- Every one of them is a header and the payload it declares (R60). -/
def areFrames (fs : List (Bytes × Bytes)) : Prop := ∀ f ∈ fs, isHeader f.1 f.2.length

/-- The tail `T` of R28: an unresolved header prefix, or a resolved header and part of its payload. -/
def isTail (e : Endpoint) (T : Bytes) : Prop :=
  (e.rxPhase = .awaitingHeader ∧ e.ctx = none ∧ T = e.rxHdr) ∨
    (e.rxPhase = .inProgress ∧ e.rxHdr = [] ∧
      ∃ c h, e.ctx = some c ∧ 1 ≤ c.remaining ∧ isHeader h (c.payload.length + c.remaining) ∧ T = h ++ c.payload)

/-- `s` with the transport's next answer to a TRead set to the next `k` bytes. -/
def nextReadGives (k : Nat) (s : State) : State :=
  { s with port := { s.port with readPlan := ⟨[.take k], .all⟩ } }

/-- Successive RECV_NB commands whose reads answer with these parts of the inbound bytes: the values they
return, in order, and the state they leave; none if one of them does not end with OK. -/
def receiveParts (maxlength : Nat) : List Bytes → State → Option (List Value × State)
  | [], s => some ([], s)
  | b :: rest, s =>
    match exec (.recvNb maxlength) (nextReadGives b.length s) with
    | .next t =>
      match t.resp with
      | some ⟨.ok, .values vs⟩ => (receiveParts maxlength rest t).map fun r => (vs ++ r.1, r.2)
      | _ => none
    | _ => none

end Sys2Proof.Machine
end

