-- ==== Sys2Proof/Certificates/Slice0/Obligations.lean ====
section
/-! DEFINITION. The statements for the provers, in the order of the spec's files. -/

open Sys2Proof Sys2Proof.Machine

/-! ### State and reset (10_state.md, 70_reset_and_hazards.md) -/

/-- R32, R170: what creation leaves in every field of the endpoint, for every choice of the arguments. -/
def Obligations.CreationLeavesTheResetValues : Prop :=
  ∀ (p : Params) (blocking : Bool) (hRd hWr : Handle),
    (State.create p blocking hRd hWr).ep =
      { readable := p.readable0, writable := p.writable0, blocking := blocking, closed := false, hRd := hRd,
        hWr := hWr, txq := [], rxPhase := .awaitingHeader, rxHdr := [], ctx := none, rxDesync := false } ∧
    (State.create p blocking hRd hWr).cont = .idle ∧
    State.reset.ep.closed = false ∧ State.reset.ep.txq = [] ∧ State.reset.ep.rxPhase = .awaitingHeader ∧
    State.reset.ep.rxHdr = [] ∧ State.reset.ep.ctx = none ∧ State.reset.ep.rxDesync = false

/-- R29: the bits of the FLAGS word. Its width of 8 is the model's choice (log 13). -/
def Obligations.FlagsWordLayout : Prop :=
  ∀ e : Endpoint,
    e.flags.getLsbD 0 = e.readable ∧ e.flags.getLsbD 1 = e.writable ∧ e.flags.getLsbD 2 = e.blocking ∧
    e.flags.getLsbD 3 = e.closed ∧ (e.flags.getLsbD 4 = true ↔ e.rxPhase = .inProgress) ∧
    ∀ k, 5 ≤ k → e.flags.getLsbD k = false

/-- R29, R139: while no command executes the host sees FLAGS, the length of the queue, the phase and what a context
still wants; while one does it sees nothing. The capability states are the four values of the two flags. -/
def Obligations.StatusViewShowsTheFields : Prop :=
  ∀ s : State,
    (s.cont = .idle → ∃ v, statusView s = some v ∧ v.flags = s.ep.flags ∧ v.txqLen = s.ep.txq.length ∧
      v.rxPhase = s.ep.rxPhase ∧ (∀ c, s.ep.ctx = some c → v.remaining = some c.remaining) ∧
      (s.ep.ctx = none → v.remaining = none) ∧ (Inv s → (v.remaining.isSome = true ↔ v.rxPhase = .inProgress))) ∧
    (s.cont ≠ .idle → statusView s = none) ∧
    (s.ep.capability = .duplex ↔ s.ep.readable = true ∧ s.ep.writable = true) ∧
    (s.ep.capability = .readOnly ↔ s.ep.readable = true ∧ s.ep.writable = false) ∧
    (s.ep.capability = .writeOnly ↔ s.ep.readable = false ∧ s.ep.writable = true) ∧
    (s.ep.capability = .neither ↔ s.ep.readable = false ∧ s.ep.writable = false)

/-- The invariant holds of every endpoint just created whose queue capacity is any at all. -/
def Obligations.InvariantHoldsAtCreation : Prop :=
  ∀ (p : Params) (blocking : Bool) (hRd hWr : Handle),
    Inv (State.create p blocking hRd hWr) ∧ Inv State.reset

/-- R11 (b), R24 to R27, R30, R41, R42, R50, R135: every step keeps the invariant, whoever moves. That an outstanding
request is the last one issued, and the one the executing command goes on with, rests on log 26. -/
def Obligations.EveryStepKeepsTheInvariant : Prop :=
  ∀ s t : State, Inv s → step s = .next t → Inv t

/-- R21, R22, R139, R158: no step gains a capability, reopens a closed endpoint, changes the mode, a handle or
a creation argument; the ability to write is lost only by closing; and the capability state changes only from duplex
to write-only, or by closing, after which it is neither. -/
def Obligations.CapabilitiesOnlyShrink : Prop :=
  ∀ s t : State, step s = .next t →
    (t.ep.readable = true → s.ep.readable = true) ∧ (t.ep.writable = true → s.ep.writable = true) ∧
    (s.ep.closed = true → t.ep.closed = true) ∧
    (s.ep.writable = true → t.ep.writable = false → t.ep.closed = true) ∧
    (t.ep.capability = s.ep.capability ∨ (s.ep.capability = .duplex ∧ t.ep.capability = .writeOnly) ∨
      (t.ep.closed = true ∧ t.ep.capability = .neither)) ∧
    t.ep.blocking = s.ep.blocking ∧ t.ep.hRd = s.ep.hRd ∧ t.ep.hWr = s.ep.hWr ∧ t.params = s.params

/-- R28: after a non-blocking receive that ends with OK, what was pending and what was read are the frames
emitted, in order, followed by what is pending now; if it ends with BadMessageLengthError they are the frames
emitted, an illegal word and bytes never parsed. With no bound on the payload the command always ends. -/
def Obligations.NoReceivedByteIsLostOrReordered : Prop :=
  ∀ (m : Nat) (b rest T : Bytes) (s : State),
    canReceive s → s.ep.blocking = false → b ≠ [] → b.length ≤ m → s.port.inb.bytes = b ++ rest →
    s.ep.receiveOk s.params.rxCap = true → isTail s.ep T →
    (s.params.rxCap = none → ∃ t, exec (.recvNb m) (nextReadGives b.length s) = .next t) ∧
    ∀ t, exec (.recvNb m) (nextReadGives b.length s) = .next t →
      t.port.inb.bytes = rest ∧ t.ep.txq = (if t.ep.closed then [] else s.ep.txq) ∧
      ∃ fs, areFrames fs ∧
        ((t.resp = some ⟨.ok, .values (fs.map fun f => serDecode s.params.serializer f.2)⟩ ∧
            ∃ T', isTail t.ep T' ∧ T ++ b = wireOf fs ++ T') ∨
          (t.resp = some ⟨.badMessageLengthError, .values (fs.map fun f => serDecode s.params.serializer f.2)⟩ ∧
            t.ep = (if s.ep.writable then s.ep.halfClosed else s.ep.shut) ∧
            ∃ w junk, isIllegalWord w ∧ T ++ b = wireOf fs ++ w ++ junk))

/-! ### Transport (20_memory.md) -/

/-- R41, R42: whatever a step does, it issues only reads of at least one byte on the read handle and writes of at
least one byte on the write handle. -/
def Obligations.RequestsAreNeverEmpty : Prop :=
  ∀ s t : State, step s = .next t →
    ∃ new, t.port.calls = s.port.calls ++ new ∧
      ∀ r ∈ new,
        (∃ max, r = .read s.ep.hRd max ∧ 1 ≤ max) ∨ (∃ b, r = .write s.ep.hWr b ∧ b ≠ []) ∨
          r = .close s.ep.hRd ∨ r = .close s.ep.hWr

/-- R53, R173: a command presented while another executes is refused, whichever it is, by `exec` and by the
step that meets it. That this takes in HDR_ENC, HDR_PARSE and FRAME_ENC, which R69 says make no checks on the endpoint,
is the model's choice (log 21). -/
def Obligations.OverlappingCommandIsRefused : Prop :=
  ∀ (i : Instr) (c : Command) (rest : List HostAct) (s : State),
    isCommand i = true → s.cont ≠ .idle →
    exec i s = .refused .overlappingCommand ∧
    (s.agenda = [] → s.hostQ = .intrude c :: rest → decodeCommand c = .ok i →
      step s = .refused .overlappingCommand)

/-! ### Encodings (30_encoding.md) -/

/-- Every well-formed instruction, with every operand, is read back from its encoding. -/
def Obligations.DecodeReadsBackEveryEncoding : Prop :=
  ∀ i : Instr, i.wf = true → decode (encode i) = .ok i

/-- R69, R71: the sixteen codes, with operands written out. -/
def Obligations.CommandCodesDecode : Prop :=
  ∀ (n o z : Int) (b : Bytes) (any : List Operand),
    decodeCommand ⟨0x1, [.int n]⟩ = .ok (.hdrEnc n) ∧ decodeCommand ⟨0x2, [.bytes b]⟩ = .ok (.hdrParse b) ∧
    decodeCommand ⟨0x3, [.bytes b]⟩ = .ok (.frameEnc b) ∧ decodeCommand ⟨0x4, [.value b]⟩ = .ok (.send b) ∧
    decodeCommand ⟨0x5, [.bytes b, .int o, .int z]⟩ = .ok (.sendBytes b o z) ∧
    decodeCommand ⟨0x6, []⟩ = .ok .drain ∧ decodeCommand ⟨0x7, []⟩ = .ok .recv ∧
    decodeCommand ⟨0x8, []⟩ = .ok .recvBytes ∧ decodeCommand ⟨0x9, [.int n]⟩ = .ok (.recvBytesInto n) ∧
    decodeCommand ⟨0xA, [.int n]⟩ = .ok (.recvNb n) ∧ decodeCommand ⟨0xB, []⟩ = .ok .close ∧
    decodeCommand ⟨0x0, any⟩ = .ok .reserved0 ∧ decodeCommand ⟨0xC, any⟩ = .ok (.reservedCF 0) ∧
    decodeCommand ⟨0xD, any⟩ = .ok (.reservedCF 1) ∧ decodeCommand ⟨0xE, any⟩ = .ok (.reservedCF 2) ∧
    decodeCommand ⟨0xF, any⟩ = .ok (.reservedCF 3)

/-- R65, R66: fewer than 4 bytes decide nothing; with 4 or more the first word alone decides which class it is,
and only the escape needs 12. -/
def Obligations.FirstWordDecidesTheHeader : Prop :=
  ∀ b : Bytes,
    (b.length < 4 → decodeHeader b = .incomplete) ∧
    (4 ≤ b.length → beNat (b.take 4) = 0xFFFFFFFF → b.length < 12 → decodeHeader b = .incomplete) ∧
    (beNat (b.take 4) = 0xFFFFFFFF → 12 ≤ b.length →
      decodeHeader b = .fetched (.large (BitVec.ofNat 64 (beNat ((b.drop 4).take 8)))) 12) ∧
    (4 ≤ b.length → beNat (b.take 4) < 0x80000000 →
      decodeHeader b = .fetched (.small (BitVec.ofNat 31 (beNat (b.take 4)))) 4) ∧
    (4 ≤ b.length → 0x80000000 ≤ beNat (b.take 4) → beNat (b.take 4) ≠ 0xFFFFFFFF →
      decodeHeader b = .fetched (.invalidHdr (BitVec.ofNat 31 (beNat (b.take 4)))) 4 ∧
      (Instr.invalidHdr (BitVec.ofNat 31 (beNat (b.take 4)))).wf = true)

/-- R65, R69, R72: what the decoder rejects. A command of R69 whose operands are not those of its row is no
instruction's encoding, and the step that meets it refuses it (log 7); a header's bytes are no instruction while it is
undecided, nor with bytes after it. -/
def Obligations.DecoderRefusals : Prop :=
  (∀ c : Command, 0x1 ≤ c.op.toNat → c.op.toNat ≤ 0xB →
    (∀ i, encode i ≠ .command c) →
    decode (.command c) = .error (.wrongOperands c.op) ∧
    ∀ (rest : List HostAct) (s : State), s.agenda = [] →
      (s.cont = .idle ∧ s.hostQ = .command c :: rest) ∨ s.hostQ = .intrude c :: rest →
      step s = .refused (.malformedCommand c.op)) ∧
  (∀ (op : BitVec 4) (ops : List Operand),
    (0x1 ≤ op.toNat ∧ op.toNat ≤ 0xB ∧ 4 ≤ ops.length) ∨ (op.toNat ∈ [0x6, 0x7, 0x8, 0xB] ∧ ops ≠ []) ∨
      (op.toNat ∈ [0x1, 0x2, 0x3, 0x4, 0x5, 0x9, 0xA] ∧ ops = []) →
    decodeCommand ⟨op, ops⟩ = .error (.wrongOperands op)) ∧
  (∀ b : Bytes, decode (.header b) = .error .incompleteHeader ↔ isHeaderPrefix b = true) ∧
  (∀ (h x : Bytes) (n : Nat), isHeader h n ∨ isIllegalWord h → x ≠ [] →
    decode (.header (h ++ x)) = .error .trailingBytes)

/-- The header decoder and HDR_PARSE (R82) are two readings of the same bytes. -/
def Obligations.HeaderDecoderAgreesWithHdrParse : Prop :=
  ∀ b : Bytes,
    hdrParse b =
      match decodeHeader b with
      | .fetched (.small len) hlen => .header len.toNat hlen
      | .fetched (.large len64) hlen => .header len64.toNat hlen
      | .fetched _ _ => .invalid
      | .incomplete => .incomplete

/-- R71: the reserved codes name no command, and a receive command of the other mode's variant is refused
before any other check. -/
def Obligations.ReservedCodesAndWrongVariantsAreRefused : Prop :=
  ∀ (s : State) (low : BitVec 2) (n : Int),
    exec .reserved0 s = .refused (.reservedCode 0) ∧
    exec (.reservedCF low) s = .refused (.reservedCode (3#2 ++ low)) ∧
    (s.cont = .idle → s.ep.blocking = false →
      exec .recv s = .refused .wrongVariant ∧ exec .recvBytes s = .refused .wrongVariant ∧
      exec (.recvBytesInto n) s = .refused .wrongVariant) ∧
    (s.cont = .idle → s.ep.blocking = true → exec (.recvNb n) s = .refused .wrongVariant)

/-! ### Frame codec (40_frame_codec.md) -/

/-- R80: HDR_ENC. -/
def Obligations.HdrEncGivesTheHeader : Prop :=
  ∀ (n : Int) (s : State), s.cont = .idle →
    (0 ≤ n → n ≤ 0x7FFFFFFF →
      exec (.hdrEnc n) s = .next { s with resp := some ⟨.ok, .bytes (be32 n.toNat)⟩ }) ∧
    (0x7FFFFFFF < n → n ≤ 2 ^ 64 - 1 →
      exec (.hdrEnc n) s =
        .next { s with resp := some ⟨.ok, .bytes ([0xFF, 0xFF, 0xFF, 0xFF] ++ be64 n.toNat)⟩ }) ∧
    (n < 0 ∨ 2 ^ 64 - 1 < n → exec (.hdrEnc n) s = .refused .lengthNotEncodable)

/-- R81: FRAME_ENC. -/
def Obligations.FrameEncIsHeaderThenPayload : Prop :=
  ∀ (p : Bytes) (s : State), s.cont = .idle →
    (p.length ≤ 0x7FFFFFFF →
      exec (.frameEnc p) s = .next { s with resp := some ⟨.ok, .bytes (be32 p.length ++ p)⟩ }) ∧
    (0x7FFFFFFF < p.length → p.length ≤ 2 ^ 64 - 1 →
      exec (.frameEnc p) s =
        .next { s with resp := some ⟨.ok, .bytes ([0xFF, 0xFF, 0xFF, 0xFF] ++ be64 p.length ++ p)⟩ }) ∧
    (2 ^ 64 - 1 < p.length → exec (.frameEnc p) s = .refused .lengthNotEncodable)

/-- R82: HDR_PARSE, case by case. -/
def Obligations.HdrParseJudgesTheFirstWord : Prop :=
  ∀ (b : Bytes) (s : State), s.cont = .idle →
    ∃ r, exec (.hdrParse b) s = .next { s with resp := some ⟨.ok, .parse r⟩ } ∧
      (b.length < 4 → r = .incomplete) ∧
      (4 ≤ b.length →
        (beNat (b.take 4) = 0xFFFFFFFF → b.length < 12 → r = .incomplete) ∧
        (beNat (b.take 4) = 0xFFFFFFFF → 12 ≤ b.length → r = .header (beNat ((b.drop 4).take 8)) 12) ∧
        (0x80000000 ≤ beNat (b.take 4) → beNat (b.take 4) ≠ 0xFFFFFFFF → r = .invalid) ∧
        (beNat (b.take 4) < 0x80000000 → r = .header (beNat (b.take 4)) 4))

/-- R83: the codec laws, with the serializer's law the Round-trip property. -/
def Obligations.CodecLaws : Prop :=
  (∀ (n : Nat) (t : Bytes), n ≤ Config.lenMax → hdrParse (hdrEnc n ++ t) = .header n (hdrEnc n).length) ∧
  (∀ (n : Nat) (q r : Bytes), n ≤ Config.lenMax → hdrEnc n = q ++ r → r ≠ [] → hdrParse q = .incomplete) ∧
  (∀ n m : Nat, n ≤ Config.lenMax → m ≤ Config.lenMax → hdrEnc n = hdrEnc m → n = m) ∧
  (∀ (b : Bytes) (n : Nat), hdrParse b = .header n 4 → b.take 4 = hdrEnc n) ∧
  (∀ n : Nat, n ≤ Config.smallMax →
    hdrParse (be32 n) = .header n 4 ∧ hdrParse ([0xFF, 0xFF, 0xFF, 0xFF] ++ be64 n) = .header n 12) ∧
  (∀ (b : Bytes) (n m : Nat), hdrParse b = .header n 12 → n ≤ Config.smallMax → m ≤ Config.lenMax →
    b.take 12 ≠ hdrEnc m) ∧
  (∀ (p : Bytes) (n h : Nat), p.length ≤ Config.lenMax → hdrParse (frameEnc p) = .header n h →
    ((frameEnc p).drop h).take n = p ∧ (frameEnc p).length = h + n) ∧
  (∀ (c : SerializerChoice) (v : Value) (n h : Nat), (serEncode c v).length ≤ Config.lenMax →
    isValue c v = true → hdrParse (frameEnc (serEncode c v)) = .header n h →
    serDecode c (((frameEnc (serEncode c v)).drop h).take n) = v) ∧
  (∀ (c : SerializerChoice) (b : Bytes), isValue c (serDecode c b) = true)

/-! ### Sender (41_sender.md) -/

/-- R90: the entry checks of SEND, SEND_BYTES and DRAIN. -/
def Obligations.SendChecksComeFirst : Prop :=
  ∀ (i : Instr) (s : State), isSend i → s.cont = .idle →
    (s.ep.closed = true → exec i s = .next { s with resp := some ⟨.closedHandleError, .none⟩ }) ∧
    (s.ep.closed = false → s.ep.writable = false →
      exec i s = .next { s with resp := some ⟨.capabilityError, .none⟩ })

/-- R146: ValidationError, raised before any I/O and any state change, by each command that validates. -/
def Obligations.ValidationErrorLeavesNoTrace : Prop :=
  ∀ (s : State) (b : Bytes) (offset size n : Int),
    (canSend s → offset < 0 ∨ offset > b.length ∨ size < 0 ∨ offset + size > b.length →
      exec (.sendBytes b offset size) s = .next { s with resp := some ⟨.validationError, .none⟩ }) ∧
    (canReceive s → s.ep.blocking = false → n < 0 →
      exec (.recvNb n) s = .next { s with resp := some ⟨.validationError, .none⟩ }) ∧
    (canReceive s → s.ep.blocking = true → n < 0 →
      exec (.recvBytesInto n) s = .next { s with resp := some ⟨.validationError, .none⟩ })

/-- R80, R91: a payload whose length the header cannot carry is refused, queued nowhere and written nowhere. -/
def Obligations.UnencodableSendIsRefused : Prop :=
  ∀ (i : Instr) (p : Bytes) (s : State),
    framesPayload s i p → canSend s → Config.lenMax < p.length → exec i s = .refused .lengthNotEncodable

/-- R92, R94, R98: a blocking send on a transport that takes everything writes the whole frame, in one chunk up
to COALESCE_MAX and else header, then payload, and returns OK; nothing else changes. -/
def Obligations.BlockingSendWritesTheFrame : Prop :=
  ∀ (i : Instr) (p : Bytes) (s : State),
    framesPayload s i p → canSend s → s.ep.blocking = true → p.length ≤ Config.lenMax → eagerWrites s.port →
    exec i s = .next { s with
      resp := some ⟨.ok, .none⟩
      port := { s.port with
        outb := { s.port.outb with bytes := s.port.outb.bytes ++ frameEnc p }
        calls := s.port.requested
          (if p.length ≤ s.params.coalesceMax then [.write s.ep.hWr (frameEnc p)]
          else [.write s.ep.hWr (hdrEnc p.length), .write s.ep.hWr p])
        held := false } }

/-- R92, R93, R99 (a): whatever the transport answers, a blocking send has put a prefix of its frame on the wire,
all of it when it returns OK, and while it executes its continuation holds exactly the rest; an error leaves the
endpoint record as it was. -/
def Obligations.BlockingSendKeepsEveryByte : Prop :=
  ∀ (i : Instr) (p : Bytes) (s t : State),
    framesPayload s i p → canSend s → s.ep.blocking = true → exec i s = .next t →
    t.ep = s.ep ∧ t.params = s.params ∧ t.dst = s.dst ∧ t.port.inb = s.port.inb ∧
    t.port.readPlan = s.port.readPlan ∧ t.hostQ = s.hostQ ∧ t.agenda = s.agenda ∧
    ∃ done todo, frameEnc p = done ++ todo ∧ t.port.outb.bytes = s.port.outb.bytes ++ done ∧
      ((t.cont = .idle ∧ t.resp = some ⟨.ok, .none⟩ ∧ todo = []) ∨
        (t.cont = .idle ∧ ∃ e, t.resp = some ⟨.transportError e, .none⟩) ∨
        (∃ c rest, t.cont = .writing c rest ∧ todo = c ++ rest.flatten ∧ t.resp = s.resp))

/-- R93: a step of a blocking send that is executing goes on with the bytes not yet written; one answer at a time, it
is a step of the send that has the bytes confirmed behind it, and a write with no answer yet stays the one request
outstanding (R11 (b), R42; log 26). A blocking send starts as such a send does, with its first chunk (R92, R94). -/
def Obligations.WriteLoopGoesOnWithTheRest : Prop :=
  ∀ (c : Bytes) (rest : List Bytes) (s : State), undisturbed s →
    (s.cont = .writing c rest → ∀ t, step s = .next t →
      t.ep = s.ep ∧ t.port.inb = s.port.inb ∧
      ∃ done todo, c ++ rest.flatten = done ++ todo ∧ t.port.outb.bytes = s.port.outb.bytes ++ done ∧
        ((t.cont = .idle ∧ t.resp = some ⟨.ok, .none⟩ ∧ todo = []) ∨
          (t.cont = .idle ∧ ∃ e, t.resp = some ⟨.transportError e, .none⟩) ∨
          (∃ c' rest', t.cont = .writing c' rest' ∧ todo = c' ++ rest'.flatten ∧ t.resp = s.resp))) ∧
    (s.cont = .writing c rest → c ≠ [] →
      (∀ n, s.port.writePlan.pop.1 = .wrote n → 1 ≤ n → n ≤ c.length →
        step s = step { afterWrite c n s with cont := .writing (c.drop n) rest }) ∧
      (s.port.writePlan.pop.1 = .wrote 0 → step s = .next (afterWrite c 0 s)) ∧
      (∀ e, s.port.writePlan.pop.1 = .err e →
        step s = .next { afterWrite c 0 s with cont := .idle, resp := some ⟨.transportError e, .none⟩ }) ∧
      (s.port.writePlan.pop.1 = .all → s.port.outb.rclosed = true →
        step s =
          .next { afterWrite c 0 s with cont := .idle, resp := some ⟨.transportError s.port.goneErr, .none⟩ }) ∧
      (s.port.writePlan.pop.1 = .hold → s.ep.blocking = true → step s = .next (writeOutstanding c s))) ∧
    (∀ i p, framesPayload s i p → canSend s → s.ep.blocking = true → p.length ≤ Config.lenMax →
      chunks s.params.coalesceMax p = c :: rest → exec i s = step { s with cont := .writing c rest })

/-- R93, R11 (c), U9: a transport that answers zero bytes for ever makes a blocking send diverge. -/
def Obligations.ZeroProgressDiverges : Prop :=
  ∀ (c : Bytes) (rest : List Bytes) (s : State),
    s.agenda = [] → s.hostQ = [] → s.cont = .writing c rest → c ≠ [] → s.port.writePlan = ⟨[], .wrote 0⟩ →
    ∀ k : Nat, ∃ t : State, core.run k s = .next t ∧ t.cont = .writing c rest ∧ t.ep = s.ep ∧
      t.port.outb = s.port.outb

/-- R95, R96, R98: a non-blocking send queues the whole frame behind what is queued, then offers the whole queue
to one TWrite; exactly the bytes confirmed leave the queue, would-block leaves it and is no error, and a
transport error, the reference transport's own among them once the far reader has gone (R54, U21), leaves it and is
reported. A frame the queue cannot hold is refused (R50). -/
def Obligations.NonBlockingSendQueuesAndWritesOnce : Prop :=
  ∀ (i : Instr) (p : Bytes) (s : State),
    framesPayload s i p → canSend s → s.ep.blocking = false → p.length ≤ Config.lenMax →
    (exceeds (s.ep.txq.length + (frameEnc p).length) s.params.txqCap = true → exec i s = .refused .txqCapacity) ∧
    (exceeds (s.ep.txq.length + (frameEnc p).length) s.params.txqCap = false →
      (∀ n, s.port.writePlan.pop.1 = .wrote n → n ≤ (s.ep.txq ++ frameEnc p).length →
        exec i s = .next { afterDrain (s.ep.txq ++ frameEnc p) n s with resp := some ⟨.ok, .none⟩ }) ∧
      (s.port.writePlan.pop.1 = .all → s.port.outb.rclosed = false →
        exec i s =
          .next { afterDrain (s.ep.txq ++ frameEnc p) (s.ep.txq ++ frameEnc p).length s with
            resp := some ⟨.ok, .none⟩ }) ∧
      (s.port.writePlan.pop.1 = .wouldBlock →
        exec i s = .next { afterDrain (s.ep.txq ++ frameEnc p) 0 s with resp := some ⟨.ok, .none⟩ }) ∧
      (∀ e, s.port.writePlan.pop.1 = .err e ∨
          (s.port.writePlan.pop.1 = .all ∧ s.port.outb.rclosed = true ∧ e = s.port.goneErr) →
        exec i s =
          .next { afterDrain (s.ep.txq ++ frameEnc p) 0 s with resp := some ⟨.transportError e, .none⟩ }))

/-- R96, R97: DRAIN; the errors are those of the far reader gone (R54, U21) too. -/
def Obligations.DrainWritesTheQueueOnce : Prop :=
  ∀ s : State, canSend s →
    (s.ep.txq = [] → exec .drain s = .next { s with resp := some ⟨.ok, .none⟩ }) ∧
    (s.ep.txq ≠ [] → s.ep.blocking = false →
      (∀ n, s.port.writePlan.pop.1 = .wrote n → n ≤ s.ep.txq.length →
        exec .drain s = .next { afterDrain s.ep.txq n s with resp := some ⟨.ok, .none⟩ }) ∧
      (s.port.writePlan.pop.1 = .all → s.port.outb.rclosed = false →
        exec .drain s = .next { afterDrain s.ep.txq s.ep.txq.length s with resp := some ⟨.ok, .none⟩ }) ∧
      (s.port.writePlan.pop.1 = .wouldBlock →
        exec .drain s = .next { afterDrain s.ep.txq 0 s with resp := some ⟨.ok, .none⟩ }) ∧
      (∀ e, s.port.writePlan.pop.1 = .err e ∨
          (s.port.writePlan.pop.1 = .all ∧ s.port.outb.rclosed = true ∧ e = s.port.goneErr) →
        exec .drain s = .next { afterDrain s.ep.txq 0 s with resp := some ⟨.transportError e, .none⟩ }))

/-- R99 (c), R120: on a non-blocking endpoint no command is ever left executing. -/
def Obligations.NonBlockingCommandsAreNeverHeld : Prop :=
  ∀ (i : Instr) (s t : State), isCommand i = true → s.ep.blocking = false → exec i s = .next t → t.cont = .idle

/-! ### Blocking receiver (42_receiver_blocking.md) -/

/-- R105: the entry checks of every receive command, in order. -/
def Obligations.RecvChecksComeFirst : Prop :=
  ∀ (i : Instr) (s : State), isReceive s.ep.blocking i → s.cont = .idle →
    (s.ep.closed = true → exec i s = .next { s with resp := some ⟨.closedHandleError, .none⟩ }) ∧
    (s.ep.closed = false → s.ep.readable = false →
      exec i s = .next { s with resp := some ⟨.capabilityError, .none⟩ }) ∧
    (s.ep.closed = false → s.ep.readable = true → s.ep.rxDesync = true →
      exec i s = .refused .receiverDesynchronised)

/-- R106 to R110: on an eager transport a blocking receive reads exactly one frame, header first, and returns its
payload; every other byte of the wire and of the state stays. -/
def Obligations.BlockingReceiveReturnsOneFrame : Prop :=
  ∀ (i : Instr) (kind : RecvKind) (h p rest : Bytes) (s : State),
    isBlockingReceive i kind → canReceive s → s.ep.blocking = true → eagerReads s.port →
    isHeader h p.length → s.port.inb.bytes = h ++ p ++ rest → exceeds p.length s.params.rxCap = false →
    kind.tooSmall p.length = false →
    ∃ d, destinationHolds s.dst d kind p ∧
      exec i s =
        .next { afterReads (headerReads h ++ payloadReads p.length) rest s with
          dst := d, resp := some ⟨.ok, payloadResult s.params.serializer kind p⟩ }

/-- R106, R108, R46: however the transport splits its answers, a blocking receive that returns OK has taken
exactly one frame off the wire and returns that frame's payload. -/
def Obligations.BlockingReceiveTakesExactlyOneFrame : Prop :=
  ∀ (i : Instr) (kind : RecvKind) (s t : State) (r : Result),
    isBlockingReceive i kind → canReceive s → s.ep.blocking = true → exec i s = .next t → t.cont = .idle →
    t.resp = some ⟨.ok, r⟩ →
    ∃ h p, isHeader h p.length ∧ s.port.inb.bytes = h ++ p ++ t.port.inb.bytes ∧
      r = payloadResult s.params.serializer kind p ∧ destinationHolds s.dst t.dst kind p ∧ t.ep = s.ep

/-- R149, R112: CleanEOF changes nothing, and a repeated receive returns it again; a receive held with no byte read
ends with it once the peer closes. -/
def Obligations.CleanEofChangesNothing : Prop :=
  ∀ (i : Instr) (kind : RecvKind) (s : State),
    s.ep.blocking = true → eagerReads s.port → s.port.inb.bytes = [] → s.port.inb.wclosed = true →
    (isBlockingReceive i kind → canReceive s →
      ∃ t, exec i s = .next t ∧ t = { afterReads [4] [] s with resp := some ⟨.cleanEOF, .none⟩ } ∧
        exec i t = .next { afterReads [4] [] t with resp := some ⟨.cleanEOF, .none⟩ }) ∧
    (undisturbed s → s.cont = .recvHeader kind [] →
      step s = .next { afterReads [4] [] s with cont := .idle, resp := some ⟨.cleanEOF, .none⟩ })

/-- R150, R136, R112: an end of stream after at least one byte of a frame and before its last degrades the endpoint,
then raises TruncatedMessageError; nothing is returned. So does one that meets a receive held inside its header or its
payload. -/
def Obligations.TruncatedFrameDegradesThenRaises : Prop :=
  ∀ (i : Instr) (kind : RecvKind) (h p q r acc : Bytes) (s : State),
    s.ep.blocking = true → eagerReads s.port → s.port.inb.wclosed = true →
    isHeader h p.length → h ++ p = q ++ r → q ≠ [] → r ≠ [] →
    exceeds p.length s.params.rxCap = false → kind.tooSmall p.length = false →
    (isBlockingReceive i kind → canReceive s → s.port.inb.bytes = q →
      ∃ asked, asked ≠ [] ∧ exec i s =
        .next { degrade (afterReads asked [] s) with resp := some ⟨.truncatedMessageError, .none⟩ }) ∧
    (undisturbed s →
      (s.cont = .recvHeader kind acc ∧ isHeaderPrefix acc = true ∧ acc ++ s.port.inb.bytes = q) ∨
        (s.cont = .recvPayload kind p.length acc ∧ h ++ acc ++ s.port.inb.bytes = q) →
      ∃ asked, asked ≠ [] ∧ step s =
        .next { degrade (afterReads asked [] s) with
          cont := .idle, resp := some ⟨.truncatedMessageError, .none⟩ })

/-- R107, R110, R151: an illegal header word, or a declared length above the destination's, degrades the endpoint,
then raises BadMessageLengthError; the payload stays unread and the destination untouched. So it does for a receive
that was held inside that header. -/
def Obligations.BadLengthDegradesThenRaises : Prop :=
  ∀ (i : Instr) (kind : RecvKind) (h rest acc : Bytes) (s : State),
    s.ep.blocking = true → eagerReads s.port →
    isIllegalWord h ∨ (∃ n, isHeader h n ∧ exceeds n s.params.rxCap = false ∧ kind.tooSmall n = true) →
    (isBlockingReceive i kind → canReceive s → s.port.inb.bytes = h ++ rest →
      exec i s =
        .next { degrade (afterReads (headerReads h) rest s) with
          resp := some ⟨.badMessageLengthError, .none⟩ }) ∧
    (undisturbed s → s.cont = .recvHeader kind acc → isHeaderPrefix acc = true →
      acc ++ s.port.inb.bytes = h ++ rest →
      ∃ asked, asked ≠ [] ∧ step s =
        .next { degrade (afterReads asked rest s) with
          cont := .idle, resp := some ⟨.badMessageLengthError, .none⟩ })

/-- R106, R30, R152: a transport error before any byte of the frame leaves the endpoint as it was, whether the receive
had been held or not; one after bytes of the frame were consumed, by the same command in the same step (V11, rows 2 and
3) or by an executing one before, marks the receiver. -/
def Obligations.ReadErrorMarksTheReceiverMidFrame : Prop :=
  ∀ (i : Instr) (kind : RecvKind) (e : TErr) (s : State), s.ep.blocking = true →
    (isBlockingReceive i kind → canReceive s →
      (s.port.readPlan.pop.1 = .err e →
        exec i s = .next { afterRead 4 0 s with resp := some ⟨.transportError e, .none⟩ }) ∧
      (∀ k more, s.port.readPlan.pending = .take k :: .err e :: more → 1 ≤ k → k < 4 → k ≤ s.port.inb.bytes.length →
        exec i s = .next { afterRead (4 - k) 0 (afterRead 4 k s) with
          ep := { s.ep with rxDesync := true }, resp := some ⟨.transportError e, .none⟩ }) ∧
      (∀ n rest more, s.port.readPlan.pending = .take 4 :: .err e :: more → 1 ≤ n → n ≤ 0x7FFFFFFF →
        s.port.inb.bytes = be32 n ++ rest → exceeds n s.params.rxCap = false → kind.tooSmall n = false →
        exec i s = .next { afterRead n 0 (afterRead 4 4 s) with
          ep := { s.ep with rxDesync := true }, resp := some ⟨.transportError e, .none⟩ })) ∧
    (∀ acc, undisturbed s → s.port.readPlan.pop.1 = .err e → s.cont = .recvHeader kind acc →
      isHeaderPrefix acc = true →
      step s = .next { afterRead (headerWants acc) 0 s with
        cont := .idle, ep := { s.ep with rxDesync := s.ep.rxDesync || !acc.isEmpty },
        resp := some ⟨.transportError e, .none⟩ }) ∧
    (∀ n acc, undisturbed s → s.port.readPlan.pop.1 = .err e → s.cont = .recvPayload kind n acc → acc.length < n →
      step s = .next { afterRead (n - acc.length) 0 s with
        cont := .idle, ep := { s.ep with rxDesync := true }, resp := some ⟨.transportError e, .none⟩ })

/-- R11 (b), R41, R112: a blocking receive on an open wire with no byte in flight is held, and stays held step after
step until something arrives; however long it waits, it waits for one TRead. -/
def Obligations.ReceiveIsHeldOnAnEmptyOpenWire : Prop :=
  ∀ (i : Instr) (kind : RecvKind) (s : State),
    isBlockingReceive i kind → s.ep.blocking = true → eagerReads s.port → s.port.inb.bytes = [] →
    s.port.inb.wclosed = false →
    (canReceive s → exec i s = .next { readOutstanding 4 s with cont := .recvHeader kind [] }) ∧
    (undisturbed s → s.cont = .recvHeader kind [] →
      ∀ k : Nat, core.run k s = .next (if k = 0 then s else readOutstanding 4 s) ∧
        (readOutstanding 4 s).port.calls = s.port.calls ++ (if s.port.held then [] else [.read s.ep.hRd 4]))

/-- R31 (d), R106 to R110: a held receive goes on from the bytes it has and ends as if it had never been held. -/
def Obligations.HeldReceiveCompletes : Prop :=
  ∀ (kind : RecvKind) (h p acc rest : Bytes) (s : State),
    s.agenda = [] → s.hostQ = [] → eagerReads s.port → isHeader h p.length →
    exceeds p.length s.params.rxCap = false → kind.tooSmall p.length = false →
    ((s.cont = .recvHeader kind acc ∧ isHeaderPrefix acc = true ∧ acc ++ s.port.inb.bytes = h ++ p ++ rest) ∨
      (s.cont = .recvPayload kind p.length acc ∧ acc.length < p.length ∧
        acc ++ s.port.inb.bytes = p ++ rest)) →
    ∃ asked d, destinationHolds s.dst d kind p ∧
      step s =
        .next { afterReads asked rest s with
          cont := .idle, dst := d, resp := some ⟨.ok, payloadResult s.params.serializer kind p⟩ }

/-- R31 (d), R106 to R108: whatever the transport answers, a blocking receive accounts for every byte it has taken off
the wire, `pre` being the bytes of its frame read before: a held one has them all in its continuation, one request
outstanding, and has changed nothing but the inbound wire and the requests; one that ends has delivered exactly one
frame, or ended with the status that the bytes read call for. -/
def Obligations.BlockingReceiveKeepsEveryByte : Prop :=
  ∀ (i : Instr) (kind : RecvKind) (pre : Bytes) (s t : State),
    (isBlockingReceive i kind ∧ canReceive s ∧ s.ep.blocking = true ∧ pre = [] ∧ exec i s = .next t) ∨
    (undisturbed s ∧ s.cont = .recvHeader kind pre ∧ isHeaderPrefix pre = true ∧ step s = .next t) ∨
    (undisturbed s ∧ step s = .next t ∧ ∃ n h acc, s.cont = .recvPayload kind n acc ∧ acc.length < n ∧ isHeader h n ∧
      exceeds n s.params.rxCap = false ∧ kind.tooSmall n = false ∧ pre = h ++ acc) →
    t.params = s.params ∧ t.hostQ = s.hostQ ∧ t.agenda = s.agenda ∧ t.port.outb.bytes = s.port.outb.bytes ∧
    t.port.writePlan = s.port.writePlan ∧ t.port.inb.wclosed = s.port.inb.wclosed ∧
    ∃ got, s.port.inb.bytes = got ++ t.port.inb.bytes ∧
      ((t.ep = s.ep ∧ t.dst = s.dst ∧ t.resp = s.resp ∧ t.port.outb = s.port.outb ∧ t.port.held = true ∧
          ((t.cont = .recvHeader kind (pre ++ got) ∧ isHeaderPrefix (pre ++ got) = true) ∨
            ∃ h n acc, t.cont = .recvPayload kind n acc ∧ isHeader h n ∧ pre ++ got = h ++ acc ∧ acc.length < n)) ∨
        (t.cont = .idle ∧
          ((∃ h p, isHeader h p.length ∧ pre ++ got = h ++ p ∧ t.ep = s.ep ∧ destinationHolds s.dst t.dst kind p ∧
              t.resp = some ⟨.ok, payloadResult s.params.serializer kind p⟩) ∨
            (t.dst = s.dst ∧
              ((pre ++ got = [] ∧ t.ep = s.ep ∧ t.resp = some ⟨.cleanEOF, .none⟩) ∨
                (pre ++ got ≠ [] ∧ t.ep = (if s.ep.writable then s.ep.halfClosed else s.ep.shut) ∧
                  (t.resp = some ⟨.truncatedMessageError, .none⟩ ∨ t.resp = some ⟨.badMessageLengthError, .none⟩)) ∨
                (t.ep = { s.ep with rxDesync := s.ep.rxDesync || !(pre ++ got).isEmpty } ∧
                  ∃ e, t.resp = some ⟨.transportError e, .none⟩))))))

/-- R106, R107, R108, R41: a blocking receive goes on one answer at a time. It starts as one that has read nothing; an
answer of `k` bytes makes it the receive that has read `k` bytes more; a read with no answer yet stays the one request
outstanding (R11 (b); log 26). -/
def Obligations.BlockingReceiveGoesOnByAnswers : Prop :=
  ∀ (kind : RecvKind) (s : State), undisturbed s → s.ep.blocking = true →
    (∀ i, isBlockingReceive i kind → canReceive s → exec i s = step { s with cont := .recvHeader kind [] }) ∧
    (∀ acc, s.cont = .recvHeader kind acc → isHeaderPrefix acc = true →
      (∀ k, s.port.readPlan.pop.1 = .take k → 1 ≤ k → k ≤ headerWants acc → k ≤ s.port.inb.bytes.length →
        step s =
          step { afterRead (headerWants acc) k s with cont := .recvHeader kind (acc ++ s.port.inb.bytes.take k) }) ∧
      (s.port.readPlan.pop.1 = .hold → step s = .next (readOutstanding (headerWants acc) s))) ∧
    (∀ n acc, s.cont = .recvPayload kind n acc → acc.length < n →
      (∀ k, s.port.readPlan.pop.1 = .take k → 1 ≤ k → k ≤ n - acc.length → k ≤ s.port.inb.bytes.length →
        step s =
          step { afterRead (n - acc.length) k s with
            cont := .recvPayload kind n (acc ++ s.port.inb.bytes.take k) }) ∧
      (s.port.readPlan.pop.1 = .hold → step s = .next (readOutstanding (n - acc.length) s)))

/-! ### Non-blocking receiver (43_receiver_nonblocking.md) -/

/-- R120 (maxlength 0, U5) and R121: a read that brings no byte yields an empty sequence and changes nothing, and
a transport error is reported and changes nothing. -/
def Obligations.NoDataYieldsAnEmptySequence : Prop :=
  ∀ (m : Nat) (s : State), canReceive s → s.ep.blocking = false → s.ep.receiveOk s.params.rxCap = true →
    exec (.recvNb 0) s = .refused .zeroMaxlength ∧
    (1 ≤ m →
      (s.port.readPlan.pop.1 = .wouldBlock ∨ (s.port.readPlan.pop.1 = .all ∧ s.port.inb.bytes = []) →
        exec (.recvNb m) s = .next { afterRead m 0 s with resp := some ⟨.ok, .values []⟩ }) ∧
      (∀ e, s.port.readPlan.pop.1 = .err e →
        exec (.recvNb m) s = .next { afterRead m 0 s with resp := some ⟨.transportError e, .none⟩ }))

/-- R122, R124, R51 (d): one sufficiently large read delivers every frame in flight, in order, and leaves the
receiver as it was created. -/
def Obligations.OneReadDeliversAllFramesInOrder : Prop :=
  ∀ (m : Nat) (ps : List Bytes) (s : State),
    canReceive s → s.ep.blocking = false → s.ep.receiveClear = true → eagerReads s.port →
    (∀ p ∈ ps, p.length ≤ Config.lenMax ∧ exceeds p.length s.params.rxCap = false) → ps ≠ [] →
    s.port.inb.bytes = (ps.map frameEnc).flatten → s.port.inb.bytes.length ≤ m →
    exec (.recvNb m) s =
      .next { afterReads [m] [] s with resp := some ⟨.ok, .values (ps.map (serDecode s.params.serializer))⟩ }

/-- R126, Partial-read resilience: splitting the bytes available across many RECV_NB commands gives the value
sequence of one large read, and leaves the same receiver. -/
def Obligations.PartialReadResilience : Prop :=
  ∀ (m : Nat) (parts : List Bytes) (rest : Bytes) (vs : List Value) (s t : State),
    canReceive s → s.ep.blocking = false → s.ep.receiveOk s.params.rxCap = true → parts ≠ [] →
    (∀ b ∈ parts, b ≠ []) → parts.flatten.length ≤ m → s.port.inb.bytes = parts.flatten ++ rest →
    receiveParts m parts s = some (vs, t) →
    ∃ u, receiveParts m [parts.flatten] s = some (vs, u) ∧ u.ep = t.ep ∧ u.port.inb = t.port.inb

/-- R125: a bad header in the middle of a command ends it with the values completed before it, in order, then
BadMessageLengthError; the endpoint is degraded and the rest of the bytes in hand is never parsed. -/
def Obligations.BadHeaderMidCommandKeepsEarlierValues : Prop :=
  ∀ (m : Nat) (ps : List Bytes) (w junk : Bytes) (s : State),
    canReceive s → s.ep.blocking = false → s.ep.receiveClear = true → eagerReads s.port →
    (∀ p ∈ ps, p.length ≤ Config.lenMax ∧ exceeds p.length s.params.rxCap = false) → isIllegalWord w →
    s.port.inb.bytes = (ps.map frameEnc).flatten ++ w ++ junk → s.port.inb.bytes.length ≤ m →
    exec (.recvNb m) s =
      .next { degrade (afterReads [m] [] s) with
        resp := some ⟨.badMessageLengthError, .values (ps.map (serDecode s.params.serializer))⟩ }

/-- R123, R127: SMALL and LARGE in a non-blocking receive create the context and move to InProgress; a length
above RX_CAP is refused (R50). -/
def Obligations.HeaderCreatesTheReceiveContext : Prop :=
  ∀ (len : BitVec 31) (len64 : BitVec 64) (inBytes : Bytes) (out : List Value) (s : State),
    s.cont = .assembling inBytes out →
    (exec (.small len) s =
      if exceeds len.toNat s.params.rxCap then .refused .rxCapacity
      else .next { s with
        ep := { s.ep with rxHdr := [], ctx := some ⟨[], len.toNat⟩, rxPhase := .inProgress } }) ∧
    (exec (.large len64) s =
      if exceeds len64.toNat s.params.rxCap then .refused .rxCapacity
      else .next { s with
        ep := { s.ep with rxHdr := [], ctx := some ⟨[], len64.toNat⟩, rxPhase := .inProgress } })

/-- R107, R108, R110: SMALL and LARGE in a blocking receive are followed by exactly the payload they declare; a
length above RX_CAP is refused (R50), one above the destination's degrades and raises with nothing read. -/
def Obligations.HeaderIsFollowedByItsPayload : Prop :=
  ∀ (i : Instr) (kind : RecvKind) (acc p rest : Bytes) (s : State),
    (∃ len, i = .small len ∧ len.toNat = p.length) ∨ (∃ len64, i = .large len64 ∧ len64.toNat = p.length) →
    s.cont = .recvHeader kind acc →
    (exceeds p.length s.params.rxCap = true → exec i s = .refused .rxCapacity) ∧
    (exceeds p.length s.params.rxCap = false → kind.tooSmall p.length = false → eagerReads s.port →
      s.port.inb.bytes = p ++ rest →
      ∃ d, destinationHolds s.dst d kind p ∧
        exec i s =
          .next { afterReads (payloadReads p.length) rest s with
            cont := .idle, dst := d, resp := some ⟨.ok, payloadResult s.params.serializer kind p⟩ }) ∧
    (exceeds p.length s.params.rxCap = false → kind.tooSmall p.length = true →
      exec i s = .next { degrade s with cont := .idle, resp := some ⟨.badMessageLengthError, .none⟩ })

/-- R66, R125, R151: an illegal header word degrades the endpoint and ends the receive that meets it; it reports
neither the word nor a length, and reads nothing more. -/
def Obligations.IllegalHeaderDegradesThenRaises : Prop :=
  ∀ (rest : BitVec 31) (s : State),
    (∀ kind acc, s.cont = .recvHeader kind acc →
      exec (.invalidHdr rest) s =
        .next { degrade s with cont := .idle, resp := some ⟨.badMessageLengthError, .none⟩ }) ∧
    (∀ inBytes out, s.cont = .assembling inBytes out →
      exec (.invalidHdr rest) s =
        .next { degrade s with cont := .idle, resp := some ⟨.badMessageLengthError, .values out⟩ })

/-- A header met by no receive changes nothing. The model's choice (log 10), from R3 and R154: between commands
nothing happens to an endpoint, and only a receive takes bytes off the wire. -/
def Obligations.HeaderWithoutAReceiveHasNoEffect : Prop :=
  ∀ (len rest : BitVec 31) (len64 : BitVec 64) (s : State),
    s.cont = .idle ∨ (∃ c cs, s.cont = .writing c cs) ∨ (∃ kind n acc, s.cont = .recvPayload kind n acc) →
    exec (.small len) s = .next s ∧ exec (.large len64) s = .next s ∧ exec (.invalidHdr rest) s = .next s

/-! ### Channel control (44_channel_control.md) -/

/-- R135: CLOSE, once and again: one TClose for each distinct owned handle, the read handle first; queued bytes are
dropped with no write. -/
def Obligations.CloseClosesEachHandleOnce : Prop :=
  ∀ s : State, s.cont = .idle →
    (s.ep.closed = true → exec .close s = .next { s with resp := some ⟨.ok, .none⟩ }) ∧
    (s.ep.closed = false →
      exec .close s = .next { s with
        resp := some ⟨.ok, .none⟩
        ep := { s.ep with closed := true, readable := false, writable := false, txq := [], rxHdr := [],
                          ctx := none, rxPhase := .awaitingHeader }
        port := { s.port with
          inb := { s.port.inb with rclosed := s.port.inb.rclosed || s.params.readable0 }
          outb := { s.port.outb with wclosed := s.port.outb.wclosed || s.params.writable0 }
          calls := s.port.calls ++
            ((if s.params.readable0 = true then [.close s.ep.hRd] else []) ++
              (if s.params.writable0 = true ∧ (s.params.readable0 = false ∨ s.ep.hWr ≠ s.ep.hRd) then
                [.close s.ep.hWr] else [])) } })

/-- R22, R43, R135: once closed, an endpoint issues no request on the transport port and its record changes no
more, whoever moves. -/
def Obligations.ClosedEndpointIssuesNoRequest : Prop :=
  ∀ s t : State, Inv s → s.ep.closed = true → step s = .next t →
    t.ep = s.ep ∧ t.port.calls = s.port.calls ∧ t.cont = .idle

/-- R136: Degrade half-closes an endpoint that is still writable, with no transport call and the outbound side
untouched, and closes one that is not. -/
def Obligations.DegradeHalfClosesOrCloses : Prop :=
  ∀ s : State,
    (s.ep.writable = true →
      degrade s = { s with
        ep := { s.ep with readable := false, rxHdr := [], ctx := none, rxPhase := .awaitingHeader } }) ∧
    (s.ep.writable = false → s.cont = .idle → s.ep.closed = false →
      exec .close s = .next { degrade s with resp := some ⟨.ok, .none⟩ })

/-- R137: a send command leaves the receive side as it was, and a receive command that does not close the endpoint
leaves the send side as it was. -/
def Obligations.TheTwoDirectionsDoNotInteract : Prop :=
  ∀ (i : Instr) (s t : State), exec i s = .next t →
    (isSend i →
      t.ep.readable = s.ep.readable ∧ t.ep.closed = s.ep.closed ∧ t.ep.rxPhase = s.ep.rxPhase ∧
      t.ep.rxHdr = s.ep.rxHdr ∧ t.ep.ctx = s.ep.ctx ∧ t.ep.rxDesync = s.ep.rxDesync ∧
      t.port.inb = s.port.inb ∧ t.port.readPlan = s.port.readPlan ∧ t.dst = s.dst) ∧
    (isReceive s.ep.blocking i →
      t.port.writePlan = s.port.writePlan ∧ t.port.outb.bytes = s.port.outb.bytes ∧
      (t.ep.closed = false → t.ep.txq = s.ep.txq ∧ t.ep.writable = s.ep.writable ∧ t.port.outb = s.port.outb))

/-- R141, R33: destruction of the owner has the effect of CLOSE on the state, and answers nobody, at whatever moment
between commands it comes. While a command executes it is refused, as CLOSE is: the model's choice, from R53 (log 6). -/
def Obligations.OwnerDestructionIsAClose : Prop :=
  ∀ (rest : List HostAct) (later : List Turn) (s t : State),
    (s.agenda = [] → s.cont = .idle → s.hostQ = .ownerDestroyed :: rest →
      exec .close { s with hostQ := rest } = .next t → step s = .next { t with resp := s.resp }) ∧
    (s.agenda = .ownerDestroyed :: later → s.cont = .idle → exec .close { s with agenda := later } = .next t →
      step s = .next { t with resp := s.resp }) ∧
    (s.agenda = .ownerDestroyed :: later → s.cont ≠ .idle → step s = .refused .overlappingCommand)

/-! ### Errors and steps (60_exceptions.md) -/

/-- R41, R42, R93, R106 (U1, U2): a transport that answers outside its contract makes the command that meets it
refused: more or fewer bytes than it may, in both modes, or would-block in blocking mode; on the first request of a
command, and on the request that an executing one goes on with, which every later request is
(`BlockingReceiveGoesOnByAnswers`, `WriteLoopGoesOnWithTheRest`). That no answer in non-blocking mode is refused is the
model's choice (log 3): R174 and U18 say only that the spec does not cover it. -/
def Obligations.BrokenTransportContractIsRefused : Prop :=
  ∀ (i : Instr) (kind : RecvKind) (p : Bytes) (m : Nat) (s : State),
    (isBlockingReceive i kind → canReceive s → s.ep.blocking = true →
      (readWouldBlock s.port → exec i s = .refused .wouldBlockInBlockingMode) ∧
      (breaksReadContract 4 s.port → exec i s = .refused .transportContractBreach)) ∧
    (undisturbed s → s.ep.blocking = true → ∀ want acc,
      (s.cont = .recvHeader kind acc ∧ isHeaderPrefix acc = true ∧ want = headerWants acc) ∨
        (∃ n, s.cont = .recvPayload kind n acc ∧ acc.length < n ∧ want = n - acc.length) →
      (readWouldBlock s.port → step s = .refused .wouldBlockInBlockingMode) ∧
      (breaksReadContract want s.port → step s = .refused .transportContractBreach)) ∧
    (framesPayload s i p → canSend s → s.ep.blocking = true → p.length ≤ Config.lenMax → ∀ c rest,
      chunks s.params.coalesceMax p = c :: rest →
      (s.port.writePlan.pop.1 = .wouldBlock → exec i s = .refused .wouldBlockInBlockingMode) ∧
      (breaksWriteContract c.length s.port → exec i s = .refused .transportContractBreach)) ∧
    (undisturbed s → s.ep.blocking = true → ∀ c rest, s.cont = .writing c rest → c ≠ [] →
      (s.port.writePlan.pop.1 = .wouldBlock → step s = .refused .wouldBlockInBlockingMode) ∧
      (breaksWriteContract c.length s.port → step s = .refused .transportContractBreach)) ∧
    (canReceive s → s.ep.blocking = false → 1 ≤ m →
      (s.port.readPlan.pop.1 = .hold → exec (.recvNb m) s = .refused .transportHeld) ∧
      (breaksReadContract m s.port → exec (.recvNb m) s = .refused .transportContractBreach)) ∧
    (framesPayload s i p → canSend s → s.ep.blocking = false → p.length ≤ Config.lenMax →
      exceeds (s.ep.txq.length + (frameEnc p).length) s.params.txqCap = false →
      (s.port.writePlan.pop.1 = .hold → exec i s = .refused .transportHeld) ∧
      (breaksWriteContract (s.ep.txq ++ frameEnc p).length s.port → exec i s = .refused .transportContractBreach)) ∧
    (canSend s → s.ep.blocking = false → s.ep.txq ≠ [] →
      (s.port.writePlan.pop.1 = .hold → exec .drain s = .refused .transportHeld) ∧
      (breaksWriteContract s.ep.txq.length s.port → exec .drain s = .refused .transportContractBreach))

/-- R145, R70: the status codes, and which are errors. -/
def Obligations.StatusCodesAreTheTaxonomy : Prop :=
  (Status.ok.code = 0 ∧ Status.validationError.code = 1 ∧ Status.closedHandleError.code = 2 ∧
    Status.capabilityError.code = 3 ∧ Status.cleanEOF.code = 4 ∧ Status.truncatedMessageError.code = 5 ∧
    Status.badMessageLengthError.code = 6 ∧ ∀ e, (Status.transportError e).code = 7) ∧
  ∀ st : Status, st.isError = false ↔ st = .ok ∨ st = .cleanEOF

/-- R156, R146 to R152: the state each status but OK leaves, whichever command reports it, in the step that starts the
command or in a later one: an error detected before I/O leaves no trace; CleanEOF leaves the one TRead;
TruncatedMessageError and BadMessageLengthError leave the endpoint degraded; TransportError leaves the endpoint record
but for a frame that joined the queue and for the mark of R30. -/
def Obligations.EachErrorLeavesItsTrace : Prop :=
  ∀ (i : Instr) (s t : State) (st : Status) (r : Result),
    (isCommand i = true ∧ exec i s = .next t) ∨ (undisturbed s ∧ s.cont ≠ .idle ∧ step s = .next t) →
    t.cont = .idle → t.resp = some ⟨st, r⟩ →
    (st = .validationError ∨ st = .closedHandleError ∨ st = .capabilityError →
      t = { s with resp := some ⟨st, .none⟩ }) ∧
    (st = .cleanEOF → t.ep = s.ep ∧ t.dst = s.dst ∧ t.port.inb = s.port.inb ∧ t.port.outb = s.port.outb ∧
      t.port.calls = s.port.calls ++ (if s.port.held then [] else [.read s.ep.hRd 4])) ∧
    (st = .truncatedMessageError ∨ st = .badMessageLengthError →
      t.ep = (if s.ep.writable then s.ep.halfClosed else s.ep.shut) ∧ t.dst = s.dst ∧
      t.port.outb.bytes = s.port.outb.bytes) ∧
    (∀ e, st = .transportError e → r = .none ∧ t.dst = s.dst ∧
      t.ep = { s.ep with
        txq := t.ep.txq
        rxDesync := s.ep.rxDesync || decide (t.port.inb.bytes.length < s.port.inb.bytes.length) || s.cont.midFrame } ∧
      (t.ep.txq = s.ep.txq ∨ ∃ p, framesPayload s i p ∧ t.ep.txq = s.ep.txq ++ frameEnc p))

/-- R154, R176: between commands nothing happens to an endpoint: whoever's turn it is, the peer's or the core's, a step
with no command to take leaves the endpoint, the response and the requests issued as they are. The one event between
commands is the owner's destruction (R141, `OwnerDestructionIsAClose`). -/
def Obligations.NothingMovesBetweenCommands : Prop :=
  ∀ s t : State, s.cont = .idle → s.hostQ = [] → s.agenda.head? ≠ some .ownerDestroyed → step s = .next t →
    t.ep = s.ep ∧ t.params = s.params ∧ t.cont = .idle ∧ t.resp = s.resp ∧ t.dst = s.dst ∧
    t.port.held = s.port.held ∧ t.port.calls = s.port.calls ∧ t.port.readPlan = s.port.readPlan ∧ t.port.writePlan = s.port.writePlan

/-- R54, R159: the peer's acts reach the wires and nothing else of an endpoint, executing or not; no byte joins the
inbound wire once its writer or its reader has closed it, and none leaves the outbound wire for a reader that has gone
(log 23). -/
def Obligations.PeerActsReachOnlyTheWires : Prop :=
  ∀ (a : PeerAct) (rest : List Turn) (s : State), s.agenda = .peer a :: rest →
    ∃ inb outb, step s = .next { s with agenda := rest, port := { s.port with inb := inb, outb := outb } } ∧
      inb.rclosed = s.port.inb.rclosed ∧ outb.wclosed = s.port.outb.wclosed ∧
      (∀ b, a = .writes b →
        inb.bytes =
          (if s.port.inb.wclosed = false ∧ s.port.inb.rclosed = false then s.port.inb.bytes ++ b else s.port.inb.bytes) ∧
        inb.wclosed = s.port.inb.wclosed ∧ outb = s.port.outb) ∧
      (a = .closesWriter → inb.bytes = s.port.inb.bytes ∧ inb.wclosed = true ∧ outb = s.port.outb) ∧
      (∀ n, a = .reads n →
        outb.bytes = (if s.port.outb.rclosed = false then s.port.outb.bytes.drop n else s.port.outb.bytes) ∧
        outb.rclosed = s.port.outb.rclosed ∧ inb = s.port.inb) ∧
      (a = .closesReader → outb.bytes = s.port.outb.bytes ∧ outb.rclosed = true ∧ inb = s.port.inb)

/-- A step runs the instruction decoded: a command the host presents to an idle endpoint, and a header the
receiver meets, after which an assembly that is not over goes on. With a command executing, and none presented at once,
a step goes on with it. -/
def Obligations.StepRunsTheDecodedInstruction : Prop :=
  (∀ (c : Command) (i : Instr) (rest : List HostAct) (s : State),
    s.agenda = [] → s.cont = .idle → s.hostQ = .command c :: rest ∨ s.hostQ = .intrude c :: rest →
    decodeCommand c = .ok i → step s = exec i { s with hostQ := rest }) ∧
  (∀ (i : Instr) (kind : RecvKind) (h rest : Bytes) (s : State),
    s.agenda = [] → s.hostQ = [] → s.cont = .recvHeader kind [] → eagerReads s.port →
    s.port.inb.bytes = h ++ rest → decodeHeader h = .fetched i h.length →
    step s = exec i { afterReads (headerReads h) rest s with cont := .recvHeader kind h }) ∧
  (∀ (i : Instr) (hlen : Nat) (inBytes : Bytes) (out : List Value) (s t : State),
    s.agenda = [] → s.hostQ = [] → s.cont = .assembling inBytes out → s.ep.rxPhase = .awaitingHeader →
    decodeHeader (s.ep.rxHdr ++ inBytes) = .fetched i hlen →
    exec i { s with cont := .assembling ((s.ep.rxHdr ++ inBytes).drop hlen) out } = .next t →
    step s = if t.cont = .idle then .next t else resume t) ∧
  (∀ s : State, s.agenda = [] → s.cont ≠ .idle → (∀ c, s.hostQ.head? ≠ some (.intrude c)) → step s = resume s)

/-! ### Two endpoints (60_exceptions.md R159) -/

/-- R51 (d), R159 and the Round-trip property: a value sent by one blocking endpoint is the value received by the
other, and no byte is left in flight. -/
def Obligations.ValueCrossesTheWire : Prop :=
  ∀ (v : Value) (l : Link),
    l.turns = [true, false] →
    canSend l.left → l.left.ep.blocking = true → l.left.agenda = [] →
    l.left.hostQ = [.command ⟨0x4, [.value v]⟩] → eagerWrites l.left.port → l.left.port.outb.bytes = [] →
    canReceive l.right → l.right.ep.blocking = true → l.right.agenda = [] →
    l.right.hostQ = [.command ⟨0x7, []⟩] → eagerReads l.right.port → l.right.port.inb.bytes = [] →
    l.left.params.serializer = l.right.params.serializer →
    isValue l.left.params.serializer v = true → (serEncode l.left.params.serializer v).length ≤ Config.lenMax →
    exceeds (serEncode l.left.params.serializer v).length l.right.params.rxCap = false →
    ∃ l₁ l₂ : Link, l.step = .next l₁ ∧ l₁.step = .next l₂ ∧
      l₂.left.resp = some ⟨.ok, .none⟩ ∧ l₂.right.resp = some ⟨.ok, .value v⟩ ∧
      l₂.left.ep = l.left.ep ∧ l₂.right.ep = l.right.ep ∧
      l₂.left.port.outb.bytes = [] ∧ l₂.right.port.inb.bytes = []
end

