-- ==== Sys2Proof/Laws/State.lean ====
section
/-! SUPPORT. The small lemmas of the state updates: one per field per update, so that no proof unfolds a record
update. -/

namespace Sys2Proof.Machine

/-! ### `complete` -/

@[simp] theorem complete_params (st : Status) (r : Result) (s : State) : (complete st r s).params = s.params := rfl
@[simp] theorem complete_ep (st : Status) (r : Result) (s : State) : (complete st r s).ep = s.ep := rfl
@[simp] theorem complete_cont (st : Status) (r : Result) (s : State) : (complete st r s).cont = .idle := rfl
@[simp] theorem complete_resp (st : Status) (r : Result) (s : State) : (complete st r s).resp = some ⟨st, r⟩ := rfl
@[simp] theorem complete_dst (st : Status) (r : Result) (s : State) : (complete st r s).dst = s.dst := rfl
@[simp] theorem complete_port (st : Status) (r : Result) (s : State) : (complete st r s).port = s.port := rfl
@[simp] theorem complete_hostQ (st : Status) (r : Result) (s : State) : (complete st r s).hostQ = s.hostQ := rfl
@[simp] theorem complete_agenda (st : Status) (r : Result) (s : State) : (complete st r s).agenda = s.agenda := rfl

/-! ### `doClose` -/

@[simp] theorem doClose_params (s : State) : (doClose s).params = s.params := rfl
@[simp] theorem doClose_ep (s : State) : (doClose s).ep = s.ep.shut := rfl
@[simp] theorem doClose_cont (s : State) : (doClose s).cont = s.cont := rfl
@[simp] theorem doClose_resp (s : State) : (doClose s).resp = s.resp := rfl
@[simp] theorem doClose_dst (s : State) : (doClose s).dst = s.dst := rfl
@[simp] theorem doClose_hostQ (s : State) : (doClose s).hostQ = s.hostQ := rfl
@[simp] theorem doClose_agenda (s : State) : (doClose s).agenda = s.agenda := rfl
@[simp] theorem doClose_port_calls (s : State) :
    (doClose s).port.calls = s.port.calls ++ (ownedHandles s.params s.ep).map .close := rfl
@[simp] theorem doClose_port_readPlan (s : State) : (doClose s).port.readPlan = s.port.readPlan := rfl
@[simp] theorem doClose_port_writePlan (s : State) : (doClose s).port.writePlan = s.port.writePlan := rfl
@[simp] theorem doClose_port_held (s : State) : (doClose s).port.held = s.port.held := rfl
@[simp] theorem doClose_port_goneErr (s : State) : (doClose s).port.goneErr = s.port.goneErr := rfl
@[simp] theorem doClose_port_inb_bytes (s : State) : (doClose s).port.inb.bytes = s.port.inb.bytes := rfl
@[simp] theorem doClose_port_outb_bytes (s : State) : (doClose s).port.outb.bytes = s.port.outb.bytes := rfl

/-! ### The endpoint after a full and a half close -/

@[simp] theorem shut_readable (e : Endpoint) : e.shut.readable = false := rfl
@[simp] theorem shut_writable (e : Endpoint) : e.shut.writable = false := rfl
@[simp] theorem shut_blocking (e : Endpoint) : e.shut.blocking = e.blocking := rfl
@[simp] theorem shut_closed (e : Endpoint) : e.shut.closed = true := rfl
@[simp] theorem shut_hRd (e : Endpoint) : e.shut.hRd = e.hRd := rfl
@[simp] theorem shut_hWr (e : Endpoint) : e.shut.hWr = e.hWr := rfl
@[simp] theorem shut_txq (e : Endpoint) : e.shut.txq = [] := rfl
@[simp] theorem shut_rxPhase (e : Endpoint) : e.shut.rxPhase = .awaitingHeader := rfl
@[simp] theorem shut_rxHdr (e : Endpoint) : e.shut.rxHdr = [] := rfl
@[simp] theorem shut_ctx (e : Endpoint) : e.shut.ctx = none := rfl
@[simp] theorem shut_rxDesync (e : Endpoint) : e.shut.rxDesync = e.rxDesync := rfl
@[simp] theorem halfClosed_readable (e : Endpoint) : e.halfClosed.readable = false := rfl
@[simp] theorem halfClosed_writable (e : Endpoint) : e.halfClosed.writable = e.writable := rfl
@[simp] theorem halfClosed_blocking (e : Endpoint) : e.halfClosed.blocking = e.blocking := rfl
@[simp] theorem halfClosed_closed (e : Endpoint) : e.halfClosed.closed = e.closed := rfl
@[simp] theorem halfClosed_hRd (e : Endpoint) : e.halfClosed.hRd = e.hRd := rfl
@[simp] theorem halfClosed_hWr (e : Endpoint) : e.halfClosed.hWr = e.hWr := rfl
@[simp] theorem halfClosed_txq (e : Endpoint) : e.halfClosed.txq = e.txq := rfl
@[simp] theorem halfClosed_rxPhase (e : Endpoint) : e.halfClosed.rxPhase = .awaitingHeader := rfl
@[simp] theorem halfClosed_rxHdr (e : Endpoint) : e.halfClosed.rxHdr = [] := rfl
@[simp] theorem halfClosed_ctx (e : Endpoint) : e.halfClosed.ctx = none := rfl
@[simp] theorem halfClosed_rxDesync (e : Endpoint) : e.halfClosed.rxDesync = e.rxDesync := rfl

/-! ### The wires -/

@[simp] theorem dropInbound_params (k : Nat) (s : State) : (dropInbound k s).params = s.params := rfl
@[simp] theorem dropInbound_ep (k : Nat) (s : State) : (dropInbound k s).ep = s.ep := rfl
@[simp] theorem dropInbound_cont (k : Nat) (s : State) : (dropInbound k s).cont = s.cont := rfl
@[simp] theorem dropInbound_resp (k : Nat) (s : State) : (dropInbound k s).resp = s.resp := rfl
@[simp] theorem dropInbound_dst (k : Nat) (s : State) : (dropInbound k s).dst = s.dst := rfl
@[simp] theorem dropInbound_hostQ (k : Nat) (s : State) : (dropInbound k s).hostQ = s.hostQ := rfl
@[simp] theorem dropInbound_agenda (k : Nat) (s : State) : (dropInbound k s).agenda = s.agenda := rfl
@[simp] theorem appendOutbound_params (b : Bytes) (s : State) : (appendOutbound b s).params = s.params := rfl
@[simp] theorem appendOutbound_ep (b : Bytes) (s : State) : (appendOutbound b s).ep = s.ep := rfl
@[simp] theorem appendOutbound_cont (b : Bytes) (s : State) : (appendOutbound b s).cont = s.cont := rfl
@[simp] theorem appendOutbound_resp (b : Bytes) (s : State) : (appendOutbound b s).resp = s.resp := rfl
@[simp] theorem appendOutbound_dst (b : Bytes) (s : State) : (appendOutbound b s).dst = s.dst := rfl
@[simp] theorem appendOutbound_hostQ (b : Bytes) (s : State) : (appendOutbound b s).hostQ = s.hostQ := rfl
@[simp] theorem appendOutbound_agenda (b : Bytes) (s : State) : (appendOutbound b s).agenda = s.agenda := rfl

/-! ### Requests -/

@[simp] theorem readIssued_params (max : Nat) (s : State) : (readIssued max s).params = s.params := rfl
@[simp] theorem readIssued_ep (max : Nat) (s : State) : (readIssued max s).ep = s.ep := rfl
@[simp] theorem readIssued_cont (max : Nat) (s : State) : (readIssued max s).cont = s.cont := rfl
@[simp] theorem readIssued_resp (max : Nat) (s : State) : (readIssued max s).resp = s.resp := rfl
@[simp] theorem readIssued_dst (max : Nat) (s : State) : (readIssued max s).dst = s.dst := rfl
@[simp] theorem readIssued_hostQ (max : Nat) (s : State) : (readIssued max s).hostQ = s.hostQ := rfl
@[simp] theorem readIssued_agenda (max : Nat) (s : State) : (readIssued max s).agenda = s.agenda := rfl
@[simp] theorem readIssued_port_inb (max : Nat) (s : State) :
    (readIssued max s).port.inb = s.port.inb := rfl
@[simp] theorem readIssued_port_outb (max : Nat) (s : State) :
    (readIssued max s).port.outb = s.port.outb := rfl
@[simp] theorem readIssued_port_goneErr (max : Nat) (s : State) :
    (readIssued max s).port.goneErr = s.port.goneErr := rfl
@[simp] theorem readIssued_port_writePlan (max : Nat) (s : State) :
    (readIssued max s).port.writePlan = s.port.writePlan := rfl
@[simp] theorem readIssued_port_readPlan (max : Nat) (s : State) :
    (readIssued max s).port.readPlan = s.port.readPlan.pop.2 := rfl
@[simp] theorem readIssued_port_calls (max : Nat) (s : State) :
    (readIssued max s).port.calls = s.port.requested [.read s.ep.hRd max] := rfl
@[simp] theorem readIssued_port_held (max : Nat) (s : State) : (readIssued max s).port.held = false := rfl
@[simp] theorem writeIssued_params (b : Bytes) (s : State) : (writeIssued b s).params = s.params := rfl
@[simp] theorem writeIssued_ep (b : Bytes) (s : State) : (writeIssued b s).ep = s.ep := rfl
@[simp] theorem writeIssued_cont (b : Bytes) (s : State) : (writeIssued b s).cont = s.cont := rfl
@[simp] theorem writeIssued_resp (b : Bytes) (s : State) : (writeIssued b s).resp = s.resp := rfl
@[simp] theorem writeIssued_dst (b : Bytes) (s : State) : (writeIssued b s).dst = s.dst := rfl
@[simp] theorem writeIssued_hostQ (b : Bytes) (s : State) : (writeIssued b s).hostQ = s.hostQ := rfl
@[simp] theorem writeIssued_agenda (b : Bytes) (s : State) : (writeIssued b s).agenda = s.agenda := rfl
@[simp] theorem writeIssued_port_inb (b : Bytes) (s : State) :
    (writeIssued b s).port.inb = s.port.inb := rfl
@[simp] theorem writeIssued_port_outb (b : Bytes) (s : State) :
    (writeIssued b s).port.outb = s.port.outb := rfl
@[simp] theorem writeIssued_port_goneErr (b : Bytes) (s : State) :
    (writeIssued b s).port.goneErr = s.port.goneErr := rfl
@[simp] theorem writeIssued_port_readPlan (b : Bytes) (s : State) :
    (writeIssued b s).port.readPlan = s.port.readPlan := rfl
@[simp] theorem writeIssued_port_writePlan (b : Bytes) (s : State) :
    (writeIssued b s).port.writePlan = s.port.writePlan.pop.2 := rfl
@[simp] theorem writeIssued_port_calls (b : Bytes) (s : State) :
    (writeIssued b s).port.calls = s.port.requested [.write s.ep.hWr b] := rfl
@[simp] theorem writeIssued_port_held (b : Bytes) (s : State) : (writeIssued b s).port.held = false := rfl
@[simp] theorem unanswered_params (s : State) : (unanswered s).params = s.params := rfl
@[simp] theorem unanswered_ep (s : State) : (unanswered s).ep = s.ep := rfl
@[simp] theorem unanswered_cont (s : State) : (unanswered s).cont = s.cont := rfl
@[simp] theorem unanswered_resp (s : State) : (unanswered s).resp = s.resp := rfl
@[simp] theorem unanswered_dst (s : State) : (unanswered s).dst = s.dst := rfl
@[simp] theorem unanswered_hostQ (s : State) : (unanswered s).hostQ = s.hostQ := rfl
@[simp] theorem unanswered_agenda (s : State) : (unanswered s).agenda = s.agenda := rfl
@[simp] theorem unanswered_port_inb (s : State) : (unanswered s).port.inb = s.port.inb := rfl
@[simp] theorem unanswered_port_outb (s : State) : (unanswered s).port.outb = s.port.outb := rfl
@[simp] theorem unanswered_port_readPlan (s : State) : (unanswered s).port.readPlan = s.port.readPlan := rfl
@[simp] theorem unanswered_port_writePlan (s : State) : (unanswered s).port.writePlan = s.port.writePlan := rfl
@[simp] theorem unanswered_port_goneErr (s : State) : (unanswered s).port.goneErr = s.port.goneErr := rfl
@[simp] theorem unanswered_port_calls (s : State) : (unanswered s).port.calls = s.port.calls := rfl
@[simp] theorem unanswered_port_held (s : State) : (unanswered s).port.held = true := rfl

@[simp] theorem requested_nil (p : Port) : p.requested [] = p.calls := by simp [Port.requested]

theorem requested_of_not_held {p : Port} (h : p.held = false) (rs : List Request) :
    p.requested rs = p.calls ++ rs := by
  simp [Port.requested, h]

theorem requested_of_held {p : Port} (h : p.held = true) (rs : List Request) :
    p.requested rs = p.calls ++ rs.tail := by
  simp [Port.requested, h]

/-- Only the first of several requests can be the outstanding one. -/
theorem requested_cons_append (p : Port) (r : Request) (a b : List Request) :
    p.requested (r :: a) ++ b = p.requested (r :: a ++ b) := by
  cases h : p.held <;> simp [Port.requested, h]

/-! ### Plans -/

@[simp] theorem Plan.pop_nil {α : Type} (a : α) : (⟨[], a⟩ : Plan α).pop = (a, ⟨[], a⟩) := rfl
@[simp] theorem Plan.pop_cons {α : Type} (c a : α) (l : List α) : (⟨c :: l, a⟩ : Plan α).pop = (c, ⟨l, a⟩) := rfl

/-! ### Creation (R32, R170) -/

@[simp] theorem create_params (p : Params) (b : Bool) (r w : Handle) : (State.create p b r w).params = p := rfl
@[simp] theorem create_cont (p : Params) (b : Bool) (r w : Handle) : (State.create p b r w).cont = .idle := rfl
@[simp] theorem create_dst (p : Params) (b : Bool) (r w : Handle) : (State.create p b r w).dst = [] := rfl
@[simp] theorem create_port (p : Params) (b : Bool) (r w : Handle) :
    (State.create p b r w).port = Port.initial := rfl

end Sys2Proof.Machine
end

