-- ==== Sys2Proof/Laws/Gates.lean ====
section
/-! SUPPORT. The gates every command passes (R90, R105, R155), close and degrade (R135, R136): what each comes to. -/

namespace Sys2Proof.Machine

/-! ### Gates -/

@[simp] theorem whenIdle_of_idle {s : State} {k : Out} (h : s.cont = .idle) : whenIdle s k = k := by
  simp [whenIdle, h]

theorem whenIdle_of_busy {s : State} {k : Out} (h : s.cont ≠ .idle) :
    whenIdle s k = .refused .overlappingCommand := by
  simp [whenIdle, h]

@[simp] theorem onlyInMode_of_eq {b : Bool} {s : State} {k : Out} (h : s.ep.blocking = b) :
    onlyInMode b s k = k := by
  simp [onlyInMode, h]

theorem onlyInMode_of_ne {b : Bool} {s : State} {k : Out} (h : s.ep.blocking ≠ b) :
    onlyInMode b s k = .refused .wrongVariant := by
  simp [onlyInMode, h]

theorem sendChecks_pass {s : State} {k : Out} (h : s.ep.closed = false) (hw : s.ep.writable = true) :
    sendChecks s k = k := by
  simp [sendChecks, h, hw]

theorem recvChecks_pass {s : State} {k : Out} (h : s.ep.closed = false) (hr : s.ep.readable = true)
    (hd : s.ep.rxDesync = false) : recvChecks s k = k := by
  simp [recvChecks, h, hr, hd]

@[simp] theorem nonNegative_natCast (n : Nat) (s : State) (k : Nat → Out) : nonNegative n s k = k n := by
  simp [nonNegative]

theorem whenIdle_next {s t : State} {k : Out} (h : whenIdle s k = .next t) : s.cont = .idle ∧ k = .next t := by
  unfold whenIdle at h
  split at h
  · exact ⟨‹_›, h⟩
  · cases h

theorem onlyInMode_next {b : Bool} {s t : State} {k : Out} (h : onlyInMode b s k = .next t) :
    s.ep.blocking = b ∧ k = .next t := by
  unfold onlyInMode at h
  split at h
  · exact ⟨‹_›, h⟩
  · cases h

/-- What SendChecks lets through (R90). -/
theorem sendChecks_next {s t : State} {k : Out} (h : sendChecks s k = .next t) :
    (s.ep.closed = true ∧ t = complete .closedHandleError .none s) ∨
    (s.ep.closed = false ∧ s.ep.writable = false ∧ t = complete .capabilityError .none s) ∨
    (s.ep.closed = false ∧ s.ep.writable = true ∧ k = .next t) := by
  unfold sendChecks at h
  split_ifs at h with h1 h2
  · exact .inl ⟨h1, by simpa [raise, finish] using h.symm⟩
  · exact .inr (.inr ⟨by simpa using h1, h2, h⟩)
  · exact .inr (.inl ⟨by simpa using h1, by simpa using h2, by simpa [raise, finish] using h.symm⟩)

/-- What RecvChecks lets through (R105). -/
theorem recvChecks_next {s t : State} {k : Out} (h : recvChecks s k = .next t) :
    (s.ep.closed = true ∧ t = complete .closedHandleError .none s) ∨
    (s.ep.closed = false ∧ s.ep.readable = false ∧ t = complete .capabilityError .none s) ∨
    (s.ep.closed = false ∧ s.ep.readable = true ∧ s.ep.rxDesync = false ∧ k = .next t) := by
  unfold recvChecks at h
  split_ifs at h with h1 h2 h3
  · exact .inl ⟨h1, by simpa [raise, finish] using h.symm⟩
  · exact .inr (.inr ⟨by simpa using h1, h2, by simpa using h3, h⟩)
  · exact .inr (.inl ⟨by simpa using h1, by simpa using h2, by simpa [raise, finish] using h.symm⟩)

theorem nonNegative_next {n : Int} {s t : State} {k : Nat → Out} (h : nonNegative n s k = .next t) :
    (n < 0 ∧ t = complete .validationError .none s) ∨ (0 ≤ n ∧ k n.toNat = .next t) := by
  unfold nonNegative at h
  split_ifs at h with h1
  · exact .inl ⟨h1, by simpa [raise, finish] using h.symm⟩
  · exact .inr ⟨by omega, h⟩

@[simp] theorem finish_next {st : Status} {r : Result} {s t : State} :
    finish st r s = .next t ↔ t = complete st r s := by
  simp [finish, eq_comm]

@[simp] theorem raise_next {st : Status} {s t : State} : raise st s = .next t ↔ t = complete st .none s := by
  simp [raise]

/-! ### Degrade (R136) -/

theorem degrade_of_writable {s : State} (h : s.ep.writable = true) :
    degrade s = { s with ep := s.ep.halfClosed } := by
  simp [degrade, h]

theorem degrade_of_not_writable {s : State} (h : s.ep.writable = false) : degrade s = doClose s := by
  simp [degrade, h]

/-- The endpoint record after `Degrade`. -/
theorem degrade_ep (s : State) : (degrade s).ep = if s.ep.writable then s.ep.halfClosed else s.ep.shut := by
  unfold degrade
  split <;> rfl

@[simp] theorem degrade_params (s : State) : (degrade s).params = s.params := by unfold degrade; split <;> rfl
@[simp] theorem degrade_cont (s : State) : (degrade s).cont = s.cont := by unfold degrade; split <;> rfl
@[simp] theorem degrade_resp (s : State) : (degrade s).resp = s.resp := by unfold degrade; split <;> rfl
@[simp] theorem degrade_dst (s : State) : (degrade s).dst = s.dst := by unfold degrade; split <;> rfl
@[simp] theorem degrade_hostQ (s : State) : (degrade s).hostQ = s.hostQ := by unfold degrade; split <;> rfl
@[simp] theorem degrade_agenda (s : State) : (degrade s).agenda = s.agenda := by unfold degrade; split <;> rfl
@[simp] theorem degrade_port_readPlan (s : State) : (degrade s).port.readPlan = s.port.readPlan := by
  unfold degrade; split <;> rfl
@[simp] theorem degrade_port_writePlan (s : State) : (degrade s).port.writePlan = s.port.writePlan := by
  unfold degrade; split <;> rfl
@[simp] theorem degrade_port_inb_bytes (s : State) : (degrade s).port.inb.bytes = s.port.inb.bytes := by
  unfold degrade; split <;> rfl
@[simp] theorem degrade_port_outb_bytes (s : State) : (degrade s).port.outb.bytes = s.port.outb.bytes := by
  unfold degrade; split <;> rfl

/-! ### Close (R135) -/

/-- The requests a close makes are on the endpoint's own handles (R135). -/
theorem ownedHandles_mem {p : Params} {e : Endpoint} {h : Handle} (hm : h ∈ ownedHandles p e) :
    h = e.hRd ∨ h = e.hWr := by
  unfold ownedHandles at hm
  split_ifs at hm <;> simp at hm <;> tauto

@[simp] theorem ownedHandles_shut (p : Params) (e : Endpoint) : ownedHandles p e.shut = ownedHandles p e := rfl

/-- No handle is closed twice (R135). -/
theorem ownedHandles_nodup (p : Params) (e : Endpoint) : (ownedHandles p e).Nodup := by
  unfold ownedHandles
  split_ifs with h1 h2 <;> simp
  simp [h1] at h2
  exact fun h => h2.2 h.symm

end Sys2Proof.Machine
end

