-- ==== Sys2Proof/Laws/Codec.lean ====
section
/-! SUPPORT. The laws of byte order (R9) and of the header bytes they make. -/

namespace Sys2Proof

@[simp] theorem length_beBytes (k n : Nat) : (beBytes k n).length = k := by
  induction k with
  | zero => rfl
  | succ k ih => simp [beBytes, ih]

@[simp] theorem length_be32 (n : Nat) : (be32 n).length = 4 := length_beBytes 4 n

@[simp] theorem length_be64 (n : Nat) : (be64 n).length = 8 := length_beBytes 8 n

@[simp] theorem length_escapeBytes : escapeBytes.length = 4 := rfl

theorem beNat_foldl (acc : Nat) (b : Bytes) :
    b.foldl (fun acc x => acc * 256 + x.toNat) acc = acc * 256 ^ b.length + beNat b := by
  induction b generalizing acc with
  | nil => simp [beNat]
  | cons x b ih =>
    have h0 := ih (0 * 256 + x.toNat)
    simp only [List.foldl_cons, List.length_cons, beNat, ih (acc * 256 + x.toNat)] at h0 ⊢
    rw [h0]
    ring

theorem beNat_cons (x : Byte) (b : Bytes) : beNat (x :: b) = x.toNat * 256 ^ b.length + beNat b := by
  simpa [beNat] using beNat_foldl x.toNat b

/-- Reading back the bytes of a number that fits. -/
theorem beNat_beBytes (k n : Nat) : beNat (beBytes k n) = n % 256 ^ k := by
  induction k generalizing n with
  | zero => simp [beBytes, beNat, Nat.mod_one]
  | succ k ih =>
    have hm := Nat.mod_mul (a := 256 ^ k) (b := 256) (x := n)
    rw [beBytes, beNat_cons, ih, length_beBytes, BitVec.toNat_ofNat, pow_succ 256, hm]
    norm_num
    ring

theorem beNat_be32 {n : Nat} (h : n < 2 ^ 32) : beNat (be32 n) = n := by
  rw [be32, beNat_beBytes]; exact Nat.mod_eq_of_lt (by simpa using h)

theorem beNat_be64 {n : Nat} (h : n < 2 ^ 64) : beNat (be64 n) = n := by
  rw [be64, beNat_beBytes]; exact Nat.mod_eq_of_lt (by simpa using h)

theorem beNat_lt (b : Bytes) : beNat b < 256 ^ b.length := by
  induction b with
  | nil => simp [beNat]
  | cons x b ih =>
    have hx := x.isLt
    rw [beNat_cons, List.length_cons, pow_succ]
    nlinarith

/-- The bytes of the number that bytes spell are those bytes. -/
theorem beBytes_beNat (b : Bytes) : beBytes b.length (beNat b) = b := by
  induction b with
  | nil => rfl
  | cons x b ih =>
    have hb := beNat_lt b
    have hpos : 0 < 256 ^ b.length := Nat.pow_pos (by norm_num)
    rw [List.length_cons, beBytes, beNat_cons]
    have hmod : ∀ k n m : Nat, n % 256 ^ k = m % 256 ^ k → beBytes k n = beBytes k m := by
      intro k
      induction k with
      | zero => intros; rfl
      | succ k ihk =>
        intro n m h
        rw [beBytes, beBytes]
        have h1 : n / 256 ^ k % 256 = m / 256 ^ k % 256 := by
          rw [pow_succ] at h
          rw [← Nat.mod_mul_right_div_self, ← Nat.mod_mul_right_div_self, h]
        have h2 : n % 256 ^ k = m % 256 ^ k := by
          have hd : 256 ^ k ∣ 256 ^ (k + 1) := pow_dvd_pow _ (Nat.le_succ k)
          rw [← Nat.mod_mod_of_dvd n hd, h, Nat.mod_mod_of_dvd m hd]
        rw [ihk n m h2]
        congr 1
        apply BitVec.eq_of_toNat_eq
        simpa using h1
    congr 1
    · have : (x.toNat * 256 ^ b.length + beNat b) / 256 ^ b.length = x.toNat := by
        rw [mul_comm, Nat.mul_add_div hpos, Nat.div_eq_of_lt hb, add_zero]
      rw [this]
      simp
    · rw [hmod b.length (x.toNat * 256 ^ b.length + beNat b) (beNat b) (by simp [Nat.add_mod]), ih]

@[simp] theorem beNat_escapeBytes : beNat escapeBytes = 0xFFFFFFFF := by decide

/-! ### The header decoder -/

theorem word_msb {n : Nat} (h : n < 2 ^ 32) :
    (BitVec.ofNat 32 n &&& 0x80000000#32 = 0#32) ↔ n < 0x80000000 := by
  have hp : (0x80000000#32) = BitVec.twoPow 32 31 := rfl
  have hz : BitVec.twoPow 32 31 ≠ 0#32 := by decide
  rw [hp, BitVec.and_twoPow]
  have hm : (BitVec.ofNat 32 n).getLsbD 31 = decide (0x80000000 ≤ n) := by
    have := BitVec.msb_eq_decide (BitVec.ofNat 32 n)
    rw [BitVec.msb_eq_getLsbD_last] at this
    simpa [Nat.mod_eq_of_lt (show n < 4294967296 from h)] using this
  rw [hm]
  by_cases hn : 0x80000000 ≤ n
  · simp [hn, hz]
  · simp [hn]
    omega

theorem word_escape {n : Nat} (h : n < 2 ^ 32) :
    (BitVec.ofNat 32 n &&& 0xFFFFFFFF#32 = 0xFFFFFFFF#32) ↔ n = 0xFFFFFFFF := by
  have : (0xFFFFFFFF#32) = BitVec.allOnes 32 := rfl
  rw [this, BitVec.and_allOnes]
  constructor
  · intro hh
    have := congrArg BitVec.toNat hh
    simpa [Nat.mod_eq_of_lt (show n < 4294967296 from h)] using this
  · rintro rfl; rfl

theorem word_low (n : Nat) : (BitVec.ofNat 32 n).extractLsb' 0 31 = BitVec.ofNat 31 n := by
  apply BitVec.eq_of_toNat_eq
  simp

/-- The decoder, in the numbers of R82. -/
theorem decodeHeader_eq (b : Bytes) :
    decodeHeader b =
      if b.length < 4 then .incomplete
      else if beNat (b.take 4) = 0xFFFFFFFF then
        if b.length < 12 then .incomplete
        else .fetched (.large (BitVec.ofNat 64 (beNat ((b.drop 4).take 8)))) 12
      else if beNat (b.take 4) < 0x80000000 then .fetched (.small (BitVec.ofNat 31 (beNat (b.take 4)))) 4
      else .fetched (.invalidHdr (BitVec.ofNat 31 (beNat (b.take 4)))) 4 := by
  unfold decodeHeader
  split
  · rfl
  · have hlt : beNat (b.take 4) < 2 ^ 32 := by
      have := beNat_lt (b.take 4)
      rw [List.length_take, min_eq_left (by omega)] at this
      simpa using this
    simp only [word_msb hlt, word_escape hlt, word_low]

theorem decodeHeader_be32 {n : Nat} (h : n < 2 ^ 32) (hne : n ≠ 0xFFFFFFFF) (t : Bytes) :
    decodeHeader (be32 n ++ t) =
      if n < 0x80000000 then .fetched (.small (BitVec.ofNat 31 n)) 4
      else .fetched (.invalidHdr (BitVec.ofNat 31 n)) 4 := by
  have h4 : (be32 n ++ t).take 4 = be32 n := by simp
  rw [decodeHeader_eq, h4, beNat_be32 h, if_neg (by simp), if_neg hne]

theorem decodeHeader_large (n : Nat) (h : n < 2 ^ 64) (t : Bytes) :
    decodeHeader (escapeBytes ++ be64 n ++ t) = .fetched (.large (BitVec.ofNat 64 n)) 12 := by
  have h4 : (escapeBytes ++ be64 n ++ t).take 4 = escapeBytes := by simp [List.take_append]
  have h8 : ((escapeBytes ++ be64 n ++ t).drop 4).take 8 = be64 n := by simp [List.take_append, List.drop_append]
  rw [decodeHeader_eq, h4, h8, beNat_be64 h, if_neg (by simp), if_pos (by simp), if_neg (by simp; omega)]

namespace Machine

/-- A header is 4 or 12 bytes long (R7's SMALL_HDR_LEN and LARGE_HDR_LEN). -/
theorem length_hdrEnc (n : Nat) : (hdrEnc n).length = if n ≤ Config.smallMax then 4 else 12 := by
  unfold hdrEnc
  split <;> simp

theorem hdrEnc_ne_nil (n : Nat) : hdrEnc n ≠ [] := by
  intro h
  have := length_hdrEnc n
  rw [h] at this
  split at this <;> simp at this

theorem frameEnc_ne_nil (p : Bytes) : frameEnc p ≠ [] := by
  simp [frameEnc, hdrEnc_ne_nil]

end Machine
end Sys2Proof
end

