-- ==== Sys2Proof/Laws/Header.lean ====
section
/-! SUPPORT. What the header decoder says of bytes that come in pieces, and the bytes of a header in the words
of the statements (R26, R60, R65). -/

namespace Sys2Proof.Machine

theorem beNat_take4_eq_escape {b : Bytes} (h : 4 ≤ b.length) :
    beNat (b.take 4) = 0xFFFFFFFF ↔ b.take 4 = escapeBytes := by
  constructor
  · intro hb
    have := beBytes_beNat (b.take 4)
    rw [List.length_take, min_eq_left h, hb] at this
    exact this.symm
  · intro hb
    rw [hb, beNat_escapeBytes]

/-- A prefix decides nothing exactly when it is one of R26's. -/
theorem decodeHeader_incomplete_iff (b : Bytes) : decodeHeader b = .incomplete ↔ isHeaderPrefix b = true := by
  rw [decodeHeader_eq]
  by_cases h4 : b.length < 4
  · simp [h4, isHeaderPrefix]
  · have he := beNat_take4_eq_escape (show 4 ≤ b.length by omega)
    by_cases hb : beNat (b.take 4) = 0xFFFFFFFF
    · have hb' := he.mp hb
      by_cases h12 : b.length < 12 <;> simp [h4, hb', h12, isHeaderPrefix]
    · have hb' : b.take 4 ≠ escapeBytes := fun h => hb (he.mpr h)
      simp only [h4, hb, isHeaderPrefix, if_false]
      split <;> simp [hb']

theorem length_isHeaderPrefix {b : Bytes} (h : isHeaderPrefix b = true) : b.length < 12 := by
  simp [isHeaderPrefix] at h
  omega

/-- A header takes 4 or 12 bytes, which are there; later bytes change nothing (R65, R66). -/
theorem decodeHeader_fetched {b : Bytes} {i : Instr} {k : Nat} (h : decodeHeader b = .fetched i k) :
    (k = 4 ∨ k = 12) ∧ k ≤ b.length ∧ ∀ c, b.take k <+: c → decodeHeader c = .fetched i k := by
  have pre : ∀ {m k : Nat} {c : Bytes}, m ≤ k → k ≤ b.length → b.take k <+: c → c.take m = b.take m := by
    rintro m k c hmk hk ⟨r, rfl⟩
    rw [List.take_append_of_le_length (by simp; omega), List.take_take, min_eq_left hmk]
  have len : ∀ {k : Nat} {c : Bytes}, k ≤ b.length → b.take k <+: c → k ≤ c.length := by
    rintro k c hk ⟨r, rfl⟩
    simp
    omega
  rw [decodeHeader_eq] at h
  split_ifs at h with h4 he h12 hs
  · simp only [HeaderFetch.fetched.injEq] at h
    obtain ⟨rfl, rfl⟩ := h
    refine ⟨.inr rfl, by omega, fun c hc => ?_⟩
    have hl := len (by omega) hc
    have e4 := pre (m := 4) (by omega) (by omega) hc
    have e12 := pre (m := 12) le_rfl (by omega) hc
    have e8 : (c.drop 4).take 8 = (b.drop 4).take 8 := by
      rw [← List.drop_take (i := 4) (j := 12), ← List.drop_take (i := 4) (j := 12), e12]
    rw [decodeHeader_eq, e4, e8, if_neg (by omega), if_pos he, if_neg (by omega)]
  · simp only [HeaderFetch.fetched.injEq] at h
    obtain ⟨rfl, rfl⟩ := h
    refine ⟨.inl rfl, by omega, fun c hc => ?_⟩
    have hl := len (by omega) hc
    have e4 := pre (m := 4) (by omega) (by omega) hc
    rw [decodeHeader_eq, e4, if_neg (by omega), if_neg he, if_pos hs]
  · simp only [HeaderFetch.fetched.injEq] at h
    obtain ⟨rfl, rfl⟩ := h
    refine ⟨.inl rfl, by omega, fun c hc => ?_⟩
    have hl := len (by omega) hc
    have e4 := pre (m := 4) (by omega) (by omega) hc
    rw [decodeHeader_eq, e4, if_neg (by omega), if_neg he, if_neg hs]

theorem decodeHeader_append {b : Bytes} {i : Instr} {k : Nat} (h : decodeHeader b = .fetched i k) (t : Bytes) :
    decodeHeader (b ++ t) = .fetched i k :=
  (decodeHeader_fetched h).2.2 _ ((List.take_prefix k b).trans (List.prefix_append b t))

/-! ### The three classes, by their bytes -/

/-- What the decoder fetches, as the bytes it took (R61, R62, R66). -/
theorem decodeHeader_classes {b : Bytes} {i : Instr} {k : Nat} (h : decodeHeader b = .fetched i k) :
    (∃ len, i = .small len ∧ isHeader (b.take k) len.toNat) ∨
    (∃ len64, i = .large len64 ∧ isHeader (b.take k) len64.toNat) ∨
    (∃ rest, i = .invalidHdr rest ∧ isIllegalWord (b.take k) ∧ k = 4) := by
  have hk := (decodeHeader_fetched h).2.1
  rw [decodeHeader_eq] at h
  split_ifs at h with h4 he h12 hs
  · simp only [HeaderFetch.fetched.injEq] at h
    obtain ⟨rfl, rfl⟩ := h
    refine .inr (.inl ⟨_, rfl, .inr ⟨BitVec.isLt _, ?_⟩⟩)
    have hb := beBytes_beNat ((b.drop 4).take 8)
    have hl8 : ((b.drop 4).take 8).length = 8 := by simp; omega
    have hlt := beNat_lt ((b.drop 4).take 8)
    rw [hl8] at hb hlt
    rw [BitVec.toNat_ofNat, Nat.mod_eq_of_lt (by simpa using hlt), be64, hb, ← List.take_append_drop 4 (b.take 12),
      List.take_take, List.drop_take, min_eq_left (by omega), (beNat_take4_eq_escape (by omega)).mp he]
    rfl
  · simp only [HeaderFetch.fetched.injEq] at h
    obtain ⟨rfl, rfl⟩ := h
    refine .inl ⟨_, rfl, .inl ⟨by have := (BitVec.ofNat 31 (beNat (b.take 4))).isLt; omega, ?_⟩⟩
    have hb := beBytes_beNat (b.take 4)
    rw [List.length_take, min_eq_left (by omega)] at hb
    rw [BitVec.toNat_ofNat, Nat.mod_eq_of_lt (by omega), be32, hb]
  · simp only [HeaderFetch.fetched.injEq] at h
    obtain ⟨rfl, rfl⟩ := h
    exact .inr (.inr ⟨_, rfl, ⟨by simp; omega, by omega, he⟩, rfl⟩)

/-- The bytes of a header are fetched as one (R61, R62). -/
theorem decodeHeader_isHeader {h : Bytes} {n : Nat} (hh : isHeader h n) (t : Bytes) :
    (∃ len, decodeHeader (h ++ t) = .fetched (.small len) h.length ∧ len.toNat = n) ∨
    (∃ len64, decodeHeader (h ++ t) = .fetched (.large len64) h.length ∧ len64.toNat = n) := by
  rcases hh with ⟨hn, rfl⟩ | ⟨hn, rfl⟩
  · refine .inl ⟨BitVec.ofNat 31 n, ?_, by simp; omega⟩
    rw [decodeHeader_be32 (by omega) (by omega), if_pos (by omega), length_be32]
  · refine .inr ⟨BitVec.ofNat 64 n, ?_, by simp; omega⟩
    have := decodeHeader_large n hn t
    rw [show [0xFF, 0xFF, 0xFF, 0xFF] ++ be64 n = escapeBytes ++ be64 n from rfl, this]
    simp

theorem length_isHeader {h : Bytes} {n : Nat} (hh : isHeader h n) : h.length = 4 ∨ h.length = 12 := by
  rcases hh with ⟨-, rfl⟩ | ⟨-, rfl⟩
  · exact .inl (by simp)
  · exact .inr (by simp)

theorem isHeader_hdrEnc {n : Nat} (h : n ≤ Config.lenMax) : isHeader (hdrEnc n) n := by
  unfold hdrEnc
  split
  · exact .inl ⟨‹_›, rfl⟩
  · exact .inr ⟨by simp only [Config.lenMax] at h; omega, rfl⟩

theorem isHeader_lt {h : Bytes} {n : Nat} (hh : isHeader h n) : n ≤ Config.lenMax := by
  simp only [Config.lenMax]
  rcases hh with ⟨hn, -⟩ | ⟨hn, -⟩ <;> omega

/-- An illegal word is fetched as one, whatever follows (R66). -/
theorem decodeHeader_isIllegalWord {w : Bytes} (hw : isIllegalWord w) (t : Bytes) :
    ∃ rest, decodeHeader (w ++ t) = .fetched (.invalidHdr rest) 4 := by
  obtain ⟨h4, h1, h2⟩ := hw
  have he : (w ++ t).take 4 = w := by rw [← h4, List.take_left]
  refine ⟨BitVec.ofNat 31 (beNat w), ?_⟩
  rw [decodeHeader_eq, he, if_neg (by simp; omega), if_neg h2, if_neg (by omega)]

/-- A proper prefix of a header, or a header with its last byte missing, decides nothing (R65). -/
theorem isHeaderPrefix_of_isHeader {h q r : Bytes} {n : Nat} (hh : isHeader h n) (he : h = q ++ r) (hr : r ≠ []) :
    isHeaderPrefix q = true := by
  have hpos := List.length_pos_iff.mpr hr
  rcases hh with ⟨-, rfl⟩ | ⟨-, rfl⟩
  · have := congrArg List.length he
    simp at this
    simp [isHeaderPrefix]
    omega
  · have hl := congrArg List.length he
    simp at hl
    by_cases h4 : q.length < 4
    · simp [isHeaderPrefix, h4]
    · have := congrArg (List.take 4) he
      rw [List.take_append_of_le_length (l₂ := r) (by omega)] at this
      have h5 : q.take 4 = escapeBytes := by
        rw [← this]
        rfl
      simp [isHeaderPrefix, h5]
      omega

end Sys2Proof.Machine
end

