-- ==== Sys2Proof/Laws/Assembler.lean ====
section
/-! SUPPORT. Reassembly (R122 to R125): what the loop does to each form of receive state, said once, and what it
makes of the bytes it is given. -/

namespace Sys2Proof.Machine

/-- The two forms of the receive state (R24, R26, R27): header bytes, or a context. -/
inductive Rx where
  | header (b : Bytes)
  | payload (c : RxContext)

/-- An endpoint with this receive state. -/
def Endpoint.withRx (e : Endpoint) : Rx → Endpoint
  | .header b => { e with rxPhase := .awaitingHeader, rxHdr := b, ctx := none }
  | .payload c => { e with rxPhase := .inProgress, rxHdr := [], ctx := some c }

/-- A state with this receive state. -/
def State.withRx (s : State) (r : Rx) : State := { s with ep := s.ep.withRx r }

/-- The loop's state, with the bytes in hand and the values completed. -/
def State.inLoop (s : State) (r : Rx) (inBytes : Bytes) (out : List Value) : State :=
  { s with ep := s.ep.withRx r, cont := .assembling inBytes out }

@[simp] theorem inLoop_params (s : State) (r : Rx) (b : Bytes) (o : List Value) : (s.inLoop r b o).params = s.params :=
  rfl
@[simp] theorem inLoop_cont (s : State) (r : Rx) (b : Bytes) (o : List Value) :
    (s.inLoop r b o).cont = .assembling b o := rfl
@[simp] theorem inLoop_ep (s : State) (r : Rx) (b : Bytes) (o : List Value) : (s.inLoop r b o).ep = s.ep.withRx r := rfl
@[simp] theorem withRx_ep (s : State) (r : Rx) : (s.withRx r).ep = s.ep.withRx r := rfl

/-- The receive state is discarded by a degradation, so it does not matter which one it was (R136). -/
theorem degrade_inLoop (s : State) (r : Rx) (b : Bytes) (o : List Value) (st : Status) (res : Result) :
    complete st res (degrade (s.inLoop r b o)) = complete st res (degrade s) := by
  have hw : (s.inLoop r b o).ep.writable = s.ep.writable := by cases r <;> rfl
  cases h : s.ep.writable
  · rw [degrade_of_not_writable (hw.trans h), degrade_of_not_writable h]
    cases r <;> rfl
  · rw [degrade_of_writable (hw.trans h), degrade_of_writable h]
    cases r <;> rfl

/-! ### One pass -/

theorem headerPass_inLoop (s : State) (b inBytes : Bytes) (out : List Value) :
    headerPass inBytes out (s.inLoop (.header b) inBytes out) =
      match decodeHeader (b ++ inBytes) with
      | .incomplete => .stop (.next (complete .ok (.values out) (s.withRx (.header (b ++ inBytes)))))
      | .fetched i k => passOn (runHeader i (s.inLoop (.header b) ((b ++ inBytes).drop k) out)) := rfl

/-- A header of `n` bytes met in the loop (R123). -/
theorem headerResolved_inLoop (n : Nat) (s : State) (r : Rx) (inBytes : Bytes) (out : List Value) :
    headerResolved n (s.inLoop r inBytes out) =
      if exceeds n s.params.rxCap then .refused .rxCapacity else .next (s.inLoop (.payload ⟨[], n⟩) inBytes out) := by
  cases r <;> rfl

/-- An illegal word met in the loop (R125). -/
theorem headerInvalid_inLoop (s : State) (r : Rx) (inBytes : Bytes) (out : List Value) :
    headerInvalid (s.inLoop r inBytes out) =
      .next (complete .badMessageLengthError (.values out) (degrade s)) :=
  congrArg _ (degrade_inLoop s r _ _ _ _)

theorem passOn_complete (st : Status) (r : Result) (s : State) :
    passOn (.next (complete st r s)) = .stop (.next (complete st r s)) := rfl

theorem passOn_inLoop (s : State) (r : Rx) (inBytes : Bytes) (out : List Value) :
    passOn (.next (s.inLoop r inBytes out)) = .again (s.inLoop r inBytes out) := rfl

theorem passOn_refused (r : Refusal) : passOn (.refused r) = .stop (.refused r) := rfl

theorem assembleLoop_header (f : Nat) (s : State) (b inBytes : Bytes) (out : List Value) :
    assembleLoop (f + 1) (s.inLoop (.header b) inBytes out) =
      match decodeHeader (b ++ inBytes) with
      | .incomplete => .next (complete .ok (.values out) (s.withRx (.header (b ++ inBytes))))
      | .fetched i k =>
        match i with
        | .small len =>
          if exceeds len.toNat s.params.rxCap then .refused .rxCapacity
          else assembleLoop f (s.inLoop (.payload ⟨[], len.toNat⟩) ((b ++ inBytes).drop k) out)
        | .large len64 =>
          if exceeds len64.toNat s.params.rxCap then .refused .rxCapacity
          else assembleLoop f (s.inLoop (.payload ⟨[], len64.toNat⟩) ((b ++ inBytes).drop k) out)
        | _ => .next (complete .badMessageLengthError (.values out) (degrade s)) := by
  have h : assembleLoop (f + 1) (s.inLoop (.header b) inBytes out) =
      match headerPass inBytes out (s.inLoop (.header b) inBytes out) with
      | .again s' => assembleLoop f s'
      | .stop o => o := rfl
  rw [h, headerPass_inLoop]
  cases hd : decodeHeader (b ++ inBytes) with
  | incomplete => rfl
  | fetched i k =>
    rcases decodeHeader_classes hd with ⟨len, rfl, -⟩ | ⟨len, rfl, -⟩ | ⟨rest, rfl, -, rfl⟩
    · simp only [runHeader, execSmall, headerResolved_inLoop]
      by_cases hx : exceeds len.toNat s.params.rxCap = true
      · simp only [if_pos hx, passOn_refused]
      · simp only [if_neg hx, passOn_inLoop]
    · simp only [runHeader, execLarge, headerResolved_inLoop]
      by_cases hx : exceeds len.toNat s.params.rxCap = true
      · simp only [if_pos hx, passOn_refused]
      · simp only [if_neg hx, passOn_inLoop]
    · simp only [runHeader, execInvalidHdr, headerInvalid_inLoop, passOn_complete]

theorem assembleLoop_payload (f : Nat) (s : State) (c : RxContext) (inBytes : Bytes) (out : List Value) :
    assembleLoop (f + 1) (s.inLoop (.payload c) inBytes out) =
      if c.remaining ≤ inBytes.length then
        assembleLoop f (s.inLoop (.header []) (inBytes.drop c.remaining)
          (out ++ [serDecode s.params.serializer (c.payload ++ inBytes.take c.remaining)]))
      else
        .next (complete .ok (.values out)
          (s.withRx (.payload ⟨c.payload ++ inBytes, c.remaining - inBytes.length⟩))) := by
  have h : assembleLoop (f + 1) (s.inLoop (.payload c) inBytes out) =
      match fillPass inBytes out (s.inLoop (.payload c) inBytes out) with
      | .again s' => assembleLoop f s'
      | .stop o => o := rfl
  rw [h]
  simp only [fillPass, inLoop_ep, Endpoint.withRx]
  by_cases h : c.remaining ≤ inBytes.length
  · simp only [min_eq_left h, if_true, if_pos h, inLoop_params]
    rfl
  · rw [if_neg h, min_eq_right (by omega)]
    simp only [if_neg (show ¬ c.remaining = inBytes.length by omega), List.take_length]
    rfl

/-! ### The loop -/

/-- The passes the loop can need. -/
def Rx.need (inBytes : Bytes) : Rx → Nat
  | .header b => b.length + inBytes.length + 1
  | .payload _ => inBytes.length + 2

/-- The bytes of the wire that the receive state stands for (R28), a context filled to the last byte included. -/
def Rx.tail (T : Bytes) : Rx → Prop
  | .header b => T = b
  | .payload c => ∃ h, isHeader h (c.payload.length + c.remaining) ∧ T = h ++ c.payload

/-- The receive state as it is between commands (R26, R27). -/
def Rx.rests (rxCap : Option Nat) : Rx → Prop
  | .header b => isHeaderPrefix b = true
  | .payload c => 1 ≤ c.remaining ∧ exceeds (c.payload.length + c.remaining) rxCap = false

theorem Rx.isTail {r : Rx} {T : Bytes} {cap : Option Nat} (e : Endpoint) (hT : r.tail T) (hr : r.rests cap) :
    isTail (e.withRx r) T := by
  cases r with
  | header b => exact .inl ⟨rfl, rfl, hT⟩
  | payload c =>
    obtain ⟨h, h1, h2⟩ := hT
    exact .inr ⟨rfl, rfl, c, h, rfl, hr.1, h1, h2⟩

/-- An endpoint whose receive state is legal is one of the two forms. -/
theorem Endpoint.rx_of_receiveOk {e : Endpoint} {cap : Option Nat} (h : e.receiveOk cap = true) :
    ∃ r : Rx, e = e.withRx r ∧ r.rests cap ∧ ∀ c, r = .payload c → c.payload.length + c.remaining ≤ Config.lenMax := by
  obtain ⟨_, _, _, _, _, _, _, ph, hdr, ctx, _⟩ := e
  cases ph <;> cases ctx <;> simp [Endpoint.receiveOk] at h
  · exact ⟨.header hdr, rfl, h, fun c hc => by cases hc⟩
  · rename_i c
    obtain ⟨⟨⟨rfl, h2⟩, h3⟩, h4⟩ := h
    exact ⟨.payload c, rfl, ⟨h2, h4⟩, fun c' hc => by cases hc; exact h3⟩

theorem Endpoint.receiveOk_withRx (e : Endpoint) {r : Rx} {T : Bytes} {cap : Option Nat} (hT : r.tail T)
    (hr : r.rests cap) : (e.withRx r).receiveOk cap = true := by
  cases r with
  | header b => simpa [Endpoint.receiveOk, Endpoint.withRx, Rx.rests] using hr
  | payload c =>
    obtain ⟨h, h1, -⟩ := hT
    simpa [Endpoint.receiveOk, Endpoint.withRx, Rx.rests, hr.2] using ⟨hr.1, isHeader_lt h1⟩

/-- What the loop makes of the bytes it is given (R28, R122 to R125): the frames completed are emitted in order;
it ends with a legal receive state, at an illegal word, or at a capacity. -/
theorem assembleLoop_spec {f : Nat} {s : State} {r : Rx} {inBytes T : Bytes} {out : List Value}
    (hf : r.need inBytes ≤ f) (hT : r.tail T)
    (hcap : ∀ c, r = .payload c → exceeds (c.payload.length + c.remaining) s.params.rxCap = false) :
    (∃ fs r' T', areFrames fs ∧ r'.tail T' ∧ r'.rests s.params.rxCap ∧ T ++ inBytes = wireOf fs ++ T' ∧
      assembleLoop f (s.inLoop r inBytes out) =
        .next (complete .ok (.values (out ++ fs.map fun x => serDecode s.params.serializer x.2)) (s.withRx r'))) ∨
    (∃ fs w junk, areFrames fs ∧ isIllegalWord w ∧ T ++ inBytes = wireOf fs ++ w ++ junk ∧
      assembleLoop f (s.inLoop r inBytes out) =
        .next (complete .badMessageLengthError (.values (out ++ fs.map fun x => serDecode s.params.serializer x.2))
          (degrade s))) ∨
    (s.params.rxCap ≠ none ∧ assembleLoop f (s.inLoop r inBytes out) = .refused .rxCapacity) := by
  induction f generalizing r inBytes T out with
  | zero => cases r <;> simp [Rx.need] at hf
  | succ f ih =>
    cases r with
    | header b =>
      obtain rfl : T = b := hT
      rw [assembleLoop_header]
      cases hd : decodeHeader (T ++ inBytes) with
      | incomplete =>
        refine .inl ⟨[], .header (T ++ inBytes), T ++ inBytes, by simp [areFrames], rfl,
          (decodeHeader_incomplete_iff _).mp hd, by simp [wireOf], by simp⟩
      | fetched i k =>
        obtain ⟨hk, hkl, -⟩ := decodeHeader_fetched hd
        have again : ∀ n : Nat, isHeader ((T ++ inBytes).take k) n → exceeds n s.params.rxCap = false →
            _ := fun n hn hx =>
          ih (r := .payload ⟨[], n⟩) (inBytes := (T ++ inBytes).drop k) (T := (T ++ inBytes).take k) (out := out)
            (by simp [Rx.need] at hf ⊢; rw [List.length_append] at hkl; omega)
            ⟨(T ++ inBytes).take k, by simpa using hn, by simp⟩
            (by rintro c ⟨rfl⟩; simpa using hx)
        simp only [List.take_append_drop] at again
        rcases decodeHeader_classes hd with ⟨len, rfl, hh⟩ | ⟨len, rfl, hh⟩ | ⟨rest, rfl, hw, rfl⟩
        · cases hx : exceeds len.toNat s.params.rxCap
          · simpa [hx] using again _ hh hx
          · exact .inr (.inr ⟨by rintro hc; simp [hc, exceeds] at hx, by simp [hx]⟩)
        · cases hx : exceeds len.toNat s.params.rxCap
          · simpa [hx] using again _ hh hx
          · exact .inr (.inr ⟨by rintro hc; simp [hc, exceeds] at hx, by simp [hx]⟩)
        · refine .inr (.inl ⟨[], _, (T ++ inBytes).drop 4, by simp [areFrames], hw, ?_, by simp⟩)
          simp [wireOf]
    | payload c =>
      obtain ⟨h, hh, rfl⟩ := hT
      rw [assembleLoop_payload]
      by_cases hc : c.remaining ≤ inBytes.length
      · rw [if_pos hc]
        have hframe : isHeader h (c.payload ++ inBytes.take c.remaining).length := by
          rw [List.length_append, List.length_take, min_eq_left hc]
          exact hh
        have hsplit : h ++ c.payload ++ inBytes =
            (h ++ (c.payload ++ inBytes.take c.remaining)) ++ inBytes.drop c.remaining := by
          simp
        have hwire : ∀ fs : List (Bytes × Bytes), wireOf ((h, c.payload ++ inBytes.take c.remaining) :: fs) =
            (h ++ (c.payload ++ inBytes.take c.remaining)) ++ wireOf fs := by
          intro fs; simp [wireOf]
        rcases ih (r := .header []) (inBytes := inBytes.drop c.remaining) (T := [])
            (out := out ++ [serDecode s.params.serializer (c.payload ++ inBytes.take c.remaining)])
            (by simp [Rx.need] at hf ⊢; omega) rfl (by rintro c' ⟨⟩) with
          ⟨fs, r', T', h1, h2, h3, h4, h5⟩ | ⟨fs, w, junk, h1, h2, h3, h4⟩ | h1
        · refine .inl ⟨(h, c.payload ++ inBytes.take c.remaining) :: fs, r', T', ?_, h2, h3, ?_, ?_⟩
          · intro x hx
            rcases List.mem_cons.mp hx with rfl | hx
            exacts [hframe, h1 x hx]
          · have h4' : inBytes.drop c.remaining = wireOf fs ++ T' := by simpa using h4
            rw [hsplit, hwire, h4']
            simp
          · simpa using h5
        · refine .inr (.inl ⟨(h, c.payload ++ inBytes.take c.remaining) :: fs, w, junk, ?_, h2, ?_, ?_⟩)
          · intro x hx
            rcases List.mem_cons.mp hx with rfl | hx
            exacts [hframe, h1 x hx]
          · have h3' : inBytes.drop c.remaining = wireOf fs ++ w ++ junk := by simpa using h3
            rw [hsplit, hwire, h3']
            simp
          · simpa using h4
        · exact .inr (.inr h1)
      · rw [if_neg hc]
        have hsum : c.payload.length + inBytes.length + (c.remaining - inBytes.length) =
            c.payload.length + c.remaining := by omega
        refine .inl ⟨[], .payload ⟨c.payload ++ inBytes, c.remaining - inBytes.length⟩, h ++ c.payload ++ inBytes,
          by simp [areFrames], ⟨h, ?_, by simp⟩, ⟨by simp; omega, ?_⟩, by simp [wireOf], by simp⟩
        · rw [List.length_append, hsum]
          exact hh
        · simp only [List.length_append, hsum]
          exact hcap c rfl

/-- More fuel than the loop needs changes nothing. -/
theorem assembleLoop_fuel {f g : Nat} {s : State} {r : Rx} {inBytes : Bytes} {out : List Value}
    (hf : r.need inBytes ≤ f) (hg : r.need inBytes ≤ g) :
    assembleLoop f (s.inLoop r inBytes out) = assembleLoop g (s.inLoop r inBytes out) := by
  induction f generalizing g r inBytes out with
  | zero => cases r <;> simp [Rx.need] at hf
  | succ f ih =>
    cases g with
    | zero => cases r <;> simp [Rx.need] at hg
    | succ g =>
      cases r with
      | header b =>
        rw [assembleLoop_header, assembleLoop_header]
        cases hd : decodeHeader (b ++ inBytes) with
        | incomplete => rfl
        | fetched i k =>
          obtain ⟨hk, hkl, -⟩ := decodeHeader_fetched hd
          have again : ∀ n : Nat, assembleLoop f (s.inLoop (.payload ⟨[], n⟩) ((b ++ inBytes).drop k) out) =
              assembleLoop g (s.inLoop (.payload ⟨[], n⟩) ((b ++ inBytes).drop k) out) := fun n =>
            ih (by simp [Rx.need] at hf ⊢; rw [List.length_append] at hkl; omega)
              (by simp [Rx.need] at hg ⊢; rw [List.length_append] at hkl; omega)
          cases i <;> simp only [again]
      | payload c =>
        rw [assembleLoop_payload, assembleLoop_payload]
        split
        · exact ih (by simp [Rx.need] at hf ⊢; omega) (by simp [Rx.need] at hg ⊢; omega)
        · rfl

/-- Complete frames in hand are emitted one by one (R122, R124). -/
theorem assembleLoop_frames {f : Nat} {s : State} {ps : List Bytes} {rest : Bytes} {out : List Value}
    (hp : ∀ p ∈ ps, p.length ≤ Config.lenMax ∧ exceeds p.length s.params.rxCap = false)
    (hf : (ps.map frameEnc).flatten.length + rest.length + 1 ≤ f) :
    assembleLoop f (s.inLoop (.header []) ((ps.map frameEnc).flatten ++ rest) out) =
      assembleLoop (rest.length + 1)
        (s.inLoop (.header []) rest (out ++ ps.map (serDecode s.params.serializer))) := by
  induction ps generalizing f out with
  | nil => simpa using assembleLoop_fuel (by simpa [Rx.need] using hf) (by simp [Rx.need])
  | cons p ps ih =>
    obtain ⟨hl, hx⟩ := hp p (by simp)
    have hh := isHeader_hdrEnc hl
    have hk := length_isHeader hh
    obtain ⟨f, rfl⟩ : ∃ g, f = g + 2 := ⟨f - 2, by simp [frameEnc] at hf; omega⟩
    have hwire : (((p :: ps).map frameEnc).flatten ++ rest) =
        hdrEnc p.length ++ (p ++ ((ps.map frameEnc).flatten ++ rest)) := by simp [frameEnc]
    have hnext : assembleLoop (f + 1)
        (s.inLoop (.payload ⟨[], p.length⟩) (p ++ ((ps.map frameEnc).flatten ++ rest)) out) =
        assembleLoop (rest.length + 1)
          (s.inLoop (.header []) rest (out ++ (p :: ps).map (serDecode s.params.serializer))) := by
      rw [assembleLoop_payload, if_pos (by simp)]
      simp only [List.drop_left, List.take_left, List.nil_append]
      rw [ih (fun q hq => hp q (by simp [hq])) (by simp [frameEnc] at hf ⊢; omega)]
      simp
    rw [hwire, assembleLoop_header]
    rcases decodeHeader_isHeader hh (p ++ ((ps.map frameEnc).flatten ++ rest)) with ⟨len, hd, he⟩ | ⟨len, hd, he⟩
    · simp only [List.nil_append, hd, he, hx, List.drop_left]
      simpa using hnext
    · simp only [List.nil_append, hd, he, hx, List.drop_left]
      simpa using hnext

/-- `Assemble(new)` runs the loop with fuel enough (R122). -/
theorem assemble_eq {s : State} {r : Rx} (h : s.ep = s.ep.withRx r) (new : Bytes) :
    ∃ f, r.need new ≤ f ∧ assemble new s = assembleLoop f (s.inLoop r new []) := by
  have hs : { s with cont := Cont.assembling new [] } = s.inLoop r new [] := by
    rw [State.inLoop, ← h]
  refine ⟨assembleFuel (s.inLoop r new []), ?_, by rw [assemble, assembleHeld, hs]⟩
  cases r <;> simp [Rx.need, assembleFuel, Endpoint.withRx]

/-- Bytes that come in two parts are assembled as if they had come at once, whatever was completed before and
whatever else the state holds (R126). -/
theorem assembleLoop_split {f : Nat} {s t : State} {r : Rx} {a : Bytes} {out vs : List Value}
    (hf : r.need a ≤ f) (h : assembleLoop f (s.inLoop r a out) = .next t) (hr : t.resp = some ⟨.ok, .values vs⟩) :
    ∃ r' done, vs = out ++ done ∧ t = complete .ok (.values vs) (s.withRx r') ∧
      (∀ (s' : State) (out' : List Value) (k : Nat),
        assembleLoop (k + 1) (s'.inLoop r' [] out') = .next (complete .ok (.values out') (s'.withRx r'))) ∧
      ∀ (s' : State) (out' : List Value) (b : Bytes) (g k : Nat), s'.params = s.params →
        r.need (a ++ b) ≤ g → r'.need b ≤ k →
        assembleLoop g (s'.inLoop r (a ++ b) out') = assembleLoop k (s'.inLoop r' b (out' ++ done)) := by
  induction f generalizing r a out with
  | zero => cases r <;> simp [Rx.need] at hf
  | succ f ih =>
    cases r with
    | header c =>
      rw [assembleLoop_header] at h
      cases hd : decodeHeader (c ++ a) with
      | incomplete =>
        simp only [hd, Host.Outcome.next.injEq] at h
        subst h
        simp only [complete_resp, Option.some.injEq, Response.mk.injEq, Result.values.injEq, true_and] at hr
        subst hr
        refine ⟨.header (c ++ a), [], by simp, rfl, fun s' out' k => ?_, fun s' out' b g k _ hg hk => ?_⟩
        · rw [assembleLoop_header, List.append_nil, hd]
        obtain ⟨g, rfl⟩ : ∃ j, g = j + 1 := ⟨g - 1, by simp [Rx.need] at hg; omega⟩
        obtain ⟨k, rfl⟩ : ∃ j, k = j + 1 := ⟨k - 1, by simp [Rx.need] at hk; omega⟩
        rw [assembleLoop_header, assembleLoop_header, ← List.append_assoc, List.append_nil]
        cases hd2 : decodeHeader (c ++ a ++ b) with
        | incomplete => rfl
        | fetched i m =>
          obtain ⟨hm, hml, -⟩ := decodeHeader_fetched hd2
          have again : ∀ n : Nat, assembleLoop g (s'.inLoop (.payload ⟨[], n⟩) ((c ++ a ++ b).drop m) out') =
              assembleLoop k (s'.inLoop (.payload ⟨[], n⟩) ((c ++ a ++ b).drop m) out') := fun n =>
            assembleLoop_fuel (by simp [Rx.need] at hg hml ⊢; omega) (by simp [Rx.need] at hk hml ⊢; omega)
          cases i <;> simp only [again]
      | fetched i m =>
        obtain ⟨hm, hml, -⟩ := decodeHeader_fetched hd
        rw [hd] at h
        have again : ∀ n : Nat, exceeds n s.params.rxCap ≠ true →
            assembleLoop f (s.inLoop (.payload ⟨[], n⟩) ((c ++ a).drop m) out) = .next t → _ := fun n hx h =>
          ih (r := .payload ⟨[], n⟩) (by simp [Rx.need] at hf hml ⊢; omega) h
        rcases decodeHeader_classes hd with ⟨len, rfl, -⟩ | ⟨len, rfl, -⟩ | ⟨rest, rfl, -, rfl⟩
        · by_cases hx : exceeds len.toNat s.params.rxCap = true
          · simp [hx] at h
          · obtain ⟨r', done, h1, h2, hs, h3⟩ := again _ hx (by simpa only [if_neg hx] using h)
            refine ⟨r', done, h1, h2, hs, fun s' out' b g k hp hg hk => ?_⟩
            obtain ⟨g, rfl⟩ : ∃ j, g = j + 1 := ⟨g - 1, by simp [Rx.need] at hg; omega⟩
            rw [assembleLoop_header, ← List.append_assoc, decodeHeader_append hd b]
            simp only [hp, if_neg hx, List.drop_append_of_le_length hml]
            exact h3 s' out' b g k hp (by simp [Rx.need] at hg hml ⊢; omega) hk
        · by_cases hx : exceeds len.toNat s.params.rxCap = true
          · simp [hx] at h
          · obtain ⟨r', done, h1, h2, hs, h3⟩ := again _ hx (by simpa only [if_neg hx] using h)
            refine ⟨r', done, h1, h2, hs, fun s' out' b g k hp hg hk => ?_⟩
            obtain ⟨g, rfl⟩ : ∃ j, g = j + 1 := ⟨g - 1, by simp [Rx.need] at hg; omega⟩
            rw [assembleLoop_header, ← List.append_assoc, decodeHeader_append hd b]
            simp only [hp, if_neg hx, List.drop_append_of_le_length hml]
            exact h3 s' out' b g k hp (by simp [Rx.need] at hg hml ⊢; omega) hk
        · simp only [Host.Outcome.next.injEq] at h
          subst h
          simp at hr
    | payload c =>
      rw [assembleLoop_payload] at h
      by_cases hc : c.remaining ≤ a.length
      · rw [if_pos hc] at h
        obtain ⟨r', done, h1, h2, hs, h3⟩ := ih (r := .header []) (by simp [Rx.need] at hf ⊢; omega) h
        refine ⟨r', _ :: done, by simpa using h1, h2, hs, fun s' out' b g k hp hg hk => ?_⟩
        obtain ⟨g, rfl⟩ : ∃ j, g = j + 1 := ⟨g - 1, by simp [Rx.need] at hg; omega⟩
        rw [assembleLoop_payload, if_pos (by simp; omega), List.take_append_of_le_length hc,
          List.drop_append_of_le_length hc, hp, h3 s' _ b g k hp (by simp [Rx.need] at hg ⊢; omega) hk]
        simp
      · rw [if_neg hc] at h
        simp only [Host.Outcome.next.injEq] at h
        subst h
        simp only [complete_resp, Option.some.injEq, Response.mk.injEq, Result.values.injEq, true_and] at hr
        subst hr
        refine ⟨_, [], by simp, rfl, fun s' out' k => ?_, fun s' out' b g k hp hg hk => ?_⟩
        · rw [assembleLoop_payload, if_neg (by simp; omega)]
          simp
        obtain ⟨g, rfl⟩ : ∃ j, g = j + 1 := ⟨g - 1, by simp [Rx.need] at hg; omega⟩
        obtain ⟨k, rfl⟩ : ∃ j, k = j + 1 := ⟨k - 1, by simp [Rx.need] at hk; omega⟩
        rw [assembleLoop_payload, assembleLoop_payload, List.append_nil]
        have e1 : (a ++ b).take c.remaining = a ++ b.take (c.remaining - a.length) := by
          rw [List.take_append, List.take_of_length_le (by omega)]
        have e2 : (a ++ b).drop c.remaining = b.drop (c.remaining - a.length) := by
          rw [List.drop_append, List.drop_eq_nil_of_le (by omega), List.nil_append]
        by_cases h2 : c.remaining ≤ (a ++ b).length
        · have h3 : c.remaining - a.length ≤ b.length := by simp at h2; omega
          rw [if_pos h2, if_pos h3, e1, e2, List.append_assoc]
          exact assembleLoop_fuel (by simp [Rx.need] at hg ⊢; omega) (by simp [Rx.need] at hk ⊢; omega)
        · have h3 : ¬ c.remaining - a.length ≤ b.length := by simp at h2; omega
          rw [if_neg h2, if_neg h3]
          simp only [List.append_assoc, List.length_append, Nat.sub_sub]

/-! ### From any state at all -/

/-- The passes the loop can need, whatever the endpoint holds. -/
def loopNeed (s : State) : Nat :=
  match s.cont with
  | .assembling inBytes _ => s.ep.rxHdr.length + inBytes.length + (if s.ep.rxPhase = .inProgress then 2 else 1)
  | _ => 0

/-- `t` is `s` further on in the loop, or after it: nothing but the receive state and the continuation differs. -/
def LoopMoved (s t : State) : Prop :=
  ∃ ph hdr ctx c, t = { s with ep := { s.ep with rxPhase := ph, rxHdr := hdr, ctx := ctx }, cont := c }

theorem LoopMoved.trans {s t u : State} (h₁ : LoopMoved s t) (h₂ : LoopMoved t u) : LoopMoved s u := by
  obtain ⟨ph, hdr, ctx, c, rfl⟩ := h₁
  obtain ⟨ph', hdr', ctx', c', rfl⟩ := h₂
  exact ⟨ph', hdr', ctx', c', rfl⟩

/-- The receive state is discarded by a degradation (R136). -/
theorem LoopMoved.degrade {s t : State} (h : LoopMoved s t) (st : Status) (r : Result) :
    complete st r (Machine.degrade t) = complete st r (Machine.degrade s) := by
  obtain ⟨ph, hdr, ctx, c, rfl⟩ := h
  cases hw : s.ep.writable
  · exact (congrArg (complete st r) (degrade_of_not_writable (by exact hw))).trans
      (congrArg (complete st r) (degrade_of_not_writable hw)).symm
  · exact (congrArg (complete st r) (degrade_of_writable (by exact hw))).trans
      (congrArg (complete st r) (degrade_of_writable hw)).symm

/-- What one pass can do. -/
theorem assemblePass_cases {s : State} {inBytes : Bytes} {out : List Value} (hc : s.cont = .assembling inBytes out) :
    (∃ t inBytes' out', assemblePass inBytes out s = .again t ∧ LoopMoved s t ∧ t.cont = .assembling inBytes' out' ∧
      loopNeed t < loopNeed s) ∨
    (∃ t, assemblePass inBytes out s = .stop (.next (complete .ok (.values out) t)) ∧ LoopMoved s t) ∨
    (assemblePass inBytes out s = .stop (.next (complete .badMessageLengthError (.values out) (degrade s)))) ∨
    (∃ r, assemblePass inBytes out s = .stop (.refused r)) := by
  cases hp : s.ep.rxPhase with
  | awaitingHeader =>
    have e : assemblePass inBytes out s = headerPass inBytes out s := by simp only [assemblePass, hp]
    rw [e]
    unfold headerPass
    simp only
    cases hd : decodeHeader (s.ep.rxHdr ++ inBytes) with
    | incomplete =>
      exact .inr (.inl ⟨_, rfl, s.ep.rxPhase, s.ep.rxHdr ++ inBytes, s.ep.ctx, s.cont, rfl⟩)
    | fetched i k =>
      obtain ⟨hk, hkl, -⟩ := decodeHeader_fetched hd
      have go : ∀ n : Nat,
          (∃ t inBytes' out', passOn (headerResolved n
              { s with cont := .assembling ((s.ep.rxHdr ++ inBytes).drop k) out }) = .again t ∧
            LoopMoved s t ∧ t.cont = .assembling inBytes' out' ∧ loopNeed t < loopNeed s) ∨
          passOn (headerResolved n { s with cont := .assembling ((s.ep.rxHdr ++ inBytes).drop k) out }) =
            .stop (.refused .rxCapacity) := by
        intro n
        simp only [headerResolved]
        by_cases hx : exceeds n s.params.rxCap = true
        · exact .inr (by rw [if_pos hx]; rfl)
        · rw [if_neg hx]
          refine .inl ⟨_, (s.ep.rxHdr ++ inBytes).drop k, out, rfl,
            ⟨.inProgress, [], some ⟨[], n⟩, .assembling ((s.ep.rxHdr ++ inBytes).drop k) out, rfl⟩, rfl, ?_⟩
          rw [List.length_append] at hkl
          simp [loopNeed, hc, hp]
          omega
      rcases decodeHeader_classes hd with ⟨len, rfl, -⟩ | ⟨len, rfl, -⟩ | ⟨rest, rfl, -, rfl⟩
      · rcases go len.toNat with h | h
        · exact .inl h
        · exact .inr (.inr (.inr ⟨_, h⟩))
      · rcases go len.toNat with h | h
        · exact .inl h
        · exact .inr (.inr (.inr ⟨_, h⟩))
      · refine .inr (.inr (.inl ?_))
        simp only [runHeader, execInvalidHdr, headerInvalid, degradeAndRaise, finish]
        rw [passOn_complete, LoopMoved.degrade (s := s)]
        exact ⟨s.ep.rxPhase, s.ep.rxHdr, s.ep.ctx, _, rfl⟩
  | inProgress =>
    have e : assemblePass inBytes out s = fillPass inBytes out s := by simp only [assemblePass, hp]
    rw [e]
    unfold fillPass
    cases hx : s.ep.ctx with
    | none => exact .inr (.inr (.inr ⟨_, rfl⟩))
    | some c =>
      simp only
      split
      · refine .inl ⟨_, _, _, rfl, ⟨.awaitingHeader, s.ep.rxHdr, none, _, rfl⟩, rfl, ?_⟩
        simp [loopNeed, hc, hp]
      · exact .inr (.inl ⟨_, rfl, s.ep.rxPhase, s.ep.rxHdr, _, s.cont, rfl⟩)

/-- What a reassembly can come to, from any state: OK, with nothing but the receive state changed, or
BadMessageLengthError on a degraded endpoint, or a refusal; it is never left executing. -/
theorem assembleHeld_cases {s : State} {inBytes : Bytes} {out : List Value} (hc : s.cont = .assembling inBytes out) :
    (∃ t vs, assembleHeld s = .next (complete .ok (.values vs) t) ∧ LoopMoved s t) ∨
    (∃ vs, assembleHeld s = .next (complete .badMessageLengthError (.values vs) (degrade s))) ∨
    (∃ r, assembleHeld s = .refused r) := by
  have main : ∀ (f : Nat) (s : State) (inBytes : Bytes) (out : List Value), s.cont = .assembling inBytes out →
      loopNeed s ≤ f →
      (∃ t vs, assembleLoop f s = .next (complete .ok (.values vs) t) ∧ LoopMoved s t) ∨
      (∃ vs, assembleLoop f s = .next (complete .badMessageLengthError (.values vs) (degrade s))) ∨
      (∃ r, assembleLoop f s = .refused r) := by
    intro f
    induction f with
    | zero =>
      intro s inBytes out hc hf
      simp only [loopNeed, hc] at hf
      split at hf <;> omega
    | succ f ih =>
      intro s inBytes out hc hf
      have h : assembleLoop (f + 1) s = match assemblePass inBytes out s with
          | .again s' => assembleLoop f s'
          | .stop o => o := by rw [assembleLoop, hc] <;> rfl
      rw [h]
      rcases assemblePass_cases hc with ⟨t, inB, out', e, hm, ht, hn⟩ | ⟨t, e, hm⟩ | e | ⟨r, e⟩ <;> rw [e] <;>
        simp only
      · rcases ih t inB out' ht (by omega) with ⟨u, vs, h1, h2⟩ | ⟨vs, h1⟩ | ⟨r, h1⟩
        · exact .inl ⟨u, vs, h1, hm.trans h2⟩
        · exact .inr (.inl ⟨vs, by rw [h1, hm.degrade]⟩)
        · exact .inr (.inr ⟨r, h1⟩)
      · exact .inl ⟨t, out, rfl, hm⟩
      · exact .inr (.inl ⟨out, rfl⟩)
      · exact .inr (.inr ⟨r, rfl⟩)
  refine main _ s inBytes out hc ?_
  simp only [loopNeed, assembleFuel, hc]
  split <;> omega

end Sys2Proof.Machine
end

