-- ==== Sys2Proof/Laws/Memory.lean ====
section
/-! SUPPORT. The laws of the host destination buffer (R48): read after write, and that every operation keeps the
canonical form. -/

namespace Sys2Proof.Machine

theorem Memory.read_of_wfFrom {m : Memory} {lo a : Nat} (h : Memory.wfFrom lo m = true) (ha : a < lo) :
    Memory.read m a = Memory.blank := by
  induction m generalizing lo with
  | nil => rfl
  | cons c rest ih =>
    obtain ⟨k, v⟩ := c
    simp only [Memory.wfFrom, Bool.and_eq_true, decide_eq_true_eq] at h
    have hk : k ≠ a := by omega
    simp [Memory.read, hk, ih h.2 (by omega)]

theorem Memory.wfFrom_mono {m : Memory} {lo lo' : Nat} (h : Memory.wfFrom lo m = true) (hl : lo' ≤ lo) :
    Memory.wfFrom lo' m = true := by
  cases m with
  | nil => rfl
  | cons c rest =>
    obtain ⟨k, v⟩ := c
    simp only [Memory.wfFrom, Bool.and_eq_true, decide_eq_true_eq] at h ⊢
    exact ⟨⟨by omega, h.1.2⟩, h.2⟩

/-- A byte written reads back; every other byte reads as before. -/
theorem Memory.read_write {m : Memory} {lo : Nat} (h : Memory.wfFrom lo m = true) (a : Nat) (b : Byte) (x : Nat) :
    Memory.read (Memory.write m a b) x = if x = a then b else Memory.read m x := by
  induction m generalizing lo with
  | nil =>
    by_cases hb : b = Memory.blank <;> by_cases hx : x = a <;>
      simp [Memory.write, Memory.read, hb, hx, Ne.symm (a := x) (b := a)]
  | cons c rest ih =>
    obtain ⟨k, v⟩ := c
    simp only [Memory.wfFrom, Bool.and_eq_true, decide_eq_true_eq] at h
    have hrest : ∀ y, y < k + 1 → Memory.read rest y = Memory.blank := fun y hy => Memory.read_of_wfFrom h.2 hy
    rcases lt_trichotomy a k with hak | rfl | hak
    · by_cases hb : b = Memory.blank <;> by_cases hx : x = a
      · have : k ≠ x := by omega
        simp [Memory.write, Memory.read, hak, hb, hx, hrest a (by omega), hx ▸ this]
      · simp [Memory.write, hak, hb, hx]
      · simp [Memory.write, Memory.read, hak, hb, hx]
      · simp [Memory.write, Memory.read, hak, hb, hx, Ne.symm hx]
    · by_cases hb : b = Memory.blank <;> by_cases hx : x = a
      · simp [Memory.write, hb, hx, hrest a (by omega)]
      · simp [Memory.write, Memory.read, hb, hx, Ne.symm hx]
      · simp [Memory.write, Memory.read, hb, hx]
      · simp [Memory.write, Memory.read, hb, hx, Ne.symm hx]
    · have h1 : ¬ a < k := by omega
      have h2 : a ≠ k := by omega
      by_cases hk : k = x
      · subst hk
        simp [Memory.write, Memory.read, h1, h2, Ne.symm h2]
      · simp [Memory.write, Memory.read, h1, h2, hk, ih h.2]

theorem Memory.wfFrom_write {m : Memory} {lo : Nat} (h : Memory.wfFrom lo m = true) {a : Nat} (ha : lo ≤ a)
    (b : Byte) : Memory.wfFrom lo (Memory.write m a b) = true := by
  induction m generalizing lo with
  | nil => by_cases hb : b = Memory.blank <;> simp [Memory.write, Memory.wfFrom, hb, ha]
  | cons c rest ih =>
    obtain ⟨k, v⟩ := c
    simp only [Memory.wfFrom, Bool.and_eq_true, decide_eq_true_eq] at h
    unfold Memory.write
    split_ifs with h1 hb h2 hb
    · simp [Memory.wfFrom, h.2, h.1.2, h.1.1]
    · have hv : v ≠ Memory.blank := by simpa using h.1.2
      simp [Memory.wfFrom, h.2, hv, ha, hb]
      omega
    · exact Memory.wfFrom_mono h.2 (by omega)
    · simp [Memory.wfFrom, ha, hb, h2 ▸ h.2]
    · have hv : v ≠ Memory.blank := by simpa using h.1.2
      simp [Memory.wfFrom, h.1.1, hv, ih h.2 (by omega)]

/-- A write keeps the canonical form. -/
theorem Memory.wf_write {m : Memory} (h : m.wf = true) (a : Nat) (b : Byte) : (Memory.write m a b).wf = true :=
  Memory.wfFrom_write h (Nat.zero_le a) b

/-- So does a write of many bytes. -/
theorem Memory.wf_writeBytes {m : Memory} (h : m.wf = true) (a : Nat) (bs : Bytes) :
    (Memory.writeBytes m a bs).wf = true := by
  induction bs generalizing m a with
  | nil => exact h
  | cons b bs ih => exact ih (Memory.wf_write h a b) (a + 1)

/-- After `MemWrite` the bytes written read back, and every byte outside them reads as before (R48). -/
theorem Memory.read_writeBytes {m : Memory} (h : m.wf = true) (a : Nat) (bs : Bytes) (x : Nat) :
    Memory.read (Memory.writeBytes m a bs) x =
      if hx : a ≤ x ∧ x < a + bs.length then bs[x - a]'(by omega) else Memory.read m x := by
  induction bs generalizing m a with
  | nil => simp [Memory.writeBytes]
  | cons b bs ih =>
    rw [Memory.writeBytes, ih (Memory.wf_write h a b), Memory.read_write h]
    by_cases hx : x = a
    · subst hx
      simp
    · by_cases hr : a + 1 ≤ x ∧ x < a + 1 + bs.length
      · have hr' : a ≤ x ∧ x < a + (b :: bs).length := by simp; omega
        rw [dif_pos hr, dif_pos hr']
        have : x - a = (x - (a + 1)) + 1 := by omega
        simp [this]
      · have hr' : ¬ (a ≤ x ∧ x < a + (b :: bs).length) := by simp; omega
        rw [dif_neg hr, dif_neg hr', if_neg hx]

@[simp] theorem Memory.wf_nil : Memory.wf [] = true := rfl

end Sys2Proof.Machine
end

