-- ==== Sys2Proof/Laws/Transport.lean ====
section
/-! SUPPORT. What a transport primitive, a write loop and a read loop can do, each said once. -/

namespace Sys2Proof.Machine

/-! ### TRead -/

/-- `t` is `s` after some reads: bytes gone from the front of the inbound wire, choices used up, requests of
at least one byte issued, the last of them outstanding or not, and nothing else. -/
def ReadsOnly (s t : State) (got : Bytes) : Prop :=
  ∃ (rest : Bytes) (plan : Plan ReadChoice) (asked : List Nat) (held : Bool), s.port.inb.bytes = got ++ rest ∧ (∀ n ∈ asked, 1 ≤ n) ∧
    t = { s with port :=
      { s.port with
        inb := { s.port.inb with bytes := rest }
        readPlan := plan
        calls := s.port.calls ++ asked.map (.read s.ep.hRd)
        held := held } }

theorem ReadsOnly.refl (s : State) : ReadsOnly s s [] :=
  ⟨s.port.inb.bytes, s.port.readPlan, [], s.port.held, by simp, by simp, by simp⟩

theorem ReadsOnly.trans {s t u : State} {a b : Bytes} (h₁ : ReadsOnly s t a) (h₂ : ReadsOnly t u b) :
    ReadsOnly s u (a ++ b) := by
  obtain ⟨r₁, p₁, n₁, l₁, e₁, g₁, rfl⟩ := h₁
  obtain ⟨r₂, p₂, n₂, l₂, e₂, g₂, rfl⟩ := h₂
  refine ⟨r₂, p₂, n₁ ++ n₂, l₂, ?_, ?_, ?_⟩
  · simp only at e₂
    rw [e₁, e₂, List.append_assoc]
  · intro n hn
    rcases List.mem_append.mp hn with h | h
    exacts [g₁ n h, g₂ n h]
  · simp

theorem ReadsOnly.issued {max : Nat} (hm : 1 ≤ max) (s : State) : ReadsOnly s (readIssued max s) [] :=
  ⟨s.port.inb.bytes, s.port.readPlan.pop.2, if s.port.held then [] else [max], false, by simp,
    by split <;> simp [hm], by cases h : s.port.held <;> simp [readIssued, Port.requested, h]⟩

theorem ReadsOnly.unanswered {s t : State} {got : Bytes} (h : ReadsOnly s t got) :
    ReadsOnly s (Machine.unanswered t) got := by
  obtain ⟨rest, plan, asked, held, h1, h2, rfl⟩ := h
  exact ⟨rest, plan, asked, true, h1, h2, rfl⟩

/-- The last request on the port is `r`. -/
def LastIs (s : State) (r : Request) : Prop := s.port.calls.getLast? = some r

/-- What a TRead leaves last on the port is its request, put there now or outstanding from before (R41). -/
theorem lastIs_readIssued {max : Nat} {s : State} (h : s.port.held = true → LastIs s (.read s.ep.hRd max)) :
    LastIs (readIssued max s) (.read s.ep.hRd max) := by
  cases hh : s.port.held
  · simp [LastIs, requested_of_not_held hh]
  · simpa [LastIs, requested_of_held hh] using h hh

/-- The same of a TWrite (R42). -/
theorem lastIs_writeIssued {b : Bytes} {s : State} (h : s.port.held = true → LastIs s (.write s.ep.hWr b)) :
    LastIs (writeIssued b s) (.write s.ep.hWr b) := by
  cases hh : s.port.held
  · simp [LastIs, requested_of_not_held hh]
  · simpa [LastIs, requested_of_held hh] using h hh

/-- What a TRead can come to (R41). -/
theorem tRead_cases {max : Nat} (hm : 1 ≤ max) (s : State) :
    (∃ b t, tRead max s = .answered (.data b) t ∧ b ≠ [] ∧ b.length ≤ max ∧ ReadsOnly s t b ∧
      t.port.held = false) ∨
    (tRead max s = .answered .eof (readIssued max s)) ∨
    (tRead max s = .answered .wouldBlock (readIssued max s) ∧ s.ep.blocking = false) ∨
    (∃ e, tRead max s = .answered (.err e) (readIssued max s)) ∨
    (tRead max s = .held (unanswered (readIssued max s)) ∧ s.ep.blocking = true) ∨
    (∃ r, tRead max s = .breach r) := by
  have key : ∀ b, readAnswer s.ep.blocking s.port.inb max s.port.readPlan.pop.1 = some (.data b) →
      b ≠ [] → ∃ rest, s.port.inb.bytes = b ++ rest := by
    intro b hb _
    have hd : ∀ k, deliver s.ep.blocking s.port.inb k = some (.data b) → ∃ rest, s.port.inb.bytes = b ++ rest := by
      intro k hk
      unfold deliver at hk
      split_ifs at hk <;> simp only [Option.some.injEq, ReadAnswer.data.injEq, reduceCtorEq] at hk
      exact ⟨s.port.inb.bytes.drop k, by rw [← hk, List.take_append_drop]⟩
    cases hc : s.port.readPlan.pop.1 <;> rw [hc] at hb <;> simp only [readAnswer, reduceCtorEq, Option.some.injEq] at hb
    · exact hd _ hb
    · exact hd _ hb
    · split at hb <;> cases hb
  unfold tRead
  cases ha : readAnswer s.ep.blocking s.port.inb max s.port.readPlan.pop.1 with
  | none =>
    cases hb : s.ep.blocking
    · exact .inr (.inr (.inr (.inr (.inr ⟨_, by simp; rfl⟩))))
    · exact .inr (.inr (.inr (.inr (.inl (by simp)))))
  | some a =>
    cases a with
    | data b =>
      by_cases hbad : b = [] ∨ max < b.length
      · exact .inr (.inr (.inr (.inr (.inr ⟨_, by simp only [if_pos hbad]; rfl⟩))))
      · rw [not_or] at hbad
        obtain ⟨rest, hrest⟩ := key b ha hbad.1
        refine .inl ⟨b, dropInbound b.length (readIssued max s), by simp [hbad], hbad.1, by omega, ?_, rfl⟩
        refine ⟨rest, s.port.readPlan.pop.2, if s.port.held then [] else [max], false, hrest, by split <;> simp [hm], ?_⟩
        cases h : s.port.held <;> simp [dropInbound, readIssued, Port.requested, h, hrest]
    | eof => exact .inr (.inl rfl)
    | wouldBlock =>
      cases hb : s.ep.blocking
      · exact .inr (.inr (.inl (by simp)))
      · exact .inr (.inr (.inr (.inr (.inr ⟨_, by simp; rfl⟩))))
    | err e => exact .inr (.inr (.inr (.inl ⟨e, rfl⟩)))

/-- The eager transport gives what is asked for, if it is there (R54). -/
theorem tRead_eager {s : State} (he : s.port.readPlan = ⟨[], .all⟩) {d rest : Bytes}
    (hw : s.port.inb.bytes = d ++ rest) (hd : d ≠ []) :
    tRead d.length s = .answered (.data d)
      { s with port :=
        { s.port with
          inb := { s.port.inb with bytes := rest }
          calls := s.port.requested [.read s.ep.hRd d.length]
          held := false } } := by
  simp [tRead, readAnswer, deliver, hw, hd, dropInbound, readIssued, he]

/-! ### Read loop (R106) -/

/-- What a read loop can come to. The bytes it has at the end are those it had, then those it read. -/
theorem readLoop_cases {fuel n : Nat} {acc : Bytes} {s : State} {r : ReadEnd} (h : readLoop fuel n acc s = r) :
    (∃ d t, r = .got (acc ++ d) t ∧ n ≤ (acc ++ d).length ∧ (acc.length ≤ n → (acc ++ d).length = n) ∧
      ReadsOnly s t d ∧ (acc.length < n ∨ s.port.held = false → t.port.held = false)) ∨
    (∃ d t, r = .eof (acc ++ d) t ∧ (acc ++ d).length < n ∧ ReadsOnly s t d ∧ t.port.held = false ∧
      (d = [] → t.port.calls = s.port.requested [.read s.ep.hRd (n - acc.length)])) ∨
    (∃ e d t, r = .failed e (acc ++ d) t ∧ (acc ++ d).length < n ∧ ReadsOnly s t d ∧ t.port.held = false) ∨
    (∃ d t, r = .held (acc ++ d) t ∧ (acc ++ d).length < n ∧ ReadsOnly s t d ∧
      (s.port.inb.bytes.length < fuel → t.port.held = true ∧
        ((s.port.held = true → LastIs s (.read s.ep.hRd (n - acc.length))) →
          LastIs t (.read s.ep.hRd (n - (acc ++ d).length))))) ∨
    (∃ f, r = .refused f) := by
  induction fuel generalizing acc s with
  | zero =>
    unfold readLoop at h
    split at h <;> subst h
    · exact .inl ⟨[], s, by simp, by simpa using ‹n ≤ _›, by simpa using fun hh => by omega, .refl s,
        fun h => h.resolve_left (by omega)⟩
    · exact .inr (.inr (.inr (.inl ⟨[], s, by simp, by simpa using ‹¬ n ≤ _›, .refl s, fun h => by omega⟩)))
  | succ fuel ih =>
    unfold readLoop at h
    by_cases hn : n ≤ acc.length
    · rw [if_pos hn] at h
      exact .inl ⟨[], s, by simp [← h], by simpa using hn, by simpa using fun hh => by omega, .refl s,
        fun h => h.resolve_left (by omega)⟩
    · rw [if_neg hn] at h
      have hm : 1 ≤ n - acc.length := by omega
      rcases tRead_cases hm s with ⟨b, t, e, hb, hlen, hr, hheld⟩ | e | ⟨e, -⟩ | ⟨x, e⟩ | ⟨e, -⟩ | ⟨f, e⟩ <;>
        rw [e] at h <;> simp only at h
      · rcases ih h with ⟨d, u, h1, h2, h3, h4, h5⟩ | ⟨d, u, h1, h2, h4, h5⟩ | ⟨x, d, u, h1, h2, h4, h5⟩ |
          ⟨d, u, h1, h2, h4, h5⟩ | ⟨f, h1⟩
        · refine .inl ⟨b ++ d, u, by simpa using h1, by simpa using h2, fun _ => ?_, hr.trans h4,
            fun _ => h5 (.inr hheld)⟩
          simpa using h3 (by simp; omega)
        · exact .inr (.inl ⟨b ++ d, u, by simpa using h1, by simpa using h2, hr.trans h4, h5.1,
            fun hx => absurd (List.append_eq_nil_iff.mp hx).1 hb⟩)
        · exact .inr (.inr (.inl ⟨x, b ++ d, u, by simpa using h1, by simpa using h2, hr.trans h4, h5⟩))
        · refine .inr (.inr (.inr (.inl ⟨b ++ d, u, by simpa using h1, by simpa using h2, hr.trans h4, fun hf => ?_⟩)))
          obtain ⟨r, p, asked, held, hbytes, -, rfl⟩ := hr
          have hpos : 0 < b.length := List.length_pos_iff.mpr hb
          rw [hbytes, List.length_append] at hf
          obtain ⟨h6, h7⟩ := h5 (by simp only; omega)
          refine ⟨h6, fun _ => ?_⟩
          rw [← List.append_assoc]
          exact h7 (fun hx => by rw [hheld] at hx; cases hx)
        · exact .inr (.inr (.inr (.inr ⟨f, h1⟩)))
      · exact .inr (.inl ⟨[], _, by simp [← h], by simp; omega, .issued hm s, rfl, fun _ => rfl⟩)
      · exact .inr (.inr (.inr (.inr ⟨_, h.symm⟩)))
      · exact .inr (.inr (.inl ⟨x, [], _, by simp [← h], by simp; omega, .issued hm s, rfl⟩))
      · refine .inr (.inr (.inr (.inl ⟨[], _, by simp [← h], by simp; omega, (ReadsOnly.issued hm s).unanswered,
          fun _ => ⟨rfl, fun hl => ?_⟩⟩)))
        rw [List.append_nil]
        exact lastIs_readIssued hl
      · exact .inr (.inr (.inr (.inr ⟨f, h.symm⟩)))

/-- A count that is met issues no read (R106). -/
theorem readExact_met {n : Nat} {acc : Bytes} {s : State} (h : n ≤ acc.length) : readExact n acc s = .got acc s := by
  simp [readExact, readLoop, h]

/-- On an eager transport the bytes still wanted come in one read, if they are there (R106, R54). -/
theorem readExact_eager {s : State} (he : s.port.readPlan = ⟨[], .all⟩) {acc d rest : Bytes} {n : Nat}
    (hw : s.port.inb.bytes = d ++ rest) (hd : d ≠ []) (hn : acc.length + d.length = n) :
    readExact n acc s = .got (acc ++ d)
      { s with port :=
        { s.port with
          inb := { s.port.inb with bytes := rest }
          calls := s.port.requested [.read s.ep.hRd d.length]
          held := false } } := by
  have hpos : 0 < d.length := List.length_pos_iff.mpr hd
  have hlt : ¬ n ≤ acc.length := by omega
  have hsub : n - acc.length = d.length := by omega
  unfold readExact
  rw [hw, List.length_append, show d.length + rest.length + 1 = (d.length - 1 + rest.length + 1) + 1 by omega, readLoop,
    if_neg hlt, hsub, tRead_eager he hw hd]
  simp only
  rw [readLoop, if_pos (by simp; omega)]

/-- With fewer bytes than are wanted and the writer gone, the loop meets the end of the stream (R106). -/
theorem readExact_eager_eof {s : State} (he : s.port.readPlan = ⟨[], .all⟩) (hc : s.port.inb.wclosed = true)
    {acc d : Bytes} {n : Nat} (hw : s.port.inb.bytes = d) (hn : acc.length + d.length < n) :
    ∃ asked : List Nat, asked ≠ [] ∧ (d = [] → asked = [n - acc.length]) ∧ readExact n acc s = .eof (acc ++ d)
      { s with port :=
        { s.port with
          inb := { s.port.inb with bytes := [] }
          calls := s.port.requested (asked.map (.read s.ep.hRd))
          held := false } } := by
  have last : ∀ (t : State) (a : Bytes) (fuel : Nat), t.port.readPlan = ⟨[], .all⟩ → t.port.inb.wclosed = true →
      t.port.inb.bytes = [] → a.length < n →
      readLoop (fuel + 1) n a t = .eof a (readIssued (n - a.length) t) := by
    intro t a fuel h1 h2 h3 h4
    have hp : t.port.readPlan.pop = (.all, ⟨[], .all⟩) := by rw [h1]; rfl
    rw [readLoop, if_neg (by omega)]
    simp [tRead, hp, readAnswer, deliver, h3, h2]
  by_cases hd : d = []
  · subst hd
    refine ⟨[n - acc.length], by simp, fun _ => rfl, ?_⟩
    unfold readExact
    rw [last s acc _ he hc hw (by simpa using hn)]
    simp [readIssued, he, ← hw]
  · have hp : s.port.readPlan.pop = (.all, ⟨[], .all⟩) := by rw [he]; rfl
    have hpos : 0 < d.length := List.length_pos_iff.mpr hd
    refine ⟨[n - acc.length, n - (acc ++ d).length], by simp, fun h => absurd h hd, ?_⟩
    unfold readExact
    rw [hw, show d.length + 1 = (d.length - 1 + 1) + 1 by omega, readLoop, if_neg (by omega)]
    have ht : d.take (n - acc.length) = d := List.take_of_length_le (by omega)
    have hle : ¬ n - acc.length < d.length := by omega
    have h1 : tRead (n - acc.length) s = .answered (.data d) (dropInbound d.length (readIssued (n - acc.length) s)) := by
      simp [tRead, hp, readAnswer, deliver, hw, ht, hd, hle]
    rw [h1]
    simp only
    rw [last _ _ _ (by simp [dropInbound, readIssued, he, Plan.pop]) (by simpa [dropInbound] using hc)
      (by simp [dropInbound, hw]) (by simpa using hn)]
    simp [dropInbound, readIssued, he, hw, Plan.pop, requested_of_not_held, requested_cons_append]

/-! ### TWrite -/

/-- `t` is `s` after some writes: bytes added to the outbound wire, choices used up, requests of at least one
byte issued, the last of them outstanding or not, and nothing else. -/
def WritesOnly (s t : State) (put : Bytes) : Prop :=
  ∃ (plan : Plan WriteChoice) (offered : List Bytes) (held : Bool), (∀ b ∈ offered, b ≠ []) ∧
    t = { s with port :=
      { s.port with
        outb := { s.port.outb with bytes := s.port.outb.bytes ++ put }
        writePlan := plan
        calls := s.port.calls ++ offered.map (.write s.ep.hWr)
        held := held } }

theorem WritesOnly.refl (s : State) : WritesOnly s s [] :=
  ⟨s.port.writePlan, [], s.port.held, by simp, by simp⟩

theorem WritesOnly.trans {s t u : State} {a b : Bytes} (h₁ : WritesOnly s t a) (h₂ : WritesOnly t u b) :
    WritesOnly s u (a ++ b) := by
  obtain ⟨p₁, n₁, l₁, g₁, rfl⟩ := h₁
  obtain ⟨p₂, n₂, l₂, g₂, rfl⟩ := h₂
  refine ⟨p₂, n₁ ++ n₂, l₂, ?_, by simp⟩
  intro n hn
  rcases List.mem_append.mp hn with h | h
  exacts [g₁ n h, g₂ n h]

theorem WritesOnly.issued {b : Bytes} (hb : b ≠ []) (s : State) : WritesOnly s (writeIssued b s) [] :=
  ⟨s.port.writePlan.pop.2, if s.port.held then [] else [b], false, by split <;> simp [hb],
    by cases h : s.port.held <;> simp [writeIssued, Port.requested, h]⟩

theorem WritesOnly.unanswered {s t : State} {put : Bytes} (h : WritesOnly s t put) :
    WritesOnly s (Machine.unanswered t) put := by
  obtain ⟨plan, offered, held, h1, rfl⟩ := h
  exact ⟨plan, offered, true, h1, rfl⟩

theorem WritesOnly.ep {s t : State} {put : Bytes} (h : WritesOnly s t put) : t.ep = s.ep := by
  obtain ⟨plan, offered, held, -, rfl⟩ := h
  rfl

/-- What a TWrite can come to (R42). -/
theorem tWrite_cases {b : Bytes} (hb : b ≠ []) (s : State) :
    (∃ n t, tWrite b s = .answered (.wrote n) t ∧ n ≤ b.length ∧ WritesOnly s t (b.take n) ∧
      t.port.held = false) ∨
    (tWrite b s = .answered .wouldBlock (writeIssued b s) ∧ s.ep.blocking = false) ∨
    (∃ e, tWrite b s = .answered (.err e) (writeIssued b s)) ∨
    (tWrite b s = .held (unanswered (writeIssued b s)) ∧ s.ep.blocking = true) ∨
    (∃ r, tWrite b s = .breach r) := by
  unfold tWrite
  cases ha : writeAnswer s.port b s.port.writePlan.pop.1 with
  | none =>
    cases hbl : s.ep.blocking
    · exact .inr (.inr (.inr (.inr ⟨_, by simp; rfl⟩)))
    · exact .inr (.inr (.inr (.inl (by simp))))
  | some a =>
    cases a with
    | wrote n =>
      by_cases hbad : b.length < n
      · exact .inr (.inr (.inr (.inr ⟨_, by simp only [if_pos hbad]; rfl⟩)))
      · refine .inl ⟨n, appendOutbound (b.take n) (writeIssued b s), by simp [hbad], by omega, ?_, rfl⟩
        refine ⟨s.port.writePlan.pop.2, if s.port.held then [] else [b], false, by split <;> simp [hb], ?_⟩
        cases h : s.port.held <;> simp [appendOutbound, writeIssued, Port.requested, h]
    | wouldBlock =>
      cases hbl : s.ep.blocking
      · exact .inr (.inl (by simp))
      · exact .inr (.inr (.inr (.inr ⟨_, by simp; rfl⟩)))
    | err e => exact .inr (.inr (.inl ⟨e, rfl⟩))

/-! ### Write loop (R93) -/

/-- What a write loop can come to: what it put on the wire and what it still has make up its chunk. -/
theorem writeAll_cases {fuel : Nat} {c : Bytes} {s : State} {r : WriteEnd} (h : writeAll fuel c s = r) :
    (∃ t, r = .done t ∧ WritesOnly s t c ∧ (c ≠ [] ∨ s.port.held = false → t.port.held = false)) ∨
    (∃ put left t, r = .waiting left t ∧ c = put ++ left ∧ left ≠ [] ∧ WritesOnly s t put ∧
      ((s.port.held = true → LastIs s (.write s.ep.hWr c)) → t.port.held = true → LastIs t (.write s.ep.hWr left))) ∨
    (∃ e put left t, r = .failed e t ∧ c = put ++ left ∧ WritesOnly s t put ∧ t.port.held = false) ∨
    (∃ f, r = .refused f) := by
  induction fuel generalizing c s with
  | zero =>
    unfold writeAll at h
    split at h <;> subst h
    · subst ‹c = []›
      exact .inl ⟨s, rfl, .refl s, fun h => h.resolve_left (by simp)⟩
    · exact .inr (.inl ⟨[], c, s, rfl, by simp, ‹_›, .refl s, fun h => h⟩)
  | succ fuel ih =>
    unfold writeAll at h
    by_cases hc : c = []
    · rw [if_pos hc] at h
      subst hc
      exact .inl ⟨s, h.symm, .refl s, fun h => h.resolve_left (by simp)⟩
    · rw [if_neg hc] at h
      rcases tWrite_cases hc s with ⟨n, t, e, hn, hw, hheld⟩ | ⟨e, -⟩ | ⟨x, e⟩ | ⟨e, -⟩ | ⟨f, e⟩ <;>
        rw [e] at h <;> simp only at h
      · by_cases h0 : n = 0
        · rw [if_pos h0] at h
          subst h0
          exact .inr (.inl ⟨[], c, t, h.symm, by simp, hc, by simpa using hw,
            fun _ hx => by rw [hheld] at hx; cases hx⟩)
        · rw [if_neg h0] at h
          rcases ih h with ⟨u, h1, h2, h5⟩ | ⟨put, left, u, h1, h2, h3, h4, h5⟩ |
            ⟨x, put, left, u, h1, h2, h4, h5⟩ | ⟨f, h1⟩
          · exact .inl ⟨u, h1, by simpa using hw.trans h2, fun _ => h5 (.inr hheld)⟩
          · refine .inr (.inl ⟨c.take n ++ put, left, u, h1, by rw [List.append_assoc, ← h2, List.take_append_drop],
              h3, hw.trans h4, fun _ hx => ?_⟩)
            rw [← hw.ep]
            exact h5 (fun hy => by rw [hheld] at hy; cases hy) hx
          · exact .inr (.inr (.inl ⟨x, c.take n ++ put, left, u, h1,
              by rw [List.append_assoc, ← h2, List.take_append_drop], hw.trans h4, h5⟩))
          · exact .inr (.inr (.inr ⟨f, h1⟩))
      · exact .inr (.inr (.inr ⟨_, h.symm⟩))
      · exact .inr (.inr (.inl ⟨x, [], c, _, h.symm, by simp, .issued hc s, rfl⟩))
      · exact .inr (.inl ⟨[], c, _, h.symm, by simp, hc, (WritesOnly.issued hc s).unanswered,
          fun hl _ => lastIs_writeIssued hl⟩)
      · exact .inr (.inr (.inr ⟨f, h.symm⟩))

/-- An outstanding request, if any, is the write of the first of these chunks. -/
def holdsFirst (cs : List Bytes) (s : State) : Prop :=
  s.port.held = true → ∃ c rest, cs = c :: rest ∧ c ≠ [] ∧ LastIs s (.write s.ep.hWr c)

/-- What a blocking send can come to from some chunks on (R92): OK with everything written, a transport error
with a prefix written, or the rest kept in the continuation. -/
theorem writeChunks_cases {cs : List Bytes} {s : State} {o : Out} (h : writeChunks cs s = o) :
    (∃ t, o = finish .ok .none t ∧ WritesOnly s t cs.flatten ∧ (holdsFirst cs s → t.port.held = false)) ∨
    (∃ e put left t, o = raise (.transportError e) t ∧ cs.flatten = put ++ left ∧ WritesOnly s t put ∧
      t.port.held = false) ∨
    (∃ put c rest t, o = .next { t with cont := .writing c rest } ∧ cs.flatten = put ++ (c ++ rest.flatten) ∧
      c ≠ [] ∧ (∃ pre, cs = pre ++ rest) ∧ WritesOnly s t put ∧
      (holdsFirst cs s → t.port.held = true → LastIs t (.write s.ep.hWr c))) ∨
    (∃ r, o = .refused r) := by
  induction cs generalizing s with
  | nil => exact .inl ⟨s, h.symm, .refl s, fun hn => by cases hs : s.port.held; rfl; exact absurd (hn hs) (by simp)⟩
  | cons c rest ih =>
    have first : holdsFirst (c :: rest) s → (c ≠ [] ∨ s.port.held = false) ∧
        (s.port.held = true → LastIs s (.write s.ep.hWr c)) := by
      intro hn
      cases hs : s.port.held
      · exact ⟨.inr rfl, by simp⟩
      · obtain ⟨c', rest', he, hc, hl⟩ := hn hs
        obtain ⟨rfl, rfl⟩ := List.cons.inj he
        exact ⟨.inl hc, fun _ => hl⟩
    unfold writeChunks at h
    rcases writeAll_cases (rfl : writeAll c.length c s = _) with ⟨t, e, hw, hd⟩ | ⟨put, left, t, e, hc, hl, hw, hd⟩ |
      ⟨x, put, left, t, e, hc, hw, hd⟩ | ⟨f, e⟩ <;> rw [e] at h <;> simp only at h
    · have hn : holdsFirst (c :: rest) s → holdsFirst rest t := fun hn hx => by
        rw [hd (first hn).1] at hx
        cases hx
      rcases ih h with ⟨u, h1, h2, h6⟩ | ⟨x, put, left, u, h1, h2, h3, h6⟩ |
        ⟨put, c', rest', u, h1, h2, h3, ⟨pre, h4⟩, h5, h6⟩ | ⟨f, h1⟩
      · exact .inl ⟨u, h1, by simpa using hw.trans h2, fun hx => h6 (hn hx)⟩
      · exact .inr (.inl ⟨x, c ++ put, left, u, h1, by simp [h2], hw.trans h3, h6⟩)
      · exact .inr (.inr (.inl ⟨c ++ put, c', rest', u, h1, by simp [h2], h3, ⟨c :: pre, by simp [h4]⟩, hw.trans h5,
          fun hx => hw.ep ▸ h6 (hn hx)⟩))
      · exact .inr (.inr (.inr ⟨f, h1⟩))
    · exact .inr (.inr (.inl ⟨put, left, rest, t, h.symm, by simp [hc], hl, ⟨[c], rfl⟩, hw, fun hx => hd (first hx).2⟩))
    · exact .inr (.inl ⟨x, put, left ++ rest.flatten, t, h.symm, by simp [hc], hw, hd⟩)
    · exact .inr (.inr (.inr ⟨f, h.symm⟩))

/-- What one drain can come to (R96): with an empty queue, OK and nothing; else exactly the bytes confirmed
have left the queue for the wire, or none, or a transport error with the queue as it was. -/
theorem drainOnce_cases {s : State} {o : Out} (h : drainOnce s = o) :
    (s.ep.txq = [] ∧ o = finish .ok .none s) ∨
    (∃ n t, n ≤ s.ep.txq.length ∧ WritesOnly s t (s.ep.txq.take n) ∧ t.port.held = false ∧
      o = finish .ok .none { t with ep := { t.ep with txq := s.ep.txq.drop n } }) ∨
    (∃ t, WritesOnly s t [] ∧ t.port.held = false ∧ o = finish .ok .none t) ∨
    (∃ e t, WritesOnly s t [] ∧ t.port.held = false ∧ o = raise (.transportError e) t) ∨
    (∃ r, o = .refused r) := by
  unfold drainOnce at h
  by_cases hq : s.ep.txq = []
  · rw [if_pos hq] at h
    exact .inl ⟨hq, h.symm⟩
  · rw [if_neg hq] at h
    rcases tWrite_cases hq s with ⟨n, t, e, hn, hw, hheld⟩ | ⟨e, -⟩ | ⟨x, e⟩ | ⟨e, -⟩ | ⟨f, e⟩ <;>
      rw [e] at h <;> simp only at h
    · rw [hw.ep] at h
      exact .inr (.inl ⟨n, t, hn, hw, hheld, by rw [hw.ep]; exact h.symm⟩)
    · exact .inr (.inr (.inl ⟨_, .issued hq s, rfl, h.symm⟩))
    · exact .inr (.inr (.inr (.inl ⟨x, _, .issued hq s, rfl, h.symm⟩)))
    · exact .inr (.inr (.inr (.inr ⟨_, h.symm⟩)))
    · exact .inr (.inr (.inr (.inr ⟨f, h.symm⟩)))

end Sys2Proof.Machine
end

