-- ==== Sys2Proof/Laws/Receiver.lean ====
section
/-! SUPPORT. What a blocking receive can come to from any state (R106 to R110, R149 to R152), said once. -/

namespace Sys2Proof.Machine

/-- `t` is `s` after some reads, as in `ReadsOnly`, whatever is executing. -/
def Reads (s t : State) (got : Bytes) : Prop := ∃ c, ReadsOnly { s with cont := c } t got

theorem ReadsOnly.reads {s t : State} {got : Bytes} (h : ReadsOnly s t got) : Reads s t got := ⟨s.cont, h⟩

theorem ReadsOnly.with_cont {s t : State} {got : Bytes} (h : ReadsOnly s t got) (c : Cont) :
    ReadsOnly { s with cont := c } { t with cont := c } got := by
  obtain ⟨rest, plan, asked, held, h1, h2, rfl⟩ := h
  exact ⟨rest, plan, asked, held, h1, h2, rfl⟩

theorem Reads.trans {s t u : State} {a b : Bytes} (h₁ : Reads s t a) (h₂ : Reads t u b) : Reads s u (a ++ b) := by
  obtain ⟨c₁, h₁⟩ := h₁
  obtain ⟨c₂, h₂⟩ := h₂
  exact ⟨c₂, (h₁.with_cont c₂).trans h₂⟩

theorem Reads.refl (s : State) : Reads s s [] := (ReadsOnly.refl s).reads

/-- What reads leave alone. -/
theorem Reads.frame {s t : State} {got : Bytes} (h : Reads s t got) :
    t.params = s.params ∧ t.ep = s.ep ∧ t.resp = s.resp ∧ t.dst = s.dst ∧ t.hostQ = s.hostQ ∧
    t.agenda = s.agenda ∧ t.port.outb = s.port.outb ∧ t.port.writePlan = s.port.writePlan ∧
    t.port.goneErr = s.port.goneErr ∧ t.port.inb.wclosed = s.port.inb.wclosed ∧
    t.port.inb.rclosed = s.port.inb.rclosed ∧ s.port.inb.bytes = got ++ t.port.inb.bytes ∧
    ∃ asked : List Nat, (∀ n ∈ asked, 1 ≤ n) ∧ t.port.calls = s.port.calls ++ asked.map (.read s.ep.hRd) := by
  obtain ⟨c, rest, plan, asked, held, h1, h2, rfl⟩ := h
  exact ⟨rfl, rfl, rfl, rfl, rfl, rfl, rfl, rfl, rfl, rfl, rfl, h1, asked, h2, rfl⟩

/-- An outstanding request, if any, is a TRead of this many bytes. -/
def AwaitsRead (want : Nat) (s : State) : Prop := s.port.held = true → LastIs s (.read s.ep.hRd want)

/-- How a blocking receive ends or waits, having read `d`, from `s`; `ready` is what is to be known of a request
outstanding in `s` for the last request of a held receive to be known. -/
inductive ReceiveEnds (kind : RecvKind) (ready : Prop) (s : State) : Bytes → Bytes → Out → Prop
  /-- A whole frame. -/
  | frame {acc d h p : Bytes} {u : State} (hh : isHeader h p.length) (hx : acc ++ d = h ++ p)
      (ht : kind.tooSmall p.length = false) (hr : Reads s u d) (hu : u.port.held = false) :
      ReceiveEnds kind ready s acc d (deliverPayload kind p u)
  /-- The end of the stream before any byte. -/
  | eof {u : State} (hr : Reads s u []) (hu : u.port.held = false)
      (hq : u.port.calls = s.port.requested [.read s.ep.hRd 4]) :
      ReceiveEnds kind ready s [] [] (raise .cleanEOF u)
  /-- The end of the stream inside a frame. -/
  | truncated {acc d : Bytes} {u : State} (hne : acc ++ d ≠ []) (hr : Reads s u d) (hu : u.port.held = false) :
      ReceiveEnds kind ready s acc d (degradeAndRaise .truncatedMessageError .none u)
  /-- An illegal word, or more than the destination holds. -/
  | bad {acc d : Bytes} {u : State} (hne : acc ++ d ≠ []) (hr : Reads s u d) (hu : u.port.held = false) :
      ReceiveEnds kind ready s acc d (degradeAndRaise .badMessageLengthError .none u)
  /-- A transport error, after a byte of the frame or before any. -/
  | failed {acc d : Bytes} {u : State} (e : TErr) (hr : Reads s u d) (hu : u.port.held = false) :
      ReceiveEnds kind ready s acc d (raise (.transportError e)
        { u with ep := { u.ep with rxDesync := u.ep.rxDesync || !(acc ++ d).isEmpty } })
  /-- No answer yet to a read of the header. -/
  | heldHeader {acc d : Bytes} {u : State} (hp : isHeaderPrefix (acc ++ d) = true) (hr : Reads s u d)
      (hu : u.port.held = true) (hq : ready → LastIs u (.read s.ep.hRd (headerWants (acc ++ d)))) :
      ReceiveEnds kind ready s acc d (.next { u with cont := .recvHeader kind (acc ++ d) })
  /-- No answer yet to a read of the payload. -/
  | heldPayload {acc d h p : Bytes} {n : Nat} {u : State} (hh : isHeader h n) (hx : acc ++ d = h ++ p)
      (hl : p.length < n) (hc : exceeds n s.params.rxCap = false) (ht : kind.tooSmall n = false) (hr : Reads s u d)
      (hu : u.port.held = true) (hq : ready → LastIs u (.read s.ep.hRd (n - p.length))) :
      ReceiveEnds kind ready s acc d (.next { u with cont := .recvPayload kind n p })
  | refused {acc d : Bytes} (r : Refusal) : ReceiveEnds kind ready s acc d (.refused r)

/-- The payload's reads, a header in hand (R108). -/
theorem readPayload_ends {kind : RecvKind} {n : Nat} {acc h : Bytes} {s : State} (hh : isHeader h n)
    (hl : acc.length ≤ n) (hc : exceeds n s.params.rxCap = false) (ht : kind.tooSmall n = false)
    (hs : acc.length < n ∨ s.port.held = false) :
    ∃ d, ReceiveEnds kind (AwaitsRead (n - acc.length) s) s (h ++ acc) d (readPayload kind n acc s) := by
  have hne : h ≠ [] := by
    intro h0
    rcases length_isHeader hh with h1 | h1 <;> simp [h0] at h1
  unfold readPayload
  rcases readLoop_cases (rfl : readLoop (s.port.inb.bytes.length + 1) n acc s = _) with
    ⟨d, t, e, -, h2, h3, h4⟩ | ⟨d, t, e, h2, h3, h4, -⟩ | ⟨x, d, t, e, h2, h3, h4⟩ | ⟨d, t, e, h2, h3, h4⟩ | ⟨f, e⟩ <;>
    rw [readExact, e] <;> simp only [readEnded]
  · have hlen := h2 hl
    exact ⟨d, .frame (h := h) (by rw [hlen]; exact hh) (by simp) (by rw [hlen]; exact ht) h3.reads (h4 hs)⟩
  · simp only [Bool.not_true, Bool.false_and, Bool.false_eq_true, if_false]
    exact ⟨d, .truncated (by simp [hne]) h3.reads h4⟩
  · refine ⟨d, ?_⟩
    have := ReceiveEnds.failed (kind := kind) (ready := AwaitsRead (n - acc.length) s) (acc := h ++ acc) x h3.reads h4
    have hb : (h ++ acc ++ d).isEmpty = false := by simp [hne]
    rw [hb] at this
    simpa using this
  · obtain ⟨h5, h6⟩ := h4 (by omega)
    exact ⟨d, .heldPayload hh (by simp) h2 hc ht h3.reads h5 h6⟩
  · exact ⟨[], .refused f⟩

/-- A header's bytes in hand (R107, R110). -/
theorem headerInHand_ends {kind : RecvKind} {w : Bytes} {s : State} {i : Instr} {k : Nat}
    (hd : decodeHeader w = .fetched i k) (hk : w.length = k) (hs : s.port.held = false) :
    ∃ d, ReceiveEnds kind True s w d (headerInHand kind w s) := by
  have hne : w ≠ [] := by
    rintro rfl
    obtain ⟨h1, h2, -⟩ := decodeHeader_fetched hd
    simp at hk
    omega
  have go : ∀ n, isHeader w n →
      ∃ d, ReceiveEnds kind True s w d (headerResolved n { s with cont := .recvHeader kind w }) := by
    intro n hh
    simp only [headerResolved]
    by_cases hx : exceeds n s.params.rxCap = true
    · exact ⟨[], by rw [if_pos hx]; exact .refused _⟩
    · rw [if_neg hx]
      by_cases ht : kind.tooSmall n = true
      · rw [if_pos ht]
        exact ⟨[], .bad (by simpa using hne) ⟨.recvHeader kind w, .refl _⟩ hs⟩
      · rw [if_neg ht]
        obtain ⟨d, hd⟩ := readPayload_ends (kind := kind) (acc := []) (s := { s with cont := .recvHeader kind w }) hh
          (by simp) (by simpa using hx) (by simpa using ht) (.inr hs)
        rw [List.append_nil] at hd
        refine ⟨d, ?_⟩
        have up : ∀ {u : State} {g : Bytes}, Reads { s with cont := .recvHeader kind w } u g → Reads s u g :=
          fun ⟨c, h⟩ => ⟨c, h⟩
        have quiet : AwaitsRead (n - ([] : Bytes).length) { s with cont := .recvHeader kind w } := fun hx => by
          rw [hs] at hx
          cases hx
        generalize readPayload kind n [] { s with cont := .recvHeader kind w } = o at hd
        cases hd with
        | frame a b c e f => exact .frame a b c (up e) f
        | eof e f g => exact .eof (up e) f g
        | truncated a e f => exact .truncated a (up e) f
        | bad a e f => exact .bad a (up e) f
        | failed x e f => exact .failed x (up e) f
        | heldHeader a e f g => exact .heldHeader a (up e) f fun _ => g quiet
        | heldPayload a b c d f e g j => exact .heldPayload a b c d f (up e) g fun _ => j quiet
        | refused r => exact .refused r
  unfold headerInHand
  rw [hd]
  simp only
  have hw : w.take k = w := List.take_of_length_le (by omega)
  rcases decodeHeader_classes hd with ⟨len, rfl, hh⟩ | ⟨len, rfl, hh⟩ | ⟨rest, rfl, -, rfl⟩
  · exact go _ (hw ▸ hh)
  · exact go _ (hw ▸ hh)
  · exact ⟨[], .bad (by simpa using hne) ⟨.recvHeader kind w, .refl _⟩ hs⟩

/-- A receive goes on where another read left off. -/
theorem ReceiveEnds.after {kind : RecvKind} {s t : State} {acc a b : Bytes} {o : Out} {ready : Prop}
    (hr : Reads s t a) (hne : acc ++ a ≠ []) (h : ReceiveEnds kind True t (acc ++ a) b o) :
    ReceiveEnds kind ready s acc (a ++ b) o := by
  have hp : t.params = s.params := hr.frame.1
  have he : t.ep = s.ep := hr.frame.2.1
  generalize hacc : acc ++ a = x at h
  cases h with
  | frame hh hx ht hr' hu => exact .frame hh (by rw [← hx, ← hacc, List.append_assoc]) ht (hr.trans hr') hu
  | eof hr' hu hq => exact absurd hacc hne
  | truncated h1 hr' hu => exact .truncated (by rw [← List.append_assoc, hacc]; exact h1) (hr.trans hr') hu
  | bad h1 hr' hu => exact .bad (by rw [← List.append_assoc, hacc]; exact h1) (hr.trans hr') hu
  | failed e hr' hu =>
    rw [← hacc, List.append_assoc]
    exact .failed e (hr.trans hr') hu
  | heldHeader h1 hr' hu hq =>
    subst hacc
    rw [List.append_assoc] at h1 hq ⊢
    exact .heldHeader h1 (hr.trans hr') hu fun _ => he ▸ hq trivial
  | heldPayload hh hx hl hc ht hr' hu hq =>
    exact .heldPayload hh (by rw [← hx, ← hacc, List.append_assoc]) hl (hp ▸ hc) ht (hr.trans hr') hu
      fun _ => he ▸ hq trivial
  | refused r => exact .refused r

/-- What a blocking receive can come to with `acc` of its header read (R107, R108). -/
theorem readHeader_ends {kind : RecvKind} {acc : Bytes} {s : State} (ha : isHeaderPrefix acc = true) :
    ∃ d, ReceiveEnds kind (AwaitsRead (headerWants acc) s) s acc d (readHeader kind acc s) := by
  have short : ∀ {b : Bytes}, b.length < 4 → isHeaderPrefix b = true := fun h => by simp [isHeaderPrefix, h]
  have esc : ∀ {b c : Bytes}, 4 ≤ b.length → isHeaderPrefix b = true → (b ++ c).length < 12 →
      isHeaderPrefix (b ++ c) = true := by
    intro b c h4 hb h12
    have h4' : ¬ b.length < 4 := by omega
    simp [isHeaderPrefix, h4'] at hb
    simp [isHeaderPrefix, List.take_append_of_le_length h4, hb.2]
    simp at h12
    omega
  unfold readHeader
  rcases readLoop_cases (rfl : readLoop (s.port.inb.bytes.length + 1) 4 acc s = _) with
    ⟨d, t, e, h1, h2, h3, hu⟩ | ⟨d, t, e, h2, h3, hu, hq⟩ | ⟨x, d, t, e, h2, h3, hu⟩ | ⟨d, t, e, h2, h3, hu⟩ |
      ⟨f, e⟩ <;>
    rw [readExact, e] <;> simp only [readEnded]
  · have met : 4 ≤ acc.length → d = [] ∧ t = s := by
      intro h4
      have h5 : readLoop (s.port.inb.bytes.length + 1) 4 acc s = .got acc s := readExact_met h4
      rw [h5] at e
      obtain ⟨h6, h7⟩ := ReadEnd.got.inj e
      exact ⟨by simpa using h6, h7.symm⟩
    cases hd : decodeHeader (acc ++ d) with
    | fetched i k =>
      simp only
      have h4 : acc.length < 4 := by
        by_contra h4
        obtain ⟨rfl, -⟩ := met (by omega)
        rw [List.append_nil, (decodeHeader_incomplete_iff _).mpr ha] at hd
        cases hd
      have hlen : (acc ++ d).length = k := by
        obtain ⟨hk, hkl, -⟩ := decodeHeader_fetched hd
        rw [h2 h4.le] at hkl ⊢
        omega
      obtain ⟨d', h⟩ := headerInHand_ends (kind := kind) (s := t) hd hlen (hu (.inl h4))
      exact ⟨d ++ d', .after h3.reads (by intro h0; simp [h0] at h1) h⟩
    | incomplete =>
      simp only
      have hp := (decodeHeader_incomplete_iff _).mp hd
      have hne : acc ++ d ≠ [] := by intro h0; simp [h0] at h1
      rcases readLoop_cases (rfl : readLoop (t.port.inb.bytes.length + 1) 12 (acc ++ d) t = _) with
        ⟨d', u, e', g1, g2, g3, g5⟩ | ⟨d', u, e', g2, g3, g5, -⟩ | ⟨x, d', u, e', g2, g3, g5⟩ | ⟨d', u, e', g2, g3, g5⟩ |
          ⟨f, e'⟩ <;>
        rw [readExact, e'] <;> simp only
      · have g4 := g2 (length_isHeaderPrefix hp).le
        have hb4 : ¬ (acc ++ d).length < 4 := by omega
        have hesc : (acc ++ d).take 4 = escapeBytes := by
          simp only [isHeaderPrefix, hb4, decide_false, Bool.false_or, Bool.and_eq_true, beq_iff_eq] at hp
          exact hp.2
        have hd' : ∃ len64, decodeHeader (acc ++ d ++ d') = .fetched (.large len64) 12 := by
          rw [decodeHeader_eq, if_neg (by omega),
            if_pos ((beNat_take4_eq_escape (by omega)).mpr (by rw [List.take_append_of_le_length (by omega)]; exact hesc)),
            if_neg (by omega)]
          exact ⟨_, rfl⟩
        obtain ⟨len64, hd'⟩ := hd'
        have hp12 : (acc ++ d).length < 12 := by
          by_contra h12
          have := length_isHeaderPrefix hp
          omega
        obtain ⟨d'', h⟩ := headerInHand_ends (kind := kind) (s := u) hd' g4 (g5 (.inl hp12))
        refine ⟨d ++ d' ++ d'', .after (h3.reads.trans g3.reads) (by simp_all) ?_⟩
        rw [← List.append_assoc]
        exact h
      · have hbe : (!false && (acc ++ d ++ d').isEmpty) = false := by
          have : acc ++ d ++ d' ≠ [] := by intro h0; simp_all
          simpa using this
        rw [hbe]
        exact ⟨d ++ d', .truncated (by rw [← List.append_assoc]; intro h0; simp_all) (h3.reads.trans g3.reads) g5⟩
      · refine ⟨d ++ d', ?_⟩
        have := ReceiveEnds.failed (kind := kind) (ready := AwaitsRead (headerWants acc) s) (acc := acc) x
          (h3.reads.trans g3.reads) g5
        simpa using this
      · refine ⟨d ++ d', ?_⟩
        obtain ⟨g6, g7⟩ := g5 (by omega)
        have := ReceiveEnds.heldHeader (kind := kind) (ready := AwaitsRead (headerWants acc) s) (acc := acc) (d := d ++ d')
          (by rw [← List.append_assoc]; exact esc (by omega) hp g2) (h3.reads.trans g3.reads) g6 (fun hw => by
            rw [← List.append_assoc, headerWants, if_neg (by simp only [List.length_append] at h1 ⊢; omega),
              ← h3.reads.frame.2.1]
            refine g7 fun hx => ?_
            by_cases h4 : acc.length < 4
            · rw [hu (.inl h4)] at hx
              cases hx
            · obtain ⟨rfl, rfl⟩ := met (by omega)
              simpa [headerWants, h4] using hw hx)
        simpa using this
      · exact ⟨[], .refused f⟩
  · cases hx : (acc ++ d).isEmpty
    · simp only [Bool.not_false, Bool.true_and, Bool.false_eq_true, if_false]
      exact ⟨d, .truncated (by intro h0; simp [h0] at hx) h3.reads hu⟩
    · simp only [Bool.not_false, Bool.true_and, if_true]
      simp at hx
      obtain ⟨rfl, rfl⟩ := hx
      exact ⟨[], .eof h3.reads hu (hq rfl)⟩
  · refine ⟨d, ?_⟩
    have := ReceiveEnds.failed (kind := kind) (ready := AwaitsRead (headerWants acc) s) (acc := acc) x h3.reads hu
    simpa using this
  · obtain ⟨h5, h6⟩ := hu (by omega)
    have ha4 : acc.length < 4 := by rw [List.length_append] at h2; omega
    rw [AwaitsRead, headerWants, if_pos ha4]
    exact ⟨d, .heldHeader (short h2) h3.reads h5 fun hw => by rw [headerWants, if_pos h2]; exact h6 hw⟩
  · exact ⟨[], .refused f⟩

/-! ### On an eager transport -/

@[simp] theorem afterReads_nil {s : State} {rest : Bytes} (h : s.port.inb.bytes = rest) : afterReads [] rest s = s := by
  subst h
  simp [afterReads]

@[simp] theorem afterReads_afterReads (a b : List Nat) (r r' : Bytes) (s : State) :
    afterReads b r' (afterReads a r s) = afterReads (a ++ b) r' s := by
  cases h : s.port.held <;> cases a <;> simp [afterReads, Port.requested, h]

theorem readExact_afterReads {s : State} (he : eagerReads s.port) {acc d rest : Bytes} {n : Nat}
    (hw : s.port.inb.bytes = d ++ rest) (hn : acc.length + d.length = n) :
    readExact n acc s = .got (acc ++ d) (afterReads (if d = [] then [] else [d.length]) rest s) := by
  by_cases hd : d = []
  · subst hd
    rw [readExact_met (by simp at hn; omega), if_pos rfl, afterReads_nil (by simpa using hw), List.append_nil]
  · rw [readExact_eager he hw hd hn, if_neg hd]
    simp [afterReads]

/-- A header comes in hand whole (R107, R54). -/
theorem readHeader_eager {s : State} {kind : RecvKind} {acc h rest : Bytes} {i : Instr} (he : eagerReads s.port)
    (hd : decodeHeader h = .fetched i h.length) (ha : isHeaderPrefix acc = true)
    (hw : acc ++ s.port.inb.bytes = h ++ rest) :
    ∃ asked, asked ≠ [] ∧ readHeader kind acc s = headerInHand kind h (afterReads asked rest s) ∧
      (acc = [] → asked = headerReads h) := by
  have hi := (decodeHeader_incomplete_iff acc).mpr ha
  obtain ⟨hk, -, hpre⟩ := decodeHeader_fetched hd
  rw [List.take_length] at hpre
  have hlt : acc.length < h.length := by
    by_contra hge
    have : h <+: acc := by
      refine List.prefix_of_prefix_length_le (l₃ := h ++ rest) (List.prefix_append h rest) ?_ (by omega)
      rw [← hw]
      exact List.prefix_append _ _
    rw [hpre acc this] at hi
    cases hi
  obtain ⟨d, rfl⟩ : ∃ d, h = acc ++ d := by
    have : acc <+: h := by
      refine List.prefix_of_prefix_length_le (l₃ := h ++ rest) ?_ (List.prefix_append h rest) (by omega)
      rw [← hw]
      exact List.prefix_append _ _
    obtain ⟨d, hd⟩ := this
    exact ⟨d, hd.symm⟩
  have hwd : s.port.inb.bytes = d ++ rest := by
    rw [List.append_assoc] at hw
    exact List.append_cancel_left hw
  by_cases h12 : (acc ++ d).length = 12
  · -- LARGE: whatever of the first word is missing, then the rest
    let d₁ := d.take (4 - acc.length)
    let d₂ := d.drop (4 - acc.length)
    have hsplit : d = d₁ ++ d₂ := (List.take_append_drop _ d).symm
    rw [List.length_append] at h12
    have hinc : decodeHeader (acc ++ d₁) = .incomplete := by
      rw [decodeHeader_incomplete_iff]
      by_contra hc
      have hp : ¬ isHeaderPrefix (acc ++ d₁) = true := hc
      cases hx : decodeHeader (acc ++ d₁) with
      | incomplete => exact hp ((decodeHeader_incomplete_iff _).mp hx)
      | fetched j k =>
        have hk' := (decodeHeader_fetched hx).2.1
        have := decodeHeader_append hx d₂
        rw [List.append_assoc, ← hsplit, hd] at this
        have hj := (HeaderFetch.fetched.inj this).2
        rw [List.length_append] at hj
        have h1 : d₁.length = min (4 - acc.length) d.length := List.length_take
        rw [List.length_append] at hk'
        by_cases h4 : acc.length ≤ 4
        · omega
        · have : d₁ = [] := by
            apply List.eq_nil_of_length_eq_zero
            omega
          rw [this, List.append_nil, hi] at hx
          cases hx
    have hr1 : readExact 4 acc s = .got (acc ++ d₁) (afterReads (if d₁ = [] then [] else [d₁.length]) (d₂ ++ rest) s) := by
      by_cases h4 : acc.length ≤ 4
      · exact readExact_afterReads he (by rw [hwd, hsplit, List.append_assoc])
          (by simp only [d₁, List.length_take]; omega)
      · have : d₁ = [] := List.eq_nil_of_length_eq_zero (by simp only [d₁, List.length_take]; omega)
        rw [this, readExact_met (by omega), if_pos rfl, List.append_nil, afterReads_nil]
        rw [hwd, hsplit, this, List.nil_append]
    have hr2 : readExact 12 (acc ++ d₁) (afterReads (if d₁ = [] then [] else [d₁.length]) (d₂ ++ rest) s) =
        .got (acc ++ d₁ ++ d₂) (afterReads (if d₂ = [] then [] else [d₂.length]) rest
          (afterReads (if d₁ = [] then [] else [d₁.length]) (d₂ ++ rest) s)) :=
      readExact_afterReads (by exact he) rfl (by
        have := congrArg List.length hsplit
        simp only [List.length_append] at this ⊢
        omega)
    refine ⟨(if d₁ = [] then [] else [d₁.length]) ++ (if d₂ = [] then [] else [d₂.length]), ?_, ?_, ?_⟩
    · have hd2 : d₂ ≠ [] := by
        intro h0
        have := congrArg List.length h0
        simp only [d₂, List.length_drop, List.length_nil] at this
        rw [hsplit, List.length_append, h0] at h12
        simp only [d₁, List.length_take, List.length_nil] at h12
        omega
      simp [hd2]
    · unfold readHeader
      rw [hr1]
      simp only [readEnded, hinc, hr2]
      rw [afterReads_afterReads, List.append_assoc, ← hsplit]
    · rintro rfl
      have h12' : d.length = 12 := by simpa using h12
      have l1 : d₁.length = 4 := by simp [d₁, h12']
      have l2 : d₂.length = 8 := by simp [d₂, h12']
      have n1 : d₁ ≠ [] := by intro h0; simp [h0] at l1
      have n2 : d₂ ≠ [] := by intro h0; simp [h0] at l2
      simp [n1, n2, l1, l2, headerReads, h12']
  · have h4 : (acc ++ d).length = 4 := by omega
    have hne : d ≠ [] := by rintro rfl; simp at hlt
    refine ⟨[d.length], by simp, ?_, ?_⟩
    · unfold readHeader
      rw [readExact_afterReads he hwd (by simpa using h4), if_neg hne]
      simp only [readEnded, hd]
    · rintro rfl
      have : d.length = 4 := by simpa using h4
      simp [headerReads, this]

/-- A payload comes in hand whole (R108, R54). -/
theorem readPayload_eager {s : State} {kind : RecvKind} {acc p rest : Bytes} (he : eagerReads s.port)
    (hl : acc.length ≤ p.length) (hw : acc ++ s.port.inb.bytes = p ++ rest) :
    readPayload kind p.length acc s =
      deliverPayload kind p (afterReads (payloadReads (p.length - acc.length)) rest s) := by
  obtain ⟨d, rfl⟩ : ∃ d, p = acc ++ d := by
    have : acc <+: p := by
      refine List.prefix_of_prefix_length_le (l₃ := p ++ rest) ?_ (List.prefix_append p rest) hl
      rw [← hw]
      exact List.prefix_append _ _
    obtain ⟨d, hd⟩ := this
    exact ⟨d, hd.symm⟩
  have hwd : s.port.inb.bytes = d ++ rest := by
    rw [List.append_assoc] at hw
    exact List.append_cancel_left hw
  unfold readPayload
  rw [readExact_afterReads he hwd (by simp)]
  have : (if d = [] then [] else [d.length]) = payloadReads ((acc ++ d).length - acc.length) := by
    cases d <;> simp [payloadReads]
  simp only [readEnded, this]

/-- What `deliverPayload` leaves (R108 to R110). -/
theorem deliverPayload_eq (kind : RecvKind) (p : Bytes) (s : State) :
    ∃ d, destinationHolds s.dst d kind p ∧
      deliverPayload kind p s =
        .next { s with cont := .idle, dst := d, resp := some ⟨.ok, payloadResult s.params.serializer kind p⟩ } := by
  cases kind with
  | bytes => exact ⟨s.dst, rfl, rfl⟩
  | value => exact ⟨s.dst, rfl, rfl⟩
  | into cap =>
    refine ⟨Memory.writeBytes s.dst 0 p, fun h => ⟨Memory.wf_writeBytes h 0 p, fun a => ?_⟩, rfl⟩
    rw [Memory.read_writeBytes h]
    by_cases ha : a < p.length
    · simp [ha]
    · simp [ha]

/-- A header that declares `n`, in hand (R107, R110). -/
theorem headerInHand_isHeader {kind : RecvKind} {h : Bytes} {n : Nat} (hh : isHeader h n) (s : State) :
    headerInHand kind h s = headerResolved n { s with cont := .recvHeader kind h } := by
  unfold headerInHand
  rcases decodeHeader_isHeader hh [] with ⟨len, hd, rfl⟩ | ⟨len, hd, rfl⟩ <;> rw [List.append_nil] at hd <;> rw [hd] <;>
    rfl

/-- Reading a payload does not depend on what is executing (R108). -/
theorem headerResolved_recvHeader {kind : RecvKind} {n : Nat} {s : State} {acc : Bytes} (hc : s.cont = .recvHeader kind acc)
    (hx : exceeds n s.params.rxCap = false) :
    headerResolved n s =
      if kind.tooSmall n then degradeAndRaise .badMessageLengthError .none s else readPayload kind n [] s := by
  simp [headerResolved, hc, hx]

end Sys2Proof.Machine
end

