-- ==== Sys2Proof/Laws/Loops.lean ====
section
/-! SUPPORT. The read and write loops do not depend on what is executing, nor on fuel beyond what they can use; and
one answer of a loop, said once (R93, R106). -/

namespace Sys2Proof.Machine

/-! ### The state after an answer, or none -/

@[simp] theorem afterReads_ep (l : List Nat) (b : Bytes) (s : State) : (afterReads l b s).ep = s.ep := rfl
@[simp] theorem afterReads_params (l : List Nat) (b : Bytes) (s : State) : (afterReads l b s).params = s.params := rfl
@[simp] theorem afterReads_cont (l : List Nat) (b : Bytes) (s : State) : (afterReads l b s).cont = s.cont := rfl
@[simp] theorem afterReads_dst (l : List Nat) (b : Bytes) (s : State) : (afterReads l b s).dst = s.dst := rfl
@[simp] theorem afterRead_ep (n k : Nat) (s : State) : (afterRead n k s).ep = s.ep := rfl
@[simp] theorem afterRead_params (n k : Nat) (s : State) : (afterRead n k s).params = s.params := rfl
@[simp] theorem afterRead_cont (n k : Nat) (s : State) : (afterRead n k s).cont = s.cont := rfl
@[simp] theorem afterRead_dst (n k : Nat) (s : State) : (afterRead n k s).dst = s.dst := rfl
@[simp] theorem afterWrite_ep (b : Bytes) (n : Nat) (s : State) : (afterWrite b n s).ep = s.ep := rfl
@[simp] theorem afterWrite_params (b : Bytes) (n : Nat) (s : State) : (afterWrite b n s).params = s.params := rfl
@[simp] theorem afterWrite_cont (b : Bytes) (n : Nat) (s : State) : (afterWrite b n s).cont = s.cont := rfl
@[simp] theorem afterWrite_dst (b : Bytes) (n : Nat) (s : State) : (afterWrite b n s).dst = s.dst := rfl
@[simp] theorem readOutstanding_ep (n : Nat) (s : State) : (readOutstanding n s).ep = s.ep := rfl
@[simp] theorem readOutstanding_cont (n : Nat) (s : State) : (readOutstanding n s).cont = s.cont := rfl
@[simp] theorem writeOutstanding_ep (b : Bytes) (s : State) : (writeOutstanding b s).ep = s.ep := rfl
@[simp] theorem writeOutstanding_cont (b : Bytes) (s : State) : (writeOutstanding b s).cont = s.cont := rfl

/-- A request that no byte came with is `readIssued`. -/
theorem afterRead_zero (n : Nat) (s : State) : afterRead n 0 s = readIssued n s := rfl

/-- Nothing outstanding (R11 (b)). -/
theorem heldOk_of_not_held {s : State} (h : s.port.held = false) : heldOk s = true := by simp [heldOk, h]

/-- The last request is the one the executing command goes on with (R41, R42). -/
theorem heldOk_of_lastIs {s : State} {r : Request} (h : s.awaits = some r) (hl : LastIs s r) : heldOk s = true := by
  rw [LastIs] at hl
  simp [heldOk, h, hl]

/-! ### What is executing makes no difference to a loop -/

/-- The same outcome of a request, whatever is executing. -/
def Call.withCont {α : Type} (k : Cont) : Call α → Call α
  | .answered a s => .answered a { s with cont := k }
  | .held s => .held { s with cont := k }
  | .breach r => .breach r

/-- The same end of a read loop. -/
def ReadEnd.withCont (k : Cont) : ReadEnd → ReadEnd
  | .got acc s => .got acc { s with cont := k }
  | .eof acc s => .eof acc { s with cont := k }
  | .failed e acc s => .failed e acc { s with cont := k }
  | .held acc s => .held acc { s with cont := k }
  | .refused r => .refused r

/-- The same end of a write loop. -/
def WriteEnd.withCont (k : Cont) : WriteEnd → WriteEnd
  | .done s => .done { s with cont := k }
  | .waiting c s => .waiting c { s with cont := k }
  | .failed e s => .failed e { s with cont := k }
  | .refused r => .refused r

theorem tRead_withCont (max : Nat) (s : State) (k : Cont) :
    tRead max { s with cont := k } = (tRead max s).withCont k := by
  unfold tRead
  simp only
  cases readAnswer s.ep.blocking s.port.inb max s.port.readPlan.pop.1 with
  | none => cases s.ep.blocking <;> rfl
  | some a =>
    cases a with
    | data b => by_cases h : b = [] ∨ max < b.length <;> simp only [h, if_true, if_false] <;> rfl
    | eof => rfl
    | wouldBlock => cases s.ep.blocking <;> rfl
    | err e => rfl

theorem tWrite_withCont (b : Bytes) (s : State) (k : Cont) :
    tWrite b { s with cont := k } = (tWrite b s).withCont k := by
  unfold tWrite
  simp only
  cases writeAnswer s.port b s.port.writePlan.pop.1 with
  | none => cases s.ep.blocking <;> rfl
  | some a =>
    cases a with
    | wrote n => by_cases h : b.length < n <;> simp only [h, if_true, if_false] <;> rfl
    | wouldBlock => cases s.ep.blocking <;> rfl
    | err e => rfl

theorem readLoop_withCont (fuel n : Nat) (acc : Bytes) (s : State) (k : Cont) :
    readLoop fuel n acc { s with cont := k } = (readLoop fuel n acc s).withCont k := by
  induction fuel generalizing acc s with
  | zero => unfold readLoop; split <;> rfl
  | succ fuel ih =>
    unfold readLoop
    split
    · rfl
    · rw [tRead_withCont]
      cases tRead (n - acc.length) s with
      | held t => rfl
      | breach r => rfl
      | answered a t =>
        cases a with
        | data b => exact ih _ _
        | eof => rfl
        | wouldBlock => rfl
        | err e => rfl

theorem readExact_withCont (n : Nat) (acc : Bytes) (s : State) (k : Cont) :
    readExact n acc { s with cont := k } = (readExact n acc s).withCont k :=
  readLoop_withCont _ _ _ _ _

theorem writeAll_withCont (fuel : Nat) (c : Bytes) (s : State) (k : Cont) :
    writeAll fuel c { s with cont := k } = (writeAll fuel c s).withCont k := by
  induction fuel generalizing c s with
  | zero => unfold writeAll; split <;> rfl
  | succ fuel ih =>
    unfold writeAll
    split
    · rfl
    · rw [tWrite_withCont]
      cases tWrite c s with
      | held t => rfl
      | breach r => rfl
      | answered a t =>
        cases a with
        | wrote n =>
          by_cases h : n = 0
          · simp only [Call.withCont, h, if_true]; rfl
          · simp only [Call.withCont, h, if_false]; exact ih _ _
        | wouldBlock => rfl
        | err e => rfl

theorem degrade_withCont (s : State) (k : Cont) : degrade { s with cont := k } = { degrade s with cont := k } := by
  unfold degrade; split <;> rfl

theorem readEnded_withCont {started : Bool} {next : Bytes → State → Out} {wait : Bytes → Cont} {k : Cont}
    (hn : ∀ b u, next b { u with cont := k } = next b u) (r : ReadEnd) :
    readEnded started next wait (r.withCont k) = readEnded started next wait r := by
  cases r with
  | got acc t => exact hn acc t
  | eof acc t =>
    simp only [ReadEnd.withCont, readEnded]
    split
    · rfl
    · simp only [degradeAndRaise, degrade_withCont]; rfl
  | failed e acc t => rfl
  | held acc t => rfl
  | refused r => rfl

/-- A receive reads its header the same way whatever the continuation says (R107). -/
theorem readHeader_withCont (kind : RecvKind) (acc : Bytes) (s : State) (k : Cont) :
    readHeader kind acc { s with cont := k } = readHeader kind acc s := by
  unfold readHeader
  rw [readExact_withCont, readEnded_withCont]
  intro b u
  cases decodeHeader b with
  | fetched i n => rfl
  | incomplete =>
    simp only
    rw [readExact_withCont, readEnded_withCont]
    intro b u
    rfl

/-- And its payload (R108). -/
theorem readPayload_withCont (kind : RecvKind) (n : Nat) (acc : Bytes) (s : State) (k : Cont) :
    readPayload kind n acc { s with cont := k } = readPayload kind n acc s := by
  unfold readPayload
  rw [readExact_withCont, readEnded_withCont]
  intro b u
  cases kind <;> rfl

/-- And a send writes its chunks (R92). -/
theorem writeChunks_withCont {cs : List Bytes} (hne : cs ≠ []) (s : State) (k : Cont) :
    writeChunks cs { s with cont := k } = writeChunks cs s := by
  induction cs generalizing s with
  | nil => exact absurd rfl hne
  | cons c rest ih =>
    rw [writeChunks, writeChunks, writeAll_withCont]
    cases writeAll c.length c s with
    | done t =>
      simp only [WriteEnd.withCont]
      by_cases hr : rest = []
      · subst hr; rfl
      · exact ih hr t
    | waiting c' t => rfl
    | failed e t => rfl
    | refused r => rfl

/-! ### Fuel beyond what a loop can use makes no difference -/

theorem readLoop_fuel {f g n : Nat} {acc : Bytes} {s : State} (hf : s.port.inb.bytes.length < f)
    (hg : s.port.inb.bytes.length < g) : readLoop f n acc s = readLoop g n acc s := by
  induction f generalizing g acc s with
  | zero => omega
  | succ f ih =>
    obtain ⟨g, rfl⟩ : ∃ k, g = k + 1 := ⟨g - 1, by omega⟩
    rw [readLoop, readLoop]
    split
    · rfl
    · rcases tRead_cases (show 1 ≤ n - acc.length by omega) s with
        ⟨b, t, e, hb, -, ⟨rest, plan, asked, held, h1, -, rfl⟩, -⟩ | e | ⟨e, -⟩ | ⟨x, e⟩ | ⟨e, -⟩ | ⟨x, e⟩ <;> rw [e]
      have := List.length_pos_iff.mpr hb
      rw [h1, List.length_append] at hf hg
      exact ih (by simp only; omega) (by simp only; omega)

theorem writeAll_fuel {f : Nat} {c : Bytes} {s : State} (h : c.length ≤ f) :
    writeAll f c s = writeAll c.length c s := by
  induction f using Nat.strong_induction_on generalizing c s with
  | _ f ih =>
    by_cases hc : c = []
    · subst hc; cases f <;> simp [writeAll]
    · have hpos := List.length_pos_iff.mpr hc
      obtain ⟨f, rfl⟩ : ∃ k, f = k + 1 := ⟨f - 1, by omega⟩
      obtain ⟨g, hg⟩ : ∃ k, c.length = k + 1 := ⟨c.length - 1, by omega⟩
      rw [hg, writeAll, writeAll, if_neg hc, if_neg hc]
      cases tWrite c s with
      | held t => rfl
      | breach r => rfl
      | answered a t =>
        cases a with
        | wrote m =>
          by_cases hm : m = 0
          · simp only [hm, if_true]
          · simp only [if_neg hm]
            rw [ih f (by omega) (by simp; omega), ih g (by omega) (by simp; omega)]
        | wouldBlock => rfl
        | err e => rfl

/-! ### One answer -/

/-- An answer of `k` bytes: the loop goes on with them (R106). -/
theorem readExact_take {n k : Nat} {acc : Bytes} {s : State} (hp : s.port.readPlan.pop.1 = .take k) (h1 : 1 ≤ k)
    (h2 : k ≤ n - acc.length) (h3 : k ≤ s.port.inb.bytes.length) :
    readExact n acc s = readExact n (acc ++ s.port.inb.bytes.take k) (afterRead (n - acc.length) k s) := by
  have hne : s.port.inb.bytes ≠ [] := by
    intro h
    rw [h] at h3
    simp at h3
    omega
  have hr : tRead (n - acc.length) s =
      .answered (.data (s.port.inb.bytes.take k)) (afterRead (n - acc.length) k s) := by
    simp [tRead, hp, readAnswer, deliver, hne, show min k s.port.inb.bytes.length = k by omega,
      show k ≠ 0 by omega, show ¬ n - acc.length < k by omega]
    rfl
  unfold readExact
  rw [readLoop, if_neg (by omega), hr]
  simp only
  exact readLoop_fuel (by simp [afterRead]; omega) (by simp [afterRead])

/-- No answer: the loop waits with the bytes it has, one request outstanding (R11 (b), R41). -/
theorem readExact_hold {n : Nat} {acc : Bytes} {s : State} (hp : s.port.readPlan.pop.1 = .hold)
    (hb : s.ep.blocking = true) (h : acc.length < n) :
    readExact n acc s = .held acc (readOutstanding (n - acc.length) s) := by
  unfold readExact
  rw [readLoop, if_neg (by omega)]
  simp [tRead, hp, readAnswer, hb]
  rfl

/-- A transport error (R106, R152). -/
theorem readExact_err {n : Nat} {acc : Bytes} {e : TErr} {s : State} (hp : s.port.readPlan.pop.1 = .err e)
    (h : acc.length < n) : readExact n acc s = .failed e acc (afterRead (n - acc.length) 0 s) := by
  unfold readExact
  rw [readLoop, if_neg (by omega)]
  simp [tRead, hp, readAnswer]
  rfl

/-- An answer for which the command is refused (U1, U2). -/
theorem readExact_breach {n : Nat} {acc : Bytes} {s : State} {r : Refusal} (h : acc.length < n)
    (hr : tRead (n - acc.length) s = .breach r) : readExact n acc s = .refused r := by
  rw [readExact, readLoop, if_neg (by omega), hr]

end Sys2Proof.Machine
end

