-- ==== Sys2Proof/Laws/PerInstr.lean ====
section
/-! SUPPORT. Statements made for every instruction, one lemma for each constructor. -/

namespace Sys2Proof.Laws.EncodedShape

/-- A command travels on the host port under a 4-bit code that reads back, and a header on the wire in 4 or 12
bytes (R60, R69). -/
def Statement (i : Instr) : Prop :=
  match encode i with
  | .command c => i.wf = true → decodeCommand c = .ok i
  | .header b => b.length = Config.smallHdrLen ∨ b.length = Config.largeHdrLen

theorem hdrEnc (n : Int) : Statement (.hdrEnc n) := fun _ => rfl

theorem hdrParse (b : Bytes) : Statement (.hdrParse b) := fun _ => rfl

theorem frameEnc (p : Bytes) : Statement (.frameEnc p) := fun _ => rfl

theorem send (v : Value) : Statement (.send v) := fun _ => rfl

theorem sendBytes (b : Bytes) (o n : Int) : Statement (.sendBytes b o n) := fun _ => rfl

theorem drain : Statement .drain := fun _ => rfl

theorem recv : Statement .recv := fun _ => rfl

theorem recvBytes : Statement .recvBytes := fun _ => rfl

theorem recvBytesInto (c : Int) : Statement (.recvBytesInto c) := fun _ => rfl

theorem recvNb (m : Int) : Statement (.recvNb m) := fun _ => rfl

theorem close : Statement .close := fun _ => rfl

theorem reserved0 : Statement .reserved0 := fun _ => rfl

theorem reservedCF (low : BitVec 2) : Statement (.reservedCF low) := by
  have h : ∀ low : BitVec 2, decodeCommand ⟨0b11#2 ++ low, []⟩ = .ok (.reservedCF low) := by decide
  exact fun _ => h low

theorem small (len : BitVec 31) : Statement (.small len) := .inl (length_be32 _)

theorem large (len64 : BitVec 64) : Statement (.large len64) := .inr (by simp [Config.largeHdrLen])

theorem invalidHdr (rest : BitVec 31) : Statement (.invalidHdr rest) := .inl (length_be32 _)

end Sys2Proof.Laws.EncodedShape
end

