-- ==== Sys2Proof/Laws/Step.lean ====
section
/-! SUPPORT. What an instruction, and a step, can do to a state, said once: the frame every instruction keeps. -/

namespace Sys2Proof.Machine

/-- What the send side can do: answer, or write, touching only the queue and the outbound wire (R137). -/
inductive SendMoves (s : State) : State → Prop
  | answered (st : Status) (r : Result) : SendMoves s (complete st r s)
  | wrote {u : State} {put : Bytes} (hw : WritesOnly s u put) (q : Bytes) (c : Cont) (r : Option Response) :
      SendMoves s { u with ep := { u.ep with txq := q }, cont := c, resp := r }

/-- What the receive side can do: answer; read, touching only the receive state, the destination and the inbound
wire; or degrade after reading (R136, R137). -/
inductive ReceiveMoves (s : State) : State → Prop
  | answered (st : Status) (r : Result) : ReceiveMoves s (complete st r s)
  | received {u : State} {d : Bytes} (hr : Reads s u d) (dst : Memory) (ph : RxPhase) (hdr : Bytes)
      (ctx : Option RxContext) (b : Bool) (c : Cont) (r : Option Response) :
      ReceiveMoves s
        { u with
          dst := dst
          ep := { u.ep with rxPhase := ph, rxHdr := hdr, ctx := ctx, rxDesync := b }
          cont := c
          resp := r }
  | degraded {u : State} {d : Bytes} (hr : Reads s u d) (st : Status) (r : Result) :
      ReceiveMoves s (complete st r (degrade u))

/-- What a step of the core can do. -/
inductive Moves (s : State) : State → Prop
  | send {t : State} (h : SendMoves s t) : Moves s t
  | receive {t : State} (h : ReceiveMoves s t) : Moves s t
  | closed (c : Cont) (r : Option Response) : Moves s { doClose s with cont := c, resp := r }

/-! ### Send side -/

theorem writeChunks_moves {cs : List Bytes} {s t : State} (h : writeChunks cs s = .next t) : SendMoves s t := by
  rcases writeChunks_cases h with ⟨u, h1, hw, -⟩ | ⟨e, put, left, u, h1, -, hw, -⟩ |
    ⟨put, c, rest, u, h1, -, -, -, hw, -⟩ | ⟨r, h1⟩
  · rw [eq_comm, finish_next] at h1
    subst h1
    exact .wrote hw u.ep.txq .idle _
  · rw [eq_comm, raise_next] at h1
    subst h1
    exact .wrote hw u.ep.txq .idle _
  · cases h1
    exact .wrote hw u.ep.txq _ u.resp
  · cases h1

theorem drainOnce_moves {s t : State} (h : drainOnce s = .next t) : SendMoves s t := by
  rcases drainOnce_cases h with ⟨-, h1⟩ | ⟨n, u, -, hw, -, h1⟩ | ⟨u, hw, -, h1⟩ | ⟨e, u, hw, -, h1⟩ | ⟨r, h1⟩
  · rw [eq_comm, finish_next] at h1
    subst h1
    exact .answered _ _
  · rw [eq_comm, finish_next] at h1
    subst h1
    exact .wrote hw (s.ep.txq.drop n) .idle _
  · rw [eq_comm, finish_next] at h1
    subst h1
    exact .wrote hw u.ep.txq .idle _
  · rw [eq_comm, raise_next] at h1
    subst h1
    exact .wrote hw u.ep.txq .idle _
  · cases h1

theorem sendSlice_moves {b : Bytes} {o n : Int} {s t : State} (h : sendSlice b o n s = .next t) : SendMoves s t := by
  rcases sendChecks_next h with ⟨-, rfl⟩ | ⟨-, -, rfl⟩ | ⟨-, -, h⟩
  · exact .answered _ _
  · exact .answered _ _
  · split at h
    · unfold sendFrame sendNonBlocking at h
      simp only at h
      split_ifs at h
      · exact writeChunks_moves h
      · have := drainOnce_moves h
        generalize hu : ({ s with ep := { s.ep with txq := s.ep.txq ++ frameEnc (slice b o n) } } : State) = u at this
        cases this with
        | answered st r =>
          subst hu
          exact .wrote (.refl s) (s.ep.txq ++ frameEnc (slice b o n)) .idle _
        | wrote hw q c r =>
          subst hu
          obtain ⟨plan, offered, held, h1, rfl⟩ := hw
          exact .wrote (u := { s with port := _ }) ⟨plan, offered, held, h1, rfl⟩ q c r
    · rw [raise_next] at h
      subst h
      exact .answered _ _

/-- The send-side commands (R90, R137). -/
theorem exec_send_moves {i : Instr} {s t : State} (hi : isSend i) (h : exec i s = .next t) : SendMoves s t := by
  rcases hi with ⟨v, rfl⟩ | ⟨b, o, n, rfl⟩ | rfl <;> obtain ⟨-, h⟩ := whenIdle_next h
  · exact sendSlice_moves h
  · exact sendSlice_moves h
  · rcases sendChecks_next h with ⟨-, rfl⟩ | ⟨-, -, rfl⟩ | ⟨-, -, h⟩
    · exact .answered _ _
    · exact .answered _ _
    · exact drainOnce_moves h

/-! ### Receive side -/

theorem ReceiveMoves.of_reads {s u t : State} {d : Bytes} (hr : Reads s u d) (h : ReceiveMoves u t) :
    ReceiveMoves s t := by
  cases h with
  | answered st r => exact .received hr u.dst u.ep.rxPhase u.ep.rxHdr u.ep.ctx u.ep.rxDesync .idle _
  | received hr' dst ph hdr ctx b c r => exact .received (hr.trans hr') dst ph hdr ctx b c r
  | degraded hr' st r => exact .degraded (hr.trans hr') st r

theorem ReceiveMoves.held {s u : State} {d : Bytes} (hr : Reads s u d) (c : Cont) :
    ReceiveMoves s { u with cont := c } :=
  .received hr u.dst u.ep.rxPhase u.ep.rxHdr u.ep.ctx u.ep.rxDesync c u.resp

theorem deliverPayload_moves {kind : RecvKind} {p : Bytes} {s t : State} (h : deliverPayload kind p s = .next t) :
    ReceiveMoves s t := by
  obtain ⟨d, -, h1⟩ := deliverPayload_eq kind p s
  rw [h1] at h
  cases h
  exact .received (.refl s) d s.ep.rxPhase s.ep.rxHdr s.ep.ctx s.ep.rxDesync .idle _

/-- A read loop and what ends it, whatever becomes of the bytes. -/
theorem readEnded_moves {started : Bool} {k : Bytes → State → Out} {wait : Bytes → Cont} {n : Nat} {acc : Bytes}
    {s t : State} (hk : ∀ b u, k b u = .next t → ReceiveMoves u t)
    (h : readEnded started k wait (readExact n acc s) = .next t) : ReceiveMoves s t := by
  rcases readLoop_cases (rfl : readLoop (s.port.inb.bytes.length + 1) n acc s = _) with
    ⟨d, u, e, -, -, hr, -⟩ | ⟨d, u, e, -, hr, -⟩ | ⟨x, d, u, e, -, hr, -⟩ | ⟨d, u, e, -, hr, -⟩ | ⟨f, e⟩ <;>
    rw [readExact, e] at h <;> simp only [readEnded] at h
  · exact .of_reads hr.reads (hk _ _ h)
  · split at h
    · rw [raise_next] at h
      subst h
      exact .of_reads hr.reads (.answered _ _)
    · rw [degradeAndRaise, finish_next] at h
      subst h
      exact .degraded hr.reads _ _
  · rw [raise_next] at h
    subst h
    exact .received hr.reads u.dst u.ep.rxPhase u.ep.rxHdr u.ep.ctx _ .idle _
  · cases h
    exact .held hr.reads _
  · cases h

theorem readPayload_moves {kind : RecvKind} {n : Nat} {acc : Bytes} {s t : State}
    (h : readPayload kind n acc s = .next t) : ReceiveMoves s t :=
  readEnded_moves (fun _ _ h => deliverPayload_moves h) h

theorem headerResolved_moves {n : Nat} {s t : State} (h : headerResolved n s = .next t) : ReceiveMoves s t := by
  have idle : .next s = (.next t : Out) → ReceiveMoves s t := by
    intro h
    cases h
    exact .held (.refl s) s.cont
  unfold headerResolved at h
  split at h
  · exact idle h
  · exact idle h
  · exact idle h
  · split_ifs at h
    · rw [degradeAndRaise, finish_next] at h
      subst h
      exact .degraded (.refl s) _ _
    · exact readPayload_moves h
  · split_ifs at h
    cases h
    exact .received (.refl s) s.dst _ _ _ s.ep.rxDesync s.cont s.resp

theorem headerInvalid_moves {s t : State} (h : headerInvalid s = .next t) : ReceiveMoves s t := by
  have idle : .next s = (.next t : Out) → ReceiveMoves s t := by
    intro h
    cases h
    exact .held (.refl s) s.cont
  unfold headerInvalid at h
  split at h
  · exact idle h
  · exact idle h
  · exact idle h
  · rw [degradeAndRaise, finish_next] at h
    subst h
    exact .degraded (.refl s) _ _
  · rw [degradeAndRaise, finish_next] at h
    subst h
    exact .degraded (.refl s) _ _

theorem headerInHand_moves {kind : RecvKind} {w : Bytes} {s t : State} (h : headerInHand kind w s = .next t) :
    ReceiveMoves s t := by
  have hr : Reads s { s with cont := .recvHeader kind w } [] := ⟨.recvHeader kind w, .refl _⟩
  unfold headerInHand at h
  cases hd : decodeHeader w with
  | incomplete =>
    rw [hd] at h
    cases h
    exact .held (.refl s) _
  | fetched i k =>
    rw [hd] at h
    rcases decodeHeader_classes hd with ⟨len, rfl, -⟩ | ⟨len, rfl, -⟩ | ⟨rest, rfl, -, rfl⟩
    · exact .of_reads hr (headerResolved_moves h)
    · exact .of_reads hr (headerResolved_moves h)
    · exact .of_reads hr (headerInvalid_moves h)

theorem readHeader_moves {kind : RecvKind} {acc : Bytes} {s t : State} (h : readHeader kind acc s = .next t) :
    ReceiveMoves s t := by
  refine readEnded_moves (fun w u h => ?_) h
  split at h
  · exact headerInHand_moves h
  · exact readEnded_moves (fun _ _ h => headerInHand_moves h) h

theorem assembleHeld_moves {s t : State} {inBytes : Bytes} {out : List Value} (hc : s.cont = .assembling inBytes out)
    (h : assembleHeld s = .next t) : ReceiveMoves s t := by
  rcases assembleHeld_cases hc with ⟨u, vs, h1, ph, hdr, ctx, c, rfl⟩ | ⟨vs, h1⟩ | ⟨r, h1⟩ <;> rw [h1] at h
  · cases h
    exact .received (.refl s) s.dst ph hdr ctx s.ep.rxDesync .idle _
  · cases h
    exact .degraded (.refl s) _ _
  · cases h

theorem assemble_moves {s t : State} {b : Bytes} (h : assemble b s = .next t) : ReceiveMoves s t :=
  .of_reads ⟨.assembling b [], .refl _⟩ (assembleHeld_moves (s := { s with cont := .assembling b [] }) rfl h)

theorem readOnce_moves {max : Nat} {s t : State} (hm : 1 ≤ max) (h : readOnce max s = .next t) : ReceiveMoves s t := by
  unfold readOnce at h
  rcases tRead_cases hm s with ⟨b, u, e, -, -, hr, -⟩ | e | ⟨e, -⟩ | ⟨x, e⟩ | ⟨e, -⟩ | ⟨f, e⟩ <;> rw [e] at h <;>
    simp only at h
  · exact .of_reads hr.reads (assemble_moves h)
  · exact .of_reads (ReadsOnly.issued hm s).reads (assemble_moves h)
  · exact .of_reads (ReadsOnly.issued hm s).reads (assemble_moves h)
  · rw [raise_next] at h
    subst h
    exact .of_reads (ReadsOnly.issued hm s).reads (.answered _ _)
  · cases h
  · cases h

/-- The receive commands (R105, R137). -/
theorem exec_receive_moves {i : Instr} {s t : State} {b : Bool} (hi : isReceive b i) (h : exec i s = .next t) :
    ReceiveMoves s t := by
  have checks : ∀ {k : Out}, recvChecks s k = .next t → (k = .next t → ReceiveMoves s t) → ReceiveMoves s t := by
    intro k h hk
    rcases recvChecks_next h with ⟨-, rfl⟩ | ⟨-, -, rfl⟩ | ⟨-, -, -, h⟩
    · exact .answered _ _
    · exact .answered _ _
    · exact hk h
  unfold isReceive at hi
  split at hi
  · rcases hi with rfl | rfl | ⟨c, rfl⟩ <;> obtain ⟨-, h⟩ := whenIdle_next h <;> obtain ⟨-, h⟩ := onlyInMode_next h
    · exact checks h readHeader_moves
    · exact checks h readHeader_moves
    · refine checks h fun h => ?_
      rcases nonNegative_next h with ⟨-, rfl⟩ | ⟨-, h⟩
      · exact .answered _ _
      · exact readHeader_moves h
  · obtain ⟨m, rfl⟩ := hi
    obtain ⟨-, h⟩ := whenIdle_next h
    obtain ⟨-, h⟩ := onlyInMode_next h
    refine checks h fun h => ?_
    rcases nonNegative_next h with ⟨-, rfl⟩ | ⟨-, h⟩
    · exact .answered _ _
    · split at h
      · cases h
      · exact readOnce_moves (by omega) h

/-! ### Any instruction, any step -/

theorem execClose_moves {s t : State} (h : execClose s = .next t) : Moves s t := by
  obtain ⟨-, h⟩ := whenIdle_next h
  rw [finish_next] at h
  subst h
  unfold closeOnce
  split
  · exact .send (.answered _ _)
  · exact .closed .idle _

/-- What an instruction can do. -/
theorem exec_moves {i : Instr} {s t : State} (h : exec i s = .next t) : Moves s t := by
  have codec : ∀ {st r}, finish st r s = .next t → Moves s t := by
    intro st r h
    rw [finish_next] at h
    subst h
    exact .send (.answered _ _)
  cases i with
  | hdrEnc n =>
    obtain ⟨-, h⟩ := whenIdle_next h
    split at h
    · cases h
    · exact codec h
  | hdrParse b => exact codec (whenIdle_next h).2
  | frameEnc p =>
    obtain ⟨-, h⟩ := whenIdle_next h
    split at h
    · cases h
    · exact codec h
  | send v => exact .send (exec_send_moves (.inl ⟨v, rfl⟩) h)
  | sendBytes b o n => exact .send (exec_send_moves (.inr (.inl ⟨b, o, n, rfl⟩)) h)
  | drain => exact .send (exec_send_moves (.inr (.inr rfl)) h)
  | recv => exact .receive (exec_receive_moves (b := true) (.inl rfl) h)
  | recvBytes => exact .receive (exec_receive_moves (b := true) (.inr (.inl rfl)) h)
  | recvBytesInto c => exact .receive (exec_receive_moves (b := true) (.inr (.inr ⟨c, rfl⟩)) h)
  | recvNb m => exact .receive (exec_receive_moves (b := false) ⟨m, rfl⟩ h)
  | close => exact execClose_moves h
  | reserved0 => cases h
  | reservedCF low => cases h
  | small len => exact .receive (headerResolved_moves h)
  | large len => exact .receive (headerResolved_moves h)
  | invalidHdr rest => exact .receive (headerInvalid_moves h)

/-- What going on with the executing command can do. -/
theorem resume_moves {s t : State} (h : resume s = .next t) : Moves s t := by
  unfold resume at h
  split at h
  · cases h
    exact .receive (.held (.refl s) s.cont)
  · exact .send (writeChunks_moves h)
  · exact .receive (readHeader_moves h)
  · exact .receive (readPayload_moves h)
  · exact .receive (assembleHeld_moves ‹_› h)

/-- What the core can find to do. -/
theorem fetch_cases (s : State) :
    (fetch s = .nothing ∧ s.cont = .idle) ∨ (fetch s = .executing ∧ s.cont ≠ .idle) ∨
    (∃ c i q, decodeCommand c = .ok i ∧ fetch s = .instr i { s with hostQ := q }) ∨ (∃ op, fetch s = .malformed op) ∨
    (∃ q, fetch s = .ownerGone { s with hostQ := q } ∧ s.cont = .idle) := by
  have cmd : ∀ c q, (∃ c' i q', decodeCommand c' = .ok i ∧
      fetchCommand c { s with hostQ := q } = .instr i { s with hostQ := q' }) ∨
      ∃ op, fetchCommand c { s with hostQ := q } = .malformed op := by
    intro c q
    unfold fetchCommand
    split
    · exact .inl ⟨c, _, q, ‹_›, rfl⟩
    · exact .inr ⟨_, rfl⟩
  unfold fetch
  split
  · split
    · exact .inl ⟨rfl, ‹_›⟩
    · exact .inr (.inl ⟨rfl, ‹_›⟩)
  · split
    · rcases cmd _ _ with h | h
      · exact .inr (.inr (.inl h))
      · exact .inr (.inr (.inr (.inl h)))
    · exact .inr (.inl ⟨rfl, ‹_›⟩)
  · rcases cmd _ _ with h | h
    · exact .inr (.inr (.inl h))
    · exact .inr (.inr (.inr (.inl h)))
  · split
    · exact .inr (.inr (.inr (.inr ⟨_, rfl, ‹_›⟩)))
    · exact .inr (.inl ⟨rfl, ‹_›⟩)

/-- The command decoder reads no wire header, and a reserved code does not run (R69, R71). -/
theorem decodeCommand_isCommand {c : Command} {i : Instr} {s t : State} (hd : decodeCommand c = .ok i)
    (h : exec i s = .next t) : isCommand i = true := by
  unfold decodeCommand at hd
  split at hd <;> cases hd <;> first | rfl | cases h

/-- What a step can do: the peer moves, or the core moves from a state in which at most the inputs have
been taken. -/
theorem step_cases {s t : State} (h : step s = .next t) :
    (∃ a rest, s.agenda = .peer a :: rest ∧ t = peerMove a { s with agenda := rest }) ∨
    ∃ u q g, u = { s with hostQ := q, agenda := g } ∧
      ((∃ i, isCommand i = true ∧ exec i u = .next t) ∨ (u.cont ≠ .idle ∧ resume u = .next t) ∨ (u.cont = .idle ∧ t = u) ∨
        (u.cont = .idle ∧ t = closeOnce u)) := by
  have core : ∀ v g, v = { s with agenda := g } → coreMove v = .next t →
      ∃ u q g, u = { s with hostQ := q, agenda := g } ∧
        ((∃ i, isCommand i = true ∧ exec i u = .next t) ∨ (u.cont ≠ .idle ∧ resume u = .next t) ∨ (u.cont = .idle ∧ t = u) ∨
          (u.cont = .idle ∧ t = closeOnce u)) := by
    rintro v g rfl h
    unfold coreMove at h
    rcases fetch_cases { s with agenda := g } with ⟨e, hc⟩ | ⟨e, hc⟩ | ⟨c, i, q, hd, e⟩ | ⟨op, e⟩ | ⟨q, e, hc⟩ <;> rw [e] at h <;>
      simp only at h
    · cases h
      exact ⟨_, s.hostQ, g, rfl, .inr (.inr (.inl ⟨hc, rfl⟩))⟩
    · exact ⟨_, s.hostQ, g, rfl, .inr (.inl ⟨hc, h⟩)⟩
    · exact ⟨_, q, g, rfl, .inl ⟨i, decodeCommand_isCommand hd h, h⟩⟩
    · cases h
    · obtain ⟨-, h⟩ := whenIdle_next h
      cases h
      exact ⟨_, q, g, rfl, .inr (.inr (.inr ⟨hc, rfl⟩))⟩
  unfold step at h
  split at h
  · exact .inr (core s s.agenda rfl h)
  · exact .inr (core _ _ rfl h)
  · cases h
    exact .inl ⟨_, _, ‹_›, rfl⟩
  · obtain ⟨hc, h⟩ := whenIdle_next h
    cases h
    exact .inr ⟨_, s.hostQ, _, rfl, .inr (.inr (.inr ⟨hc, rfl⟩))⟩

end Sys2Proof.Machine
end

