-- ==== Sys2Proof/Tests/Slice0.lean ====
section
/-! SUPPORT. The model's own tests: the well-formedness smoke test, words written out from the spec's encodings, one
step against the vectors of 95_test_vectors.md, and a witness for the hypotheses of each statement. -/

namespace Sys2Proof.Tests
open Sys2Proof.Machine

/-! ### Helpers -/

/-- An endpoint with these creation arguments, the defaults of R7 and the identity serializer. -/
def endpoint (blocking r w : Bool) (hRd hWr : Handle) : State :=
  State.create { Params.initial with readable0 := r, writable0 := w } blocking hRd hWr

/-- With these bytes on the inbound wire, the far writer closed or not, and these read choices. -/
def receiving (b : Bytes) (wclosed : Bool) (plan : List ReadChoice) (s : State) : State :=
  { s with port := { s.port with inb := ⟨b, wclosed, false⟩, readPlan := ⟨plan, .all⟩ } }

/-- With this queue and these write choices. -/
def sending (q : Bytes) (plan : List WriteChoice) (s : State) : State :=
  { s with ep := { s.ep with txq := q }, port := { s.port with writePlan := ⟨plan, .all⟩ } }

def next? : Out → Option State
  | .next s => some s
  | .fault _ => none
  | .refused _ => none

def refused? : Out → Option Refusal
  | .next _ => none
  | .fault _ => none
  | .refused r => some r

/-- What a test looks at in the state a step leaves. -/
def see {α : Type} (o : Out) (f : State → α) : Option α := (next? o).map f

/-! ### Well-formedness -/

theorem test_wf_escape_is_no_illegal_word : (Instr.invalidHdr 0x7FFFFFFF).wf = false := by decide

theorem test_wf_illegal_word : (Instr.invalidHdr 0x7FFFFFFE).wf = true := by decide

/-! ### Words written out from the encodings of 30_encoding.md -/

theorem test_decode_small : decodeHeader [0x00, 0x00, 0x03, 0xE8, 0xAA] = .fetched (.small 1000) 4 := by decide

theorem test_decode_small_last : decodeHeader [0x7F, 0xFF, 0xFF, 0xFF] = .fetched (.small 0x7FFFFFFF) 4 := by decide

theorem test_decode_large_byte_order :
    decodeHeader [0xFF, 0xFF, 0xFF, 0xFF, 1, 2, 3, 4, 5, 6, 7, 8] =
      .fetched (.large 0x0102030405060708) 12 := by decide

theorem test_decode_invalid : decodeHeader [0xFF, 0xFF, 0xFF, 0xFE] = .fetched (.invalidHdr 0x7FFFFFFE) 4 := by decide

theorem test_decode_invalid_first :
    decodeHeader [0x80, 0, 0, 0, 0, 0, 0, 0, 0, 0, 0, 0] = .fetched (.invalidHdr 0) 4 := by decide

theorem test_decode_three_bytes_undecided : decodeHeader [0xFF, 0xFF, 0xFF] = .incomplete := by decide

theorem test_decode_escape_undecided :
    decodeHeader [0xFF, 0xFF, 0xFF, 0xFF, 0, 0, 0, 0, 0, 0, 0] = .incomplete := by decide

theorem test_encode_small : encode (.small 0x01020304) = .header [1, 2, 3, 4] := by decide

theorem test_encode_large :
    encode (.large 0x80000000) = .header [0xFF, 0xFF, 0xFF, 0xFF, 0, 0, 0, 0, 0x80, 0, 0, 0] := by decide

/-- The code of every row of the table, as the host numbers its word. -/
theorem test_table_command_codes :
    (List.range 16).map (decodeTableWord 8) =
      [some .reserved0, some (.hdrEnc 0), some (.hdrParse []), some (.frameEnc []), some (.send []),
       some (.sendBytes [] 0 0), some .drain, some .recv, some .recvBytes, some (.recvBytesInto 0),
       some (.recvNb 0), some .close, some (.reservedCF 0), some (.reservedCF 1), some (.reservedCF 2),
       some (.reservedCF 3)] := by decide

theorem test_table_upper_bits_are_no_code : decodeTableWord 8 0x15 = none := by decide

theorem test_table_headers :
    decodeTableWord 32 0x000003E8 = some (.small 1000) ∧
    decodeTableWord 96 (0x0000000200000000 * 2 ^ 32 + 0xFFFFFFFF) = some (.large 0x0000000200000000) ∧
    decodeTableWord 32 0xFFFFFFFF = some (.large 0) ∧
    decodeTableWord 32 0x80000001 = some (.invalidHdr 1) := by decide

/-! ### One step against 95_test_vectors.md -/

/-- V1: the first LARGE header. -/
theorem test_hdrEnc_first_large :
    see (exec (.hdrEnc 2147483648) State.reset) State.resp =
      some (some ⟨.ok, .bytes [0xFF, 0xFF, 0xFF, 0xFF, 0, 0, 0, 0, 0x80, 0, 0, 0]⟩) := by decide

/-- V1: the last two rows are refused. -/
theorem test_hdrEnc_refused :
    refused? (exec (.hdrEnc (2 ^ 64)) State.reset) = some .lengthNotEncodable ∧
    refused? (exec (.hdrEnc (-1)) State.reset) = some .lengthNotEncodable := by decide

/-- V2: a non-canonical LARGE header is accepted, and bytes beyond it ignored. -/
theorem test_hdrParse_noncanonical :
    see (exec (.hdrParse [0xFF, 0xFF, 0xFF, 0xFF, 0, 0, 0, 0, 0, 0, 0, 2, 0xAA, 0xBB]) State.reset) State.resp =
      some (some ⟨.ok, .parse (.header 2 12)⟩) := by decide

/-- V2: later bytes do not rescue an illegal word. -/
theorem test_hdrParse_invalid :
    see (exec (.hdrParse [0x80, 0, 0, 0, 0, 0, 0, 0, 0, 0, 0, 0]) State.reset) State.resp =
      some (some ⟨.ok, .parse .invalid⟩) := by decide

/-- V3: a payload that looks like an escape is carried unchanged. -/
theorem test_frameEnc_escape_payload :
    see (exec (.frameEnc [0xFF, 0xFF, 0xFF, 0xFF]) State.reset) State.resp =
      some (some ⟨.ok, .bytes [0, 0, 0, 4, 0xFF, 0xFF, 0xFF, 0xFF]⟩) := by decide

/-- P1, command 1. -/
theorem test_send_blocking :
    see (exec (.send [0x66, 0x6F, 0x6F]) State.reset) (fun t => (t.resp, t.port.outb.bytes, t.port.calls, t.ep.flags)) =
      some (some ⟨.ok, .none⟩, [0, 0, 0, 3, 0x66, 0x6F, 0x6F],
        [.write 0 [0, 0, 0, 3, 0x66, 0x6F, 0x6F]], 0x07) := by decide

/-- V8: the empty value meets would-block and stays queued as the zero-length frame. -/
theorem test_send_nonblocking_empty :
    see (exec (.send []) (sending [] [.wouldBlock] (endpoint false false true 0 0)))
      (fun t => (t.resp, t.ep.txq, t.port.outb.bytes)) =
      some (some ⟨.ok, .none⟩, [0, 0, 0, 0], []) := by decide

/-- V6, row 4: the header goes out, then an error; a header with no payload stays on the wire. -/
theorem test_sendBytes_blocking_error :
    see (exec (.sendBytes [0x66, 0x6F, 0x6F] 0 3) (sending [] [.wrote 4, .err 9] State.reset))
      (fun t => (t.resp, t.port.outb.bytes, t.ep == State.reset.ep)) =
      some (some ⟨.transportError 9, .none⟩, [0, 0, 0, 3], true) := by decide

/-- V5: 2 + (2^64 - 2) does not wrap; V8, row 7: the old bytes are offered first. -/
theorem test_sendBytes_sum_and_queue :
    see (exec (.sendBytes [0x61, 0x62, 0x63, 0x64, 0x65] 2 (2 ^ 64 - 2)) State.reset) State.resp =
      some (some ⟨.validationError, .none⟩) ∧
    see (exec (.sendBytes [0x68, 0x69] 0 2) (sending [0x6F, 0x6F] [.wrote 1] (endpoint false true true 0 0)))
      (fun t => (t.resp, t.ep.txq, t.port.calls)) =
      some (some ⟨.ok, .none⟩, [0x6F, 0, 0, 0, 2, 0x68, 0x69],
        [.write 0 [0x6F, 0x6F, 0, 0, 0, 2, 0x68, 0x69]]) := by decide

/-- V9, row 2. -/
theorem test_drain_partial :
    see (exec .drain (sending [0x6F, 0x6F, 0, 0, 0, 2, 0x68, 0x69] [.wrote 5] (endpoint false false true 0 0)))
      (fun t => (t.resp, t.ep.txq)) = some (some ⟨.ok, .none⟩, [2, 0x68, 0x69]) := by decide

/-- The far reader has gone. -/
def farGone (e : TErr) (s : State) : State :=
  { s with port := { s.port with outb := { s.port.outb with rclosed := true }, goneErr := e } }

/-- V9, row 1: an empty queue makes no transport call; U21: the reference transport's error once the far reader has
gone, with the queue kept (V9, row 4). -/
theorem test_drain_empty_and_far_reader_gone :
    see (exec .drain (sending [] [.err 1] (endpoint false false true 0 0))) (fun t => (t.resp, t.port.calls)) =
      some (some ⟨.ok, .none⟩, []) ∧
    see (exec .drain (farGone 32 (sending [1, 2] [] (endpoint false false true 0 0))))
      (fun t => (t.resp, t.ep.txq, t.port.outb.bytes)) = some (some ⟨.transportError 32, .none⟩, [1, 2], []) := by decide

/-- P1, command 2. -/
theorem test_recv_value :
    see (exec .recv (receiving [0, 0, 0, 3, 0x66, 0x6F, 0x6F] false [] State.reset))
      (fun t => (t.resp, t.port.inb.bytes, t.port.calls)) =
      some (some ⟨.ok, .value [0x66, 0x6F, 0x6F]⟩, [], [.read 0 4, .read 0 3]) := by decide

/-- P5, run (b), command 3: truncation closes a read-only endpoint. -/
theorem test_recv_truncated :
    see (exec .recv (receiving [0, 0, 0, 3, 0x66] true [] (endpoint true true false 7 0)))
      (fun t => (t.resp, t.ep.flags, t.port.calls)) =
      some (some ⟨.truncatedMessageError, .none⟩, 0x0C,
        [.read 7 4, .read 7 3, .read 7 2, .close 7]) := by decide

/-- The example of R108: requests of 4, 2, 3 and 2 bytes. -/
theorem test_recvBytes_split :
    see (exec .recvBytes
      (receiving [0, 0, 0, 3, 0x66, 0x6F, 0x6F] false [.take 2, .take 2, .take 1, .take 2] State.reset))
      (fun t => (t.resp, t.port.calls)) =
      some (some ⟨.ok, .bytes [0x66, 0x6F, 0x6F]⟩, [.read 0 4, .read 0 2, .read 0 3, .read 0 2]) := by decide

/-- V11, row 2: an error after two bytes marks the receiver. -/
theorem test_recvBytes_desync :
    see (exec .recvBytes (receiving [0, 0] false [.take 2, .err 5] State.reset))
      (fun t => (t.resp, t.ep.rxDesync, t.ep.flags)) =
      some (some ⟨.transportError 5, .none⟩, true, 0x07) := by decide

/-- V12, row 2: the bytes beyond the payload stay. -/
theorem test_recvBytesInto_writes :
    see (exec (.recvBytesInto 10)
      { receiving [0, 0, 0, 3, 0x66, 0x6F, 0x6F] false [] State.reset with
        dst := (List.range 10).map fun a => (a, 0xEE) })
      (fun t => (t.resp, (List.range 10).map t.dst.read)) =
      some (some ⟨.ok, .count 3⟩, [0x66, 0x6F, 0x6F, 0xEE, 0xEE, 0xEE, 0xEE, 0xEE, 0xEE, 0xEE]) := by decide

/-- P6, command 1: a short destination half-closes a duplex endpoint; the payload stays unread. -/
theorem test_recvBytesInto_short :
    see (exec (.recvBytesInto 10) (receiving [0, 0, 0x03, 0xE8, 0x41, 0x42] false [] State.reset))
      (fun t => (t.resp, t.ep.flags, t.port.inb.bytes, t.dst.isEmpty, t.port.calls)) =
      some (some ⟨.badMessageLengthError, .none⟩, 0x06, [0x41, 0x42], true, [.read 0 4]) := by decide

/-- V15 (c): the tail of one frame, a whole one, the head of a third. -/
theorem test_recvNb_three_frames :
    see (exec (.recvNb 64)
      { receiving [0x69, 0, 0, 0, 1, 0x41, 0, 0] false [] (endpoint false true false 0 0) with
        ep := { (endpoint false true false 0 0).ep with rxPhase := .inProgress, ctx := some ⟨[0x68], 1⟩ } })
      (fun t => (t.resp, t.ep.rxPhase, t.ep.rxHdr, t.ep.ctx)) =
      some (some ⟨.ok, .values [[0x68, 0x69], [0x41]]⟩, .awaitingHeader, [0, 0], none) := by decide

/-- V15 (d): a good frame, then an illegal word, on a duplex endpoint. -/
theorem test_recvNb_illegal_word :
    see (exec (.recvNb 64)
      (receiving [0, 0, 0, 1, 0x41, 0xFF, 0xFF, 0xFF, 0xFE, 0, 0] false [] (endpoint false true true 0 0)))
      (fun t => (t.resp, t.ep.flags, t.ep.rxHdr)) =
      some (some ⟨.badMessageLengthError, .values [[0x41]]⟩, 0x02, []) := by decide

/-- V16: a pipe pair is closed read handle first; the queue is dropped without a write. -/
theorem test_close_pipe_pair :
    see (exec .close (sending [1, 2, 3] [] (endpoint false true true 3 4)))
      (fun t => (t.resp, t.ep.flags, t.ep.txq, t.port.calls, t.port.outb.bytes)) =
      some (some ⟨.ok, .none⟩, 0x08, [], [.close 3, .close 4], []) := by decide

/-- V16: one TClose for a shared handle. -/
theorem test_close_shared :
    see (exec .close State.reset) (fun t => (t.ep.flags, t.port.calls)) = some (0x0C, [.close 0]) := by decide

/-- V17: the reserved codes are refused, and RECV_NB on a blocking endpoint. -/
theorem test_reserved_refused :
    refused? (exec .reserved0 State.reset) = some (.reservedCode 0) ∧
    refused? (exec (.reservedCF 2) State.reset) = some (.reservedCode 0xE) ∧
    refused? (exec (.recvNb 32) State.reset) = some .wrongVariant := by decide

/-- Step fetches and runs a command placed by its table word. -/
theorem test_step_command :
    see (step (State.reset.withFetchWord 8 0x5)) (fun t => (t.resp, t.port.outb.bytes)) =
      some (some ⟨.ok, .none⟩, [0, 0, 0, 0]) := by decide

/-- Step fetches and runs a SMALL header: the receive waits for the payload it declares. -/
theorem test_step_small :
    see (step (State.reset.withFetchWord 32 3)) (fun t => (t.cont, t.port.calls)) =
      some (.recvPayload .bytes 3 [], [.read 0 4, .read 0 3]) := by decide

/-- V15 (h): a header alone, on a non-blocking endpoint. -/
theorem test_step_small_nonblocking :
    see (step ((endpoint false true false 0 0).withFetchWord 32 3)) (fun t => (t.resp, t.ep.rxPhase, t.ep.ctx)) =
      some (some ⟨.ok, .values []⟩, .inProgress, some ⟨[], 3⟩) := by decide

/-- Step fetches and runs a LARGE header (R67: a length of zero is accepted). -/
theorem test_step_large :
    see (step (State.reset.withFetchWord 96 0xFFFFFFFF)) (fun t => (t.resp, t.port.calls)) =
      some (some ⟨.ok, .bytes []⟩, [.read 0 4, .read 0 8]) := by decide

/-- Step fetches and runs an illegal header (V10, last row, on a duplex endpoint). -/
theorem test_step_invalid :
    see (step (State.reset.withFetchWord 32 0x80000000)) (fun t => (t.resp, t.ep.flags)) =
      some (some ⟨.badMessageLengthError, .none⟩, 0x06) := by decide

/-- V6, row 2, up to its zero-progress answer: the command goes on with the five bytes left. -/
theorem test_zero_progress_waits :
    see (exec (.send [0x66, 0x6F, 0x6F]) (sending [] [.wrote 2, .wrote 0, .wrote 5] State.reset))
      (fun t => (t.cont, t.port.outb.bytes)) =
      some (.writing [0, 3, 0x66, 0x6F, 0x6F] [], [0, 0]) := by decide

/-- A read outstanding on the port. -/
def outstanding (s : State) : State :=
  { s with cont := .recvHeader .bytes [], port := { s.port with calls := [.read s.ep.hRd 4], held := true } }

/-- R41: a held read is one request, however many steps it waits, and when it is answered. -/
theorem test_held_read_is_one_request :
    see (step (outstanding State.reset)) (fun t => (t.cont, t.port.calls, t.port.held)) =
      some (.recvHeader .bytes [], [.read 0 4], true) ∧
    see (step (outstanding (receiving [0, 0, 0, 0] false [] State.reset))) (fun t => (t.resp, t.port.calls, t.port.held)) =
      some (some ⟨.ok, .bytes []⟩, [.read 0 4], false) := by decide

/-- R54: what the peer writes once this endpoint has closed its reader joins no wire. -/
theorem test_peer_writes_after_close :
    see (step { State.reset with
      agenda := [.peer (.writes [1])], port := { State.reset.port with inb := ⟨[7], false, true⟩ } })
      (fun t => t.port.inb.bytes) = some [7] := by decide

/-- R141, R53: destruction of the owner while a receive is held. -/
theorem test_owner_destroyed_while_held :
    refused? (step { outstanding State.reset with agenda := [.ownerDestroyed] }) = some .overlappingCommand := by decide

/-- R7: a serializer of a type of two values. -/
def boolSerializer : Serializer where
  isValue v := decide (v = [0] ∨ v = [1])
  encode v := v
  decode b := if b = [1] then [1] else [0]
  decode_isValue b := by by_cases h : b = [1] <;> simp [h]
  law v hv := by
    rcases of_decide_eq_true hv with rfl | rfl <;> rfl

theorem test_value_type_may_be_finite :
    boolSerializer.isValue [2] = false ∧ boolSerializer.decode (boolSerializer.encode [1]) = [1] := by decide

/-! ### Witnesses: for each statement with hypotheses, a state and operands that meet all of them -/

def runs : Out → Bool
  | .next _ => true
  | .fault _ => false
  | .refused _ => false

theorem runs_next {o : Out} (h : runs o = true) : ∃ t, o = .next t := by
  cases o with
  | next t => exact ⟨t, rfl⟩
  | fault f => cases h
  | refused r => cases h

/-- A non-blocking duplex endpoint. -/
def nb : State := endpoint false true true 0 0

/-- `State.reset` once closed. -/
def shut : State := { State.reset with ep := State.reset.ep.shut, port := { State.reset.port with calls := [.close 0] } }

/-- With a command waiting on the host port. -/
def presented (c : Command) (s : State) : State := { s with hostQ := [.command c] }

/-- A blocking send of three bytes that is executing, in two chunks. -/
def writing (plan : List WriteChoice) : State := { sending [] plan State.reset with cont := .writing [1, 2] [[3]] }

/-- A blocking receive that has these header bytes. -/
def headed (acc : Bytes) (s : State) : State := { s with cont := .recvHeader .bytes acc }

/-- A blocking receive that has these of its `n` payload bytes. -/
def halfPaid (n : Nat) (acc : Bytes) (s : State) : State := { s with cont := .recvPayload .bytes n acc }

theorem inv_reset_sending : Inv (presented ⟨0x4, [.value [1]]⟩ State.reset) := by constructor <;> decide

theorem witness_EveryStepKeepsTheInvariant :
    Inv (presented ⟨0x4, [.value [1]]⟩ State.reset) ∧
      ∃ t, step (presented ⟨0x4, [.value [1]]⟩ State.reset) = .next t :=
  ⟨inv_reset_sending, runs_next (by decide)⟩

/-- A step that closes: every clause of the statement has its premise met. -/
theorem witness_CapabilitiesOnlyShrink :
    State.reset.ep.writable = true ∧
      (∃ t, step (presented ⟨0xB, []⟩ State.reset) = .next t ∧ t.ep.writable = false) ∧
      shut.ep.closed = true ∧ ∃ t, step shut = .next t :=
  ⟨rfl, ⟨_, rfl, rfl⟩, rfl, ⟨_, rfl⟩⟩

/-- Between commands, with and without a context, and a held receive. -/
theorem witness_StatusViewShowsTheFields :
    (nb.cont = .idle ∧ nb.ep.ctx = none ∧ Inv nb) ∧
      ({ nb.ep with ctx := some ⟨[], 1⟩ } : Endpoint).ctx = some ⟨[], 1⟩ ∧ (headed [] State.reset).cont ≠ .idle :=
  ⟨⟨rfl, rfl, by constructor <;> decide⟩, rfl, by decide⟩

/-- Both forms of the tail: two header bytes kept, and a context in progress. -/
theorem witness_NoReceivedByteIsLostOrReordered :
    let s₁ : State := receiving [1, 0x41, 9] false [] { nb with ep := { nb.ep with rxHdr := [0, 0, 0] } }
    let s₂ : State :=
      receiving [0x42, 9] false [] { nb with ep := { nb.ep with rxPhase := .inProgress, ctx := some ⟨[0x41], 1⟩ } }
    (canReceive s₁ ∧ s₁.ep.blocking = false ∧ s₁.port.inb.bytes = [1, 0x41] ++ [9] ∧
      s₁.ep.receiveOk s₁.params.rxCap = true ∧ isTail s₁.ep [0, 0, 0] ∧ s₁.params.rxCap = none ∧
      ∃ t, exec (.recvNb 2) (nextReadGives 2 s₁) = .next t) ∧
    (canReceive s₂ ∧ s₂.ep.blocking = false ∧ s₂.port.inb.bytes = [0x42] ++ [9] ∧
      s₂.ep.receiveOk s₂.params.rxCap = true ∧ isTail s₂.ep [0, 0, 0, 2, 0x41] ∧
      ∃ t, exec (.recvNb 1) (nextReadGives 1 s₂) = .next t) := by
  refine ⟨⟨by decide, by decide, rfl, by decide, .inl ⟨rfl, rfl, rfl⟩, rfl, runs_next (by decide)⟩,
    by decide, by decide, rfl, by decide, .inr ⟨rfl, rfl, _, [0, 0, 0, 2], rfl, by decide, by decide, rfl⟩,
    runs_next (by decide)⟩

theorem witness_RequestsAreNeverEmpty : ∃ t, step (presented ⟨0x4, [.value []]⟩ State.reset) = .next t :=
  runs_next (by decide)

theorem witness_OverlappingCommandIsRefused :
    let s : State := { headed [] State.reset with hostQ := [.intrude ⟨0x6, []⟩] }
    isCommand .drain = true ∧ s.cont ≠ .idle ∧ s.agenda = [] ∧ s.hostQ = .intrude ⟨0x6, []⟩ :: [] ∧
      decodeCommand ⟨0x6, []⟩ = .ok .drain := by decide

theorem witness_DecodeReadsBackEveryEncoding :
    (Instr.small 0x7FFFFFFF).wf = true ∧ (Instr.large 0).wf = true ∧ (Instr.invalidHdr 0x7FFFFFFE).wf = true ∧
      (Instr.sendBytes [1] (-1) 2).wf = true ∧ (Instr.reservedCF 3).wf = true := by decide

/-- DRAIN with an operand, FRAME_ENC with none; header bytes undecided, and with a byte after them. -/
theorem witness_DecoderRefusals :
    (1 ≤ (0x6 : BitVec 4).toNat ∧ (0x6 : BitVec 4).toNat ≤ 0xB ∧ ∀ i, encode i ≠ .command ⟨0x6, [.int 0]⟩) ∧
      (presented ⟨0x6, [.int 0]⟩ State.reset).agenda = [] ∧ (presented ⟨0x6, [.int 0]⟩ State.reset).cont = .idle ∧
      ((0x5 : BitVec 4).toNat ≤ 0xB ∧ 4 ≤ (List.replicate 4 (Operand.int 0)).length) ∧
      (0x3 : BitVec 4).toNat ∈ [0x1, 0x2, 0x3, 0x4, 0x5, 0x9, 0xA] ∧ isHeaderPrefix [0, 0, 0] = true ∧
      isHeader [0, 0, 0, 1] 1 ∧ isIllegalWord [0x80, 0, 0, 0] ∧ ([7] : Bytes) ≠ [] := by
  refine ⟨⟨by decide, by decide, fun i => ?_⟩, by decide⟩
  cases i <;> simp [encode]

/-- Each clause at the edges of its range. -/
theorem witness_FirstWordDecidesTheHeader :
    ([0xFF, 0xFF, 0xFF] : Bytes).length < 4 ∧
    (beNat [0xFF, 0xFF, 0xFF, 0xFF] = 0xFFFFFFFF ∧ (List.replicate 11 (0xFF : Byte)).length < 12) ∧
    beNat ((List.replicate 12 (0xFF : Byte)).take 4) = 0xFFFFFFFF ∧
    beNat [0x7F, 0xFF, 0xFF, 0xFF] < 0x80000000 ∧
    (0x80000000 ≤ beNat [0x80, 0, 0, 0] ∧ beNat [0x80, 0, 0, 0] ≠ 0xFFFFFFFF) ∧
    (0x80000000 ≤ beNat [0xFF, 0xFF, 0xFF, 0xFE] ∧ beNat [0xFF, 0xFF, 0xFF, 0xFE] ≠ 0xFFFFFFFF) := by decide

theorem witness_ReservedCodesAndWrongVariantsAreRefused :
    nb.cont = .idle ∧ nb.ep.blocking = false ∧ State.reset.cont = .idle ∧ State.reset.ep.blocking = true := by decide

theorem witness_HdrEncGivesTheHeader :
    State.reset.cont = .idle ∧ ((0 : Int) ≤ 0x7FFFFFFF ∧ (0x7FFFFFFF : Int) ≤ 0x7FFFFFFF) ∧
      ((0x7FFFFFFF : Int) < 0x80000000 ∧ (0x80000000 : Int) ≤ 2 ^ 64 - 1) ∧ (2 ^ 64 - 1 : Int) < 2 ^ 64 := by decide

theorem witness_FrameEncIsHeaderThenPayload :
    State.reset.cont = .idle ∧ (List.replicate 0x7FFFFFFF (0 : Byte)).length ≤ 0x7FFFFFFF ∧
      (0x7FFFFFFF < (List.replicate 0x80000000 (0 : Byte)).length ∧
        (List.replicate 0x80000000 (0 : Byte)).length ≤ 2 ^ 64 - 1) ∧
      2 ^ 64 - 1 < (List.replicate (2 ^ 64) (0 : Byte)).length := by
  simp only [List.length_replicate]; decide

theorem witness_HdrParseJudgesTheFirstWord :
    State.reset.cont = .idle ∧ ([0xFF, 0xFF, 0xFF] : Bytes).length < 4 ∧
    (beNat [0xFF, 0xFF, 0xFF, 0xFF] = 0xFFFFFFFF ∧ (List.replicate 11 (0xFF : Byte)).length < 12) ∧
    beNat ((List.replicate 12 (0xFF : Byte)).take 4) = 0xFFFFFFFF ∧
    (0x80000000 ≤ beNat [0x80, 0, 0, 0] ∧ beNat [0x80, 0, 0, 0] ≠ 0xFFFFFFFF) ∧
    beNat [0x7F, 0xFF, 0xFF, 0xFF] < 0x80000000 := by decide

theorem witness_CodecLaws :
    (2 ^ 64 - 1 ≤ Config.lenMax ∧ hdrEnc 0x80000000 = [0xFF, 0xFF, 0xFF, 0xFF, 0, 0] ++ [0, 0, 0x80, 0, 0, 0] ∧
      ([0, 0, 0x80, 0, 0, 0] : Bytes) ≠ []) ∧
    hdrEnc 3 = hdrEnc 3 ∧ hdrParse [0, 0, 0, 5, 1] = .header 5 4 ∧
    (hdrParse [0xFF, 0xFF, 0xFF, 0xFF, 0, 0, 0, 0, 0, 0, 0, 5] = .header 5 12 ∧ 5 ≤ Config.smallMax) ∧
    (([7] : Bytes).length ≤ Config.lenMax ∧ hdrParse (frameEnc [7]) = .header 1 4 ∧
      isValue .identity [7] = true ∧ hdrParse (frameEnc (serEncode .identity [7])) = .header 1 4) := by decide

theorem witness_SendChecksComeFirst :
    isSend .drain ∧ shut.cont = .idle ∧ shut.ep.closed = true ∧ (endpoint true true false 0 0).cont = .idle ∧
      (endpoint true true false 0 0).ep.closed = false ∧ (endpoint true true false 0 0).ep.writable = false :=
  ⟨.inr (.inr rfl), by decide⟩

/-- Each test of SEND_BYTES at its first failing value, and -1 for the others. -/
theorem witness_ValidationErrorLeavesNoTrace :
    canSend State.reset ∧ (-1 : Int) < 0 ∧ (2 : Int) > ([1] : Bytes).length ∧
      (1 + 1 : Int) > ([1] : Bytes).length ∧ canReceive nb ∧ nb.ep.blocking = false ∧
      canReceive State.reset ∧ State.reset.ep.blocking = true := by decide

/-- The shortest payload whose length no header carries. -/
theorem witness_UnencodableSendIsRefused :
    framesPayload State.reset (.send (List.replicate (2 ^ 64) 0)) (List.replicate (2 ^ 64) 0) ∧ canSend State.reset ∧
      Config.lenMax < (List.replicate (2 ^ 64) (0 : Byte)).length := by
  refine ⟨.inl ⟨_, rfl, rfl⟩, by decide, ?_⟩
  rw [List.length_replicate]; decide

/-- SEND, and SEND_BYTES of an empty slice at the end of its buffer. -/
theorem witness_BlockingSendWritesTheFrame :
    framesPayload State.reset (.send [1, 2]) [1, 2] ∧ framesPayload State.reset (.sendBytes [1, 2] 2 0) [] ∧
      canSend State.reset ∧ State.reset.ep.blocking = true ∧ ([1, 2] : Bytes).length ≤ Config.lenMax ∧
      eagerWrites State.reset.port :=
  ⟨.inl ⟨_, rfl, rfl⟩, .inr ⟨_, _, _, rfl, by decide⟩, by decide⟩

/-- A send that is waiting after a short write, and one that failed. -/
theorem witness_BlockingSendKeepsEveryByte :
    framesPayload State.reset (.send [1]) [1] ∧
    (∀ plan, canSend (sending [] plan State.reset) ∧ (sending [] plan State.reset).ep.blocking = true) ∧
    (∃ t, exec (.send [1]) (sending [] [.wrote 2, .wrote 0] State.reset) = .next t) ∧
    ∃ t, exec (.send [1]) (sending [] [.wrote 4, .err 9] State.reset) = .next t :=
  ⟨.inl ⟨_, rfl, rfl⟩, fun _ => ⟨⟨rfl, rfl, rfl⟩, rfl⟩, runs_next (by decide), runs_next (by decide)⟩

/-- Each answer, the last byte of the chunk among them, and a send that starts. -/
theorem witness_WriteLoopGoesOnWithTheRest :
    (∀ plan, undisturbed (writing plan) ∧ (writing plan).cont = .writing [1, 2] [[3]]) ∧
      (∃ t, step (writing [.wrote 1]) = .next t) ∧ ([1, 2] : Bytes) ≠ [] ∧
      ((writing [.wrote 2]).port.writePlan.pop.1 = .wrote 2 ∧ 2 ≤ ([1, 2] : Bytes).length) ∧
      (writing [.wrote 0]).port.writePlan.pop.1 = .wrote 0 ∧ (writing [.err 9]).port.writePlan.pop.1 = .err 9 ∧
      ((farGone 9 (writing [])).port.writePlan.pop.1 = .all ∧ (farGone 9 (writing [])).port.outb.rclosed = true) ∧
      ((writing [.hold]).port.writePlan.pop.1 = .hold ∧ (writing [.hold]).ep.blocking = true) ∧
      (framesPayload State.reset (.send [1]) [1] ∧ canSend State.reset ∧ undisturbed State.reset ∧
        chunks State.reset.params.coalesceMax [1] = [0, 0, 0, 1, 1] :: []) :=
  ⟨fun _ => ⟨⟨rfl, rfl⟩, rfl⟩, runs_next (by decide), by decide, by decide, rfl, rfl, by decide, by decide,
    .inl ⟨_, rfl, rfl⟩, by decide⟩

theorem witness_ZeroProgressDiverges :
    let s : State := { writing [] with port := { State.reset.port with writePlan := ⟨[], .wrote 0⟩ } }
    s.agenda = [] ∧ s.hostQ = [] ∧ s.cont = .writing [1, 2] [[3]] ∧ s.port.writePlan = ⟨[], .wrote 0⟩ := by decide

/-- A queue one byte too small, one just large enough, and each answer. -/
theorem witness_NonBlockingSendQueuesAndWritesOnce :
    framesPayload nb (.send [1]) [1] ∧ canSend nb ∧ nb.ep.blocking = false ∧
    exceeds (nb.ep.txq.length + (frameEnc [1]).length) (some 4) = true ∧
    exceeds (nb.ep.txq.length + (frameEnc [1]).length) (some 5) = false ∧
    (sending [] [.wrote 5] nb).port.writePlan.pop.1 = .wrote 5 ∧ 5 ≤ (nb.ep.txq ++ frameEnc [1]).length ∧
    (nb.port.writePlan.pop.1 = .all ∧ nb.port.outb.rclosed = false) ∧
    (sending [] [.wouldBlock] nb).port.writePlan.pop.1 = .wouldBlock ∧
    (sending [] [.err 9] nb).port.writePlan.pop.1 = .err 9 ∧
    ((farGone 9 nb).port.writePlan.pop.1 = .all ∧ (farGone 9 nb).port.outb.rclosed = true ∧
      (farGone 9 nb).port.goneErr = 9) :=
  ⟨.inl ⟨_, rfl, rfl⟩, by decide⟩

theorem witness_DrainWritesTheQueueOnce :
    canSend nb ∧ nb.ep.txq = [] ∧ (∀ plan, canSend (sending [1, 2] plan nb)) ∧ (sending [1, 2] [] nb).ep.txq ≠ [] ∧
    (sending [1, 2] [] nb).ep.blocking = false ∧ (sending [1, 2] [.wrote 2] nb).port.writePlan.pop.1 = .wrote 2 ∧
    (sending [1, 2] [] nb).port.writePlan.pop.1 = .all ∧ (sending [1, 2] [] nb).port.outb.rclosed = false ∧
    (sending [1, 2] [.wouldBlock] nb).port.writePlan.pop.1 = .wouldBlock ∧
    (sending [1, 2] [.err 9] nb).port.writePlan.pop.1 = .err 9 ∧
    (canSend (farGone 9 (sending [1, 2] [] nb)) ∧ (farGone 9 (sending [1, 2] [] nb)).port.writePlan.pop.1 = .all ∧
      (farGone 9 (sending [1, 2] [] nb)).port.outb.rclosed = true) :=
  ⟨by decide, rfl, fun _ => ⟨rfl, rfl, rfl⟩, by decide, rfl, rfl, rfl, rfl, rfl, rfl, by decide⟩

theorem witness_NonBlockingCommandsAreNeverHeld :
    isCommand (.recvNb 1) = true ∧ nb.ep.blocking = false ∧ ∃ t, exec (.recvNb 1) nb = .next t :=
  ⟨rfl, rfl, runs_next (by decide)⟩

theorem witness_RecvChecksComeFirst :
    let marked : State := { State.reset with ep := { State.reset.ep with rxDesync := true } }
    isReceive true .recv ∧ isReceive false (.recvNb 1) ∧ (shut.cont = .idle ∧ shut.ep.closed = true) ∧
    ((endpoint false false true 0 0).ep.closed = false ∧ (endpoint false false true 0 0).ep.readable = false) ∧
    marked.ep.closed = false ∧ marked.ep.readable = true ∧ marked.ep.rxDesync = true :=
  ⟨.inl rfl, ⟨1, rfl⟩, by decide⟩

/-- Each command, a SMALL and a non-canonical LARGE header, a destination that just fits. -/
theorem witness_BlockingReceiveReturnsOneFrame :
    let s := receiving ([0, 0, 0, 1] ++ [7] ++ [8]) false [] State.reset
    let l := receiving ([0xFF, 0xFF, 0xFF, 0xFF, 0, 0, 0, 0, 0, 0, 0, 1] ++ [7] ++ [8]) false [] State.reset
    (isBlockingReceive .recv .value ∧ isBlockingReceive .recvBytes .bytes ∧
      isBlockingReceive (.recvBytesInto 1) (.into 1)) ∧
    (canReceive s ∧ s.ep.blocking = true ∧ eagerReads s.port ∧ isHeader [0, 0, 0, 1] ([7] : Bytes).length ∧
      exceeds 1 s.params.rxCap = false ∧ (RecvKind.into 1).tooSmall 1 = false) ∧
    canReceive l ∧ eagerReads l.port ∧
      isHeader [0xFF, 0xFF, 0xFF, 0xFF, 0, 0, 0, 0, 0, 0, 0, 1] ([7] : Bytes).length :=
  ⟨⟨.inl ⟨rfl, rfl⟩, .inr (.inl ⟨rfl, rfl⟩), .inr (.inr ⟨1, rfl, rfl⟩)⟩, by decide, by decide⟩

theorem witness_BlockingReceiveTakesExactlyOneFrame :
    let s := receiving [0, 0, 0, 1, 7, 8] false [.take 3] State.reset
    isBlockingReceive .recvBytes .bytes ∧ canReceive s ∧ s.ep.blocking = true ∧
      ∃ t, exec .recvBytes s = .next t ∧ t.cont = .idle ∧ t.resp = some ⟨.ok, .bytes [7]⟩ := by
  refine ⟨.inr (.inl ⟨rfl, rfl⟩), by decide, rfl, ?_⟩
  obtain ⟨t, h⟩ := runs_next (o := exec .recvBytes (receiving [0, 0, 0, 1, 7, 8] false [.take 3] State.reset)) (by decide)
  have h' : see (exec .recvBytes (receiving [0, 0, 0, 1, 7, 8] false [.take 3] State.reset)) (fun t => (t.cont, t.resp)) =
      some (.idle, some ⟨.ok, .bytes [7]⟩) := by decide
  rw [h] at h'
  simp only [see, next?, Option.map_some, Option.some.injEq, Prod.mk.injEq] at h'
  exact ⟨t, h, h'⟩

/-- A command that starts, and one held with no byte read. -/
theorem witness_CleanEofChangesNothing :
    let s := receiving [] true [] State.reset
    (isBlockingReceive .recv .value ∧ canReceive s ∧ s.ep.blocking = true ∧ eagerReads s.port ∧
      s.port.inb.bytes = [] ∧ s.port.inb.wclosed = true) ∧
    undisturbed (headed [] s) ∧ (headed [] s).cont = .recvHeader .bytes [] :=
  ⟨⟨.inl ⟨rfl, rfl⟩, by decide⟩, by decide⟩

/-- The end of the stream after the first byte, and after a complete header; a receive held after each. -/
theorem witness_TruncatedFrameDegradesThenRaises :
    let s := receiving [0] true [] State.reset
    (isBlockingReceive .recv .value ∧ canReceive s ∧ s.ep.blocking = true ∧ eagerReads s.port ∧
      isHeader [0, 0, 0, 1] ([7] : Bytes).length ∧ ([0, 0, 0, 1] ++ [7] : Bytes) = [0] ++ [0, 0, 1, 7] ∧
      ([0, 0, 0, 1] ++ [7] : Bytes) = [0, 0, 0, 1] ++ [7] ∧ s.port.inb.wclosed = true ∧
      exceeds 1 s.params.rxCap = false ∧ RecvKind.value.tooSmall 1 = false) ∧
    (undisturbed (headed [0] s) ∧ isHeaderPrefix [0] = true ∧
      [0] ++ (headed [0] (receiving [] true [] State.reset)).port.inb.bytes = [0]) ∧
    [0, 0, 0, 1] ++ [] ++ (halfPaid 1 [] (receiving [] true [] State.reset)).port.inb.bytes = [0, 0, 0, 1] :=
  ⟨⟨.inl ⟨rfl, rfl⟩, by decide⟩, by decide⟩

/-- The first and the last illegal word; a destination one byte too small; a receive held after the first byte. -/
theorem witness_BadLengthDegradesThenRaises :
    let s := receiving [0, 0, 0] false [] State.reset
    isBlockingReceive (.recvBytesInto 1) (.into 1) ∧ canReceive (receiving [0x80, 0, 0, 0] false [] State.reset) ∧
      State.reset.ep.blocking = true ∧ eagerReads State.reset.port ∧ isIllegalWord [0x80, 0, 0, 0] ∧
      isIllegalWord [0xFF, 0xFF, 0xFF, 0xFE] ∧ isHeader [0, 0, 0, 2] 2 ∧
      exceeds 2 State.reset.params.rxCap = false ∧ (RecvKind.into 1).tooSmall 2 = true ∧
      undisturbed (headed [0x80] s) ∧ (headed [0x80] s).cont = .recvHeader .bytes [0x80] ∧
      isHeaderPrefix [0x80] = true ∧ [0x80] ++ (headed [0x80] s).port.inb.bytes = [0x80, 0, 0, 0] ++ [] :=
  ⟨.inr (.inr ⟨1, rfl, rfl⟩), by decide⟩

/-- No byte yet; V11, rows 2 and 3; a receive held with no byte, with one and with eleven; a payload one byte short. -/
theorem witness_ReadErrorMarksTheReceiverMidFrame :
    let s := receiving [] false [.err 5] State.reset
    let a := receiving [0, 0, 0] false [.take 3, .err 5] State.reset
    let b := receiving (be32 1 ++ []) false [.take 4, .err 5] State.reset
    s.ep.blocking = true ∧ s.port.readPlan.pop.1 = .err 5 ∧ isBlockingReceive .recv .value ∧ canReceive s ∧
      (canReceive a ∧ a.port.readPlan.pending = .take 3 :: .err 5 :: [] ∧ 3 ≤ a.port.inb.bytes.length) ∧
      (canReceive b ∧ b.port.readPlan.pending = .take 4 :: .err 5 :: [] ∧ b.port.inb.bytes = be32 1 ++ [] ∧
        exceeds 1 b.params.rxCap = false ∧ RecvKind.value.tooSmall 1 = false) ∧
      (headed [] s).cont = .recvHeader .bytes [] ∧ isHeaderPrefix [] = true ∧
      (headed [0] s).cont = .recvHeader .bytes [0] ∧ isHeaderPrefix [0] = true ∧
      isHeaderPrefix [0xFF, 0xFF, 0xFF, 0xFF, 0, 0, 0, 0, 0, 0, 0] = true ∧
      (halfPaid 2 [7] s).cont = .recvPayload .bytes 2 [7] ∧ ([7] : Bytes).length < 2 ∧
      undisturbed (headed [0] s) ∧ undisturbed (halfPaid 2 [7] s) :=
  ⟨rfl, rfl, .inl ⟨rfl, rfl⟩, by decide⟩

theorem witness_ReceiveIsHeldOnAnEmptyOpenWire :
    isBlockingReceive .recvBytes .bytes ∧ canReceive State.reset ∧ State.reset.ep.blocking = true ∧
      eagerReads State.reset.port ∧ State.reset.port.inb.bytes = [] ∧ State.reset.port.inb.wclosed = false ∧
      (headed [] State.reset).cont = .recvHeader .bytes [] ∧ undisturbed (headed [] State.reset) :=
  ⟨.inr (.inl ⟨rfl, rfl⟩), by decide⟩

/-- A command that starts and is held, one held in its header and one in its payload. -/
theorem witness_BlockingReceiveKeepsEveryByte :
    let s := receiving [0, 0, 0, 2, 7] false [] State.reset
    let a := headed [0] (receiving [0, 0] false [] State.reset)
    let b := halfPaid 2 [7] (receiving [8] false [] State.reset)
    (isBlockingReceive .recvBytes .bytes ∧ canReceive s ∧ s.ep.blocking = true ∧ ∃ t, exec .recvBytes s = .next t) ∧
    (undisturbed a ∧ a.cont = .recvHeader .bytes [0] ∧ isHeaderPrefix [0] = true ∧ ∃ t, step a = .next t) ∧
    (undisturbed b ∧ (∃ t, step b = .next t) ∧ b.cont = .recvPayload .bytes 2 [7] ∧ ([7] : Bytes).length < 2 ∧
      isHeader [0, 0, 0, 2] 2 ∧ exceeds 2 b.params.rxCap = false ∧ RecvKind.bytes.tooSmall 2 = false) :=
  ⟨⟨.inr (.inl ⟨rfl, rfl⟩), by decide, rfl, runs_next (by decide)⟩, ⟨by decide, rfl, rfl, runs_next (by decide)⟩,
    by decide, runs_next (by decide), by decide⟩

/-- The answer that completes the header, the one that completes the payload, and no answer. -/
theorem witness_BlockingReceiveGoesOnByAnswers :
    let a := headed [0] (receiving [0, 0, 1] false [.take 3] State.reset)
    let b := halfPaid 2 [7] (receiving [8] false [.take 1] State.reset)
    (undisturbed a ∧ a.ep.blocking = true ∧ isHeaderPrefix [0] = true ∧ a.port.readPlan.pop.1 = .take 3 ∧
      3 ≤ headerWants [0] ∧ 3 ≤ a.port.inb.bytes.length) ∧
    (undisturbed b ∧ b.port.readPlan.pop.1 = .take 1 ∧ 1 ≤ 2 - ([7] : Bytes).length ∧
      1 ≤ b.port.inb.bytes.length) ∧
    (headed [0] (receiving [] false [.hold] State.reset)).port.readPlan.pop.1 = .hold ∧
    (isBlockingReceive .recv .value ∧ canReceive State.reset ∧ undisturbed State.reset) :=
  ⟨by decide, by decide, rfl, .inl ⟨rfl, rfl⟩, by decide⟩

theorem witness_HeldReceiveCompletes :
    let a := headed [0] (receiving [0, 0, 1, 7, 8] false [] State.reset)
    let b := halfPaid 2 [7] (receiving [8, 9] false [] State.reset)
    (a.agenda = [] ∧ a.hostQ = [] ∧ eagerReads a.port ∧ isHeader [0, 0, 0, 1] ([7] : Bytes).length ∧
      exceeds 1 a.params.rxCap = false ∧ RecvKind.bytes.tooSmall 1 = false ∧ isHeaderPrefix [0] = true ∧
      [0] ++ a.port.inb.bytes = [0, 0, 0, 1] ++ [7] ++ [8]) ∧
    b.cont = .recvPayload .bytes ([7, 8] : Bytes).length [7] ∧ ([7] : Bytes).length < ([7, 8] : Bytes).length ∧
      [7] ++ b.port.inb.bytes = [7, 8] ++ [9] := by decide

theorem witness_NoDataYieldsAnEmptySequence :
    canReceive nb ∧ nb.ep.blocking = false ∧ nb.ep.receiveOk nb.params.rxCap = true ∧
      (nb.port.readPlan.pop.1 = .all ∧ nb.port.inb.bytes = []) ∧
      (receiving [1] false [.wouldBlock] nb).port.readPlan.pop.1 = .wouldBlock ∧
      (receiving [1] false [.err 5] nb).port.readPlan.pop.1 = .err 5 := by decide

/-- An empty frame, then one of a byte; the read is exactly as large as what is in flight. -/
theorem witness_OneReadDeliversAllFramesInOrder :
    let s := receiving [0, 0, 0, 0, 0, 0, 0, 1, 7] false [] nb
    canReceive s ∧ s.ep.blocking = false ∧ s.ep.receiveClear = true ∧ eagerReads s.port ∧
      (∀ p ∈ [([] : Bytes), [7]], p.length ≤ Config.lenMax ∧ exceeds p.length s.params.rxCap = false) ∧
      s.port.inb.bytes = ([([] : Bytes), [7]].map frameEnc).flatten ∧ s.port.inb.bytes.length ≤ 9 := by decide

/-- Parts smaller than a header. -/
theorem witness_PartialReadResilience :
    let s := receiving ([[0, 0], [0], [1, 7]].flatten ++ [9]) false [] nb
    canReceive s ∧ s.ep.blocking = false ∧ s.ep.receiveOk s.params.rxCap = true ∧
      (∀ b ∈ [([0, 0] : Bytes), [0], [1, 7]], b ≠ []) ∧
      (receiveParts 5 [[0, 0], [0], [1, 7]] s).map (·.1) = some [[7]] := by decide

theorem witness_BadHeaderMidCommandKeepsEarlierValues :
    let s := receiving ([0, 0, 0, 1, 7] ++ [0x80, 0, 0, 0] ++ [1]) false [] nb
    canReceive s ∧ s.ep.blocking = false ∧ s.ep.receiveClear = true ∧ eagerReads s.port ∧
      isIllegalWord [0x80, 0, 0, 0] ∧ s.port.inb.bytes = ([[7]].map frameEnc).flatten ++ [0x80, 0, 0, 0] ++ [1] ∧
      s.port.inb.bytes.length ≤ 10 := by decide

theorem witness_HeaderCreatesTheReceiveContext :
    ({ nb with cont := .assembling [7] [] } : State).cont = .assembling [7] [] := rfl

/-- Both headers; a destination that just fits, and one that does not; a capacity one byte too small. -/
theorem witness_HeaderIsFollowedByItsPayload :
    let s := headed [0, 0, 0, 1] (receiving ([7] ++ [8]) false [] State.reset)
    let full : State := { s with params := { s.params with rxCap := some 0 } }
    (∃ len, Instr.small 1 = .small len ∧ len.toNat = ([7] : Bytes).length) ∧
      (∃ len64, Instr.large 1 = .large len64 ∧ len64.toNat = ([7] : Bytes).length) ∧
      s.cont = .recvHeader .bytes [0, 0, 0, 1] ∧ eagerReads s.port ∧ s.port.inb.bytes = [7] ++ [8] ∧
      exceeds 1 s.params.rxCap = false ∧ (RecvKind.into 1).tooSmall 1 = false ∧
      (RecvKind.into 0).tooSmall 1 = true ∧ full.cont = .recvHeader .bytes [0, 0, 0, 1] ∧
      exceeds 1 full.params.rxCap = true :=
  ⟨⟨1, rfl, rfl⟩, ⟨1, rfl, rfl⟩, by decide⟩

theorem witness_IllegalHeaderDegradesThenRaises :
    (headed [0x80, 0, 0, 0] State.reset).cont = .recvHeader .bytes [0x80, 0, 0, 0] ∧
      ({ nb with cont := .assembling [] [[7]] } : State).cont = .assembling [] [[7]] := by decide

theorem witness_HeaderWithoutAReceiveHasNoEffect :
    State.reset.cont = .idle ∧ (writing []).cont = .writing [1, 2] [[3]] ∧
      (halfPaid 1 [] State.reset).cont = .recvPayload .bytes 1 [] := by decide

/-- A pipe pair and a shared handle, and an endpoint already closed. -/
theorem witness_CloseClosesEachHandleOnce :
    (shut.cont = .idle ∧ shut.ep.closed = true) ∧ State.reset.cont = .idle ∧ State.reset.ep.closed = false := by
  decide

theorem witness_ClosedEndpointIssuesNoRequest :
    Inv (presented ⟨0x4, [.value [1]]⟩ shut) ∧ (presented ⟨0x4, [.value [1]]⟩ shut).ep.closed = true ∧
      ∃ t, step (presented ⟨0x4, [.value [1]]⟩ shut) = .next t :=
  ⟨by constructor <;> decide, rfl, runs_next (by decide)⟩

theorem witness_DegradeHalfClosesOrCloses :
    State.reset.ep.writable = true ∧ (endpoint true true false 0 0).ep.writable = false ∧
      (endpoint true true false 0 0).cont = .idle ∧ (endpoint true true false 0 0).ep.closed = false := by decide

theorem witness_TheTwoDirectionsDoNotInteract :
    isSend (.send [1]) ∧ (∃ t, exec (.send [1]) nb = .next t) ∧ isReceive nb.ep.blocking (.recvNb 5) ∧
      ∃ t, exec (.recvNb 5) (receiving [0, 0, 0, 1, 7] false [] nb) = .next t ∧ t.ep.closed = false :=
  ⟨.inl ⟨_, rfl⟩, runs_next (by decide), ⟨5, rfl⟩, ⟨_, rfl, rfl⟩⟩

/-- By the host's queue, by the agenda, and while a receive is held. -/
theorem witness_OwnerDestructionIsAClose :
    let s : State := { State.reset with hostQ := [.ownerDestroyed] }
    let a : State := { State.reset with agenda := [.ownerDestroyed] }
    (s.agenda = [] ∧ s.cont = .idle ∧ s.hostQ = .ownerDestroyed :: [] ∧
      ∃ t, exec .close { s with hostQ := [] } = .next t) ∧
    (a.agenda = .ownerDestroyed :: [] ∧ a.cont = .idle ∧ ∃ t, exec .close { a with agenda := [] } = .next t) ∧
    (headed [] a).agenda = .ownerDestroyed :: [] ∧ (headed [] a).cont ≠ .idle :=
  ⟨⟨rfl, rfl, rfl, runs_next (by decide)⟩, ⟨rfl, rfl, runs_next (by decide)⟩, by decide⟩

/-- Each breach at the first value that is one, no byte among them. -/
theorem witness_BrokenTransportContractIsRefused :
    (isBlockingReceive .recv .value ∧ framesPayload State.reset (.send [1]) [1] ∧ framesPayload nb (.send [1]) [1]) ∧
    (∀ b plan, canReceive (receiving b false plan State.reset) ∧ canReceive (receiving b false plan nb)) ∧
    (∀ q plan, canSend (sending q plan State.reset) ∧ canSend (sending q plan nb)) ∧
    (State.reset.ep.blocking = true ∧ nb.ep.blocking = false ∧ (sending [9] [] nb).ep.txq ≠ []) ∧
    (breaksReadContract 4 (receiving [0, 0, 0, 1, 7] false [.take 5] State.reset).port ∧
      breaksReadContract 4 (receiving [0] false [.take 0] State.reset).port ∧
      breaksReadContract 2 (receiving [0, 0, 1] false [.take 3] nb).port ∧
      readWouldBlock (receiving [] false [.wouldBlock] State.reset).port ∧
      (receiving [0] false [.hold] nb).port.readPlan.pop.1 = .hold) ∧
    (undisturbed (headed [0] State.reset) ∧ 3 = headerWants [0] ∧ undisturbed (halfPaid 2 [7] State.reset) ∧
      undisturbed (writing []) ∧ chunks State.reset.params.coalesceMax [1] = frameEnc [1] :: []) ∧
    (breaksWriteContract (frameEnc [1]).length (sending [] [.wrote 6] State.reset).port ∧
      breaksWriteContract ([1, 2] : Bytes).length (writing [.wrote 3]).port ∧
      breaksWriteContract ([9] ++ frameEnc [1]).length (sending [9] [.wrote 7] nb).port ∧
      breaksWriteContract ([9] : Bytes).length (sending [9] [.wrote 2] nb).port ∧
      (writing [.wouldBlock]).port.writePlan.pop.1 = .wouldBlock ∧
      (sending [9] [.hold] nb).port.writePlan.pop.1 = .hold ∧
      exceeds (([9] : Bytes).length + (frameEnc [1]).length) nb.params.txqCap = false) :=
  ⟨⟨.inl ⟨rfl, rfl⟩, .inl ⟨_, rfl, rfl⟩, .inl ⟨_, rfl, rfl⟩⟩, fun _ _ => ⟨⟨rfl, rfl, rfl, rfl⟩, rfl, rfl, rfl, rfl⟩,
    fun _ _ => ⟨⟨rfl, rfl, rfl⟩, rfl, rfl, rfl⟩, by decide,
    ⟨⟨by decide, 5, rfl, by decide⟩, ⟨by decide, 0, rfl, .inl rfl⟩, ⟨by decide, 3, rfl, by decide⟩, ⟨rfl, .inr rfl⟩, rfl⟩,
    by decide, ⟨6, rfl, by decide⟩, ⟨3, rfl, by decide⟩, ⟨7, rfl, by decide⟩, ⟨2, rfl, by decide⟩, rfl, rfl, by decide⟩

/-- One command for each status the statement speaks of. -/
theorem witness_EachErrorLeavesItsTrace :
    see (exec (.sendBytes [] (-1) 0) State.reset) (fun t => (t.cont, t.resp)) =
      some (.idle, some ⟨.validationError, .none⟩) ∧
    see (exec .drain shut) (fun t => (t.cont, t.resp)) = some (.idle, some ⟨.closedHandleError, .none⟩) ∧
    see (exec .drain (endpoint true true false 0 0)) (fun t => (t.cont, t.resp)) =
      some (.idle, some ⟨.capabilityError, .none⟩) ∧
    see (exec .recv (receiving [] true [] State.reset)) (fun t => (t.cont, t.resp)) =
      some (.idle, some ⟨.cleanEOF, .none⟩) ∧
    see (exec .recv (receiving [0] true [] State.reset)) (fun t => (t.cont, t.resp)) =
      some (.idle, some ⟨.truncatedMessageError, .none⟩) ∧
    see (exec .recv (receiving [0x80, 0, 0, 0] true [] State.reset)) (fun t => (t.cont, t.resp)) =
      some (.idle, some ⟨.badMessageLengthError, .none⟩) ∧
    see (exec (.send [1]) (sending [9] [.err 5] nb)) (fun t => (t.cont, t.resp)) =
      some (.idle, some ⟨.transportError 5, .none⟩) ∧
    (undisturbed (headed [] State.reset) ∧ (headed [] State.reset).cont ≠ .idle) ∧
    see (step (headed [0] (receiving [] false [.err 5] State.reset))) (fun t => (t.cont, t.resp)) =
      some (.idle, some ⟨.transportError 5, .none⟩) ∧
    see (step (headed [0] (receiving [] true [] State.reset))) (fun t => (t.cont, t.resp)) =
      some (.idle, some ⟨.truncatedMessageError, .none⟩) := by decide

theorem witness_NothingMovesBetweenCommands :
    let s : State := { nb with agenda := [.peer (.writes [1])] }
    s.cont = .idle ∧ s.hostQ = [] ∧ s.agenda.head? ≠ some .ownerDestroyed ∧ ∃ t, step s = .next t :=
  ⟨rfl, rfl, by decide, runs_next (by decide)⟩

/-- Each of the peer's acts. -/
theorem witness_PeerActsReachOnlyTheWires :
    ∀ a, ({ nb with agenda := [.peer a] } : State).agenda = .peer a :: [] :=
  fun _ => rfl

/-- A command, a header a blocking receive meets, and one a non-blocking receive meets, with a kept byte. -/
theorem witness_StepRunsTheDecodedInstruction :
    let a := presented ⟨0x6, []⟩ State.reset
    let b := headed [] (receiving ([0, 0, 0, 1] ++ [7]) false [] State.reset)
    let c : State := { nb with cont := .assembling [0, 0, 1, 7] [], ep := { nb.ep with rxHdr := [0] } }
    (a.agenda = [] ∧ a.cont = .idle ∧ a.hostQ = .command ⟨0x6, []⟩ :: [] ∧ decodeCommand ⟨0x6, []⟩ = .ok .drain) ∧
    (b.agenda = [] ∧ b.hostQ = [] ∧ b.cont = .recvHeader .bytes [] ∧ eagerReads b.port ∧
      b.port.inb.bytes = [0, 0, 0, 1] ++ [7] ∧ decodeHeader [0, 0, 0, 1] = .fetched (.small 1) 4) ∧
    (c.agenda = [] ∧ c.hostQ = [] ∧ c.cont = .assembling [0, 0, 1, 7] [] ∧ c.ep.rxPhase = .awaitingHeader ∧
      decodeHeader (c.ep.rxHdr ++ [0, 0, 1, 7]) = .fetched (.small 1) 4 ∧
      ∃ t, exec (.small 1) { c with cont := .assembling ((c.ep.rxHdr ++ [0, 0, 1, 7]).drop 4) [] } = .next t) ∧
    (b.cont ≠ .idle ∧ ∀ c, b.hostQ.head? ≠ some (.intrude c)) :=
  ⟨by decide, by decide, ⟨by decide, by decide, by decide, by decide, by decide, runs_next (by decide)⟩, by decide,
    fun _ => by simp [headed, receiving, State.reset, State.create]⟩

theorem witness_ValueCrossesTheWire :
    let l : Link := ⟨presented ⟨0x4, [.value [7]]⟩ State.reset, presented ⟨0x7, []⟩ State.reset, [true, false]⟩
    canSend l.left ∧ l.left.ep.blocking = true ∧ l.left.agenda = [] ∧
      l.left.hostQ = [.command ⟨0x4, [.value [7]]⟩] ∧ eagerWrites l.left.port ∧ l.left.port.outb.bytes = [] ∧
      canReceive l.right ∧ l.right.ep.blocking = true ∧ l.right.agenda = [] ∧
      l.right.hostQ = [.command ⟨0x7, []⟩] ∧ eagerReads l.right.port ∧ l.right.port.inb.bytes = [] ∧
      l.left.params.serializer = l.right.params.serializer ∧ isValue l.left.params.serializer [7] = true ∧
      (serEncode l.left.params.serializer [7]).length ≤ Config.lenMax ∧
      exceeds (serEncode l.left.params.serializer [7]).length l.right.params.rxCap = false := by decide

end Sys2Proof.Tests
end

section
/-! The invariant, apart from the executing command and its request, is kept by every operation of the machine; each
command then keeps the invariant whole. -/

namespace Sys2Proof.Machine

/-! ### The invariant with the executing command put aside -/

/-- The state meets the invariant once its command is put aside with no request outstanding. -/
def Settled (s : State) : Prop := Inv { s with cont := .idle, port := { s.port with held := false } }

theorem Inv.settled {s : State} (h : Inv s) : Settled s := { h with cont := rfl, request := rfl }

/-- A settled state meets the invariant if its command and its outstanding request are sound. -/
theorem Settled.inv {s : State} (h : Settled s) (hc : contOk s.params s.ep s.cont = true) (hr : heldOk s = true) :
    Inv s := { h with cont := hc, request := hr }

/-- Only the creation arguments, the endpoint, the destination and the close requests matter. -/
theorem Settled.congr {s t : State} (h : Settled s) (hp : t.params = s.params) (he : t.ep = s.ep) (hd : t.dst = s.dst)
    (hq : t.port.calls.filter Request.isClose = s.port.calls.filter Request.isClose) : Settled t := by
  have closes : closesOk t = closesOk s := by simp only [closesOk, hq, he, hp]
  obtain ⟨p, e, _, _, d, _, _, _⟩ := t
  subst hp he hd
  exact { h with closes := closes.trans h.closes }

/-- A command that ends with no request outstanding. -/
theorem Settled.complete {s : State} (h : Settled s) (hh : s.port.held = false) (st : Status) (r : Result) :
    Inv (complete st r s) :=
  (h.congr rfl rfl rfl rfl : Settled (Machine.complete st r s)).inv rfl (heldOk_of_not_held hh)

/-- The same of a step that ends with it; `raise` is one way to end. -/
theorem Settled.finish {s t : State} {st : Status} {r : Result} (h : Settled s) (hh : s.port.held = false)
    (ht : finish st r s = .next t) : Inv t := by
  rw [finish_next] at ht
  exact ht ▸ h.complete hh st r

/-- The inputs, the wires and the plans do not matter to the invariant. -/
theorem Inv.congr {s t : State} (h : Inv s) (hp : t.params = s.params) (he : t.ep = s.ep) (hc : t.cont = s.cont)
    (hd : t.dst = s.dst) (hq : t.port.calls = s.port.calls) (hh : t.port.held = s.port.held) : Inv t := by
  have request : heldOk t = heldOk s := by simp only [heldOk, State.awaits, hc, hq, hh, he]
  exact (h.settled.congr hp he hd (by rw [hq])).inv (by rw [hp, he, hc]; exact h.cont) (request.trans h.request)

/-- Between commands no request is outstanding (R41, R42). -/
theorem Inv.not_held {s : State} (h : Inv s) (hc : s.cont = .idle) : s.port.held = false := by
  simpa [heldOk, State.awaits, hc] using h.request

/-- A request outstanding is the last one on the port, whichever the executing command goes on with. -/
theorem Inv.lastIs {s : State} {r : Request} (h : Inv s) (ha : s.awaits = some r) (hh : s.port.held = true) :
    LastIs s r := by
  simpa [heldOk, ha, hh, LastIs] using h.request

/-- A readable endpoint is open (R22). -/
theorem Settled.open_of_readable {s : State} (h : Settled s) (hr : s.ep.readable = true) : s.ep.closed = false := by
  by_contra hc
  have := (h.closed (by simpa using hc)).1
  simp only [hr, Bool.true_eq_false] at this

/-! ### What an executing command needs (R31) -/

theorem contOk_writing {p : Params} {e : Endpoint} {c : Bytes} {rest : List Bytes} :
    contOk p e (.writing c rest) = true ↔ e.blocking = true ∧ e.writable = true ∧ ∀ b ∈ c :: rest, b ≠ [] := by
  simp [contOk, and_assoc]

theorem contOk_recvHeader {p : Params} {e : Endpoint} {kind : RecvKind} {acc : Bytes} :
    contOk p e (.recvHeader kind acc) = true ↔
      e.blocking = true ∧ e.readable = true ∧ isHeaderPrefix acc = true := by
  simp [contOk, and_assoc]

theorem contOk_recvPayload {p : Params} {e : Endpoint} {kind : RecvKind} {n : Nat} {acc : Bytes} :
    contOk p e (.recvPayload kind n acc) = true ↔
      e.blocking = true ∧ e.readable = true ∧ acc.length < n ∧ n ≤ Config.lenMax ∧ exceeds n p.rxCap = false ∧
        kind.tooSmall n = false := by
  cases kind <;> simp [contOk, RecvKind.tooSmall, and_assoc]

/-! ### What the operations keep -/

theorem Reads.params {s t : State} {got : Bytes} (h : Reads s t got) : t.params = s.params := by
  obtain ⟨hp, -⟩ := h.frame
  exact hp

theorem Reads.ep {s t : State} {got : Bytes} (h : Reads s t got) : t.ep = s.ep := by
  obtain ⟨-, he, -⟩ := h.frame
  exact he

theorem WritesOnly.params {s t : State} {put : Bytes} (h : WritesOnly s t put) : t.params = s.params := by
  obtain ⟨plan, offered, held, -, rfl⟩ := h
  rfl

/-- Reads and writes are no close requests (R43). -/
theorem filter_isClose_append_map {α : Type} (calls : List Request) (f : α → Request) (l : List α)
    (hf : ∀ a, (f a).isClose = false) :
    (calls ++ l.map f).filter Request.isClose = calls.filter Request.isClose := by
  simp [List.filter_append, List.filter_map, Function.comp_def, hf]

theorem Settled.reads {s t : State} {got : Bytes} (h : Settled s) (hr : Reads s t got) : Settled t := by
  obtain ⟨hp, he, -, hd, -, -, -, -, -, -, -, -, asked, -, hq⟩ := hr.frame
  exact h.congr hp he hd (by rw [hq]; exact filter_isClose_append_map _ _ _ fun _ => rfl)

theorem Settled.writes {s t : State} {put : Bytes} (h : Settled s) (hw : WritesOnly s t put) : Settled t := by
  obtain ⟨plan, offered, held, -, rfl⟩ := hw
  exact h.congr rfl rfl rfl (filter_isClose_append_map _ _ _ fun _ => rfl)

/-- A shorter queue keeps within a capacity too. -/
theorem exceeds_mono {m n : Nat} {cap : Option Nat} (hmn : m ≤ n) (h : exceeds n cap = false) :
    exceeds m cap = false := by
  cases cap with
  | none => rfl
  | some c =>
    simp only [exceeds, decide_eq_false_iff_not] at h ⊢
    omega

/-- A queue within the capacity, empty where the endpoint has no use for one (R22, R25, R50). -/
theorem Settled.requeue {s : State} {q : Bytes} (h : Settled s) (hc : s.ep.closed = true → q = [])
    (hb : s.ep.blocking = true → q = []) (hq : exceeds q.length s.params.txqCap = false) :
    Settled { s with ep := { s.ep with txq := q } } :=
  { h with
    closed := fun hx =>
      let ⟨hr, hw, _, hrx⟩ := h.closed hx
      ⟨hr, hw, hc hx, hrx⟩
    blockingUnused := fun hx => ⟨hb hx, (h.blockingUnused hx).2⟩
    queue := hq }

/-- Bytes leave the queue at its head (R96). -/
theorem Settled.dequeue {s : State} (h : Settled s) (n : Nat) :
    Settled { s with ep := { s.ep with txq := s.ep.txq.drop n } } := by
  have empty : s.ep.txq = [] → s.ep.txq.drop n = [] := fun hq => by rw [hq, List.drop_nil]
  refine h.requeue (fun hx => empty ?_) (fun hx => empty ?_) (exceeds_mono (by simp) h.queue)
  · obtain ⟨-, -, hq, -⟩ := h.closed hx
    exact hq
  · exact (h.blockingUnused hx).1

/-- A legal receive state of an open non-blocking endpoint (R24, R26, R27). -/
theorem Settled.withRx {s : State} {r : Rx} (h : Settled s) (hc : s.ep.closed = false) (hb : s.ep.blocking = false)
    (hr : (s.ep.withRx r).receiveOk s.params.rxCap = true) : Settled (s.withRx r) := by
  cases r <;>
  exact { h with
    closed := fun hx => absurd (hc.symm.trans hx) (by decide)
    receive := hr
    blockingUnused := fun hx => absurd (hb.symm.trans hx) (by decide) }

/-- Only a blocking receiver is marked (R30). -/
theorem Settled.mark {s : State} (h : Settled s) (hb : s.ep.blocking = true) (b : Bool) :
    Settled { s with ep := { s.ep with rxDesync := b } } :=
  { h with desync := fun _ => hb }

/-- The destination after a payload is delivered (R48). -/
theorem Settled.deliver {s : State} {kind : RecvKind} {p : Bytes} {d : Memory} (h : Settled s)
    (hd : destinationHolds s.dst d kind p) : Settled { s with dst := d } := by
  refine { h with memory := ?_ }
  cases kind with
  | bytes => exact (congrArg Memory.wf hd).trans h.memory
  | value => exact (congrArg Memory.wf hd).trans h.memory
  | into cap => exact (hd h.memory).1

/-- A half-close loses the receive side only (R136). -/
theorem Settled.halfClose {s : State} (h : Settled s) : Settled { s with ep := s.ep.halfClosed } :=
  { h with
    capabilities := ⟨fun hx => by simp at hx, h.capabilities.2⟩
    closed := fun hx =>
      let ⟨_, hw, hq, _⟩ := h.closed hx
      ⟨rfl, hw, hq, rfl⟩
    receive := rfl
    blockingUnused := fun hx => ⟨(h.blockingUnused hx).1, rfl⟩ }

/-- The requests of a close, made once (R135). -/
theorem closesOk_doClose {s : State} (h : closesOk s = true) (hc : s.ep.closed = false) :
    closesOk (doClose s) = true := by
  simp only [closesOk, hc, Bool.false_eq_true, if_false, beq_iff_eq] at h
  simp [closesOk, List.filter_append, h, List.filter_map, Function.comp_def, Request.isClose]

theorem Settled.doClose {s : State} (h : Settled s) (hc : s.ep.closed = false) : Settled (doClose s) where
  capabilities := ⟨fun hx => by simp at hx, fun hx => by simp at hx⟩
  closed := fun _ => ⟨rfl, rfl, rfl, rfl⟩
  receive := rfl
  blockingUnused := fun _ => ⟨rfl, rfl⟩
  desync := h.desync
  queue := exceeds_mono (Nat.zero_le _) h.queue
  cont := rfl
  closes := closesOk_doClose (s := s) h.closes hc
  request := rfl
  memory := h.memory

theorem Settled.degrade {s : State} (h : Settled s) (hc : s.ep.closed = false) : Settled (degrade s) := by
  cases hw : s.ep.writable
  · rw [degrade_of_not_writable hw]
    exact h.doClose hc
  · rw [degrade_of_writable hw]
    exact h.halfClose

@[simp] theorem degrade_port_held (s : State) : (degrade s).port.held = s.port.held := by
  unfold degrade
  split <;> rfl

/-- Taking a fatal receive error on an open endpoint (R136). -/
theorem Settled.degradeAndRaise {s t : State} {st : Status} {r : Result} (h : Settled s) (hc : s.ep.closed = false)
    (hh : s.port.held = false) (ht : degradeAndRaise st r s = .next t) : Inv t :=
  (h.degrade hc).finish ((degrade_port_held s).trans hh) ht

/-! ### The send side -/

theorem chunks_ne_nil (m : Nat) (p : Bytes) : ∀ c ∈ chunks m p, c ≠ [] := by
  intro c hc
  unfold chunks at hc
  split_ifs at hc with hl
  · rw [List.mem_singleton] at hc
    simp [hc, hdrEnc_ne_nil]
  · simp only [List.mem_cons, List.not_mem_nil, or_false] at hc
    rcases hc with rfl | rfl
    · exact hdrEnc_ne_nil _
    · rintro rfl
      simp at hl

theorem holdsFirst_of_not_held {s : State} (h : s.port.held = false) (cs : List Bytes) : holdsFirst cs s :=
  fun hx => absurd (h.symm.trans hx) (by decide)

/-- A blocking send keeps the invariant, from any of its chunks on (R92, R93). -/
theorem writeChunks_inv {cs : List Bytes} {s t : State} (h : Settled s) (hb : s.ep.blocking = true)
    (hw : s.ep.writable = true) (hne : ∀ c ∈ cs, c ≠ []) (hf : holdsFirst cs s)
    (ht : writeChunks cs s = .next t) : Inv t := by
  rcases writeChunks_cases ht with ⟨u, e, hu, hh⟩ | ⟨x, put, left, u, e, -, hu, hh⟩ |
    ⟨put, c, rest, u, e, -, hc, ⟨pre, rfl⟩, hu, hl⟩ | ⟨r, e⟩
  · exact (h.writes hu).finish (hh hf) e.symm
  · exact (h.writes hu).finish hh e.symm
  · cases e
    have hrest : ∀ b ∈ c :: rest, b ≠ [] :=
      List.forall_mem_cons.mpr ⟨hc, fun b hb => hne b (List.mem_append_right pre hb)⟩
    have settled : Settled { u with cont := .writing c rest } := (h.writes hu).congr rfl rfl rfl rfl
    refine settled.inv (contOk_writing.mpr (hu.ep ▸ ⟨hb, hw, hrest⟩)) ?_
    cases hx : u.port.held
    · exact heldOk_of_not_held hx
    · exact heldOk_of_lastIs (r := .write s.ep.hWr c) (by rw [← hu.ep]; rfl) (hl hf hx)
  · cases e

/-- One drain keeps the invariant (R96). -/
theorem drainOnce_inv {s t : State} (h : Settled s) (hh : s.port.held = false) (ht : drainOnce s = .next t) :
    Inv t := by
  rcases drainOnce_cases ht with ⟨-, e⟩ | ⟨n, u, -, hu, hh, e⟩ | ⟨u, hu, hh, e⟩ | ⟨x, u, hu, hh, e⟩ | ⟨r, e⟩
  · exact h.finish hh e.symm
  · have drained : Settled { u with ep := { u.ep with txq := s.ep.txq.drop n } } := by
      rw [← hu.ep]
      exact (h.writes hu).dequeue n
    exact drained.finish hh e.symm
  · exact (h.writes hu).finish hh e.symm
  · exact (h.writes hu).finish hh e.symm
  · cases e

/-- A frame is sent in the endpoint's own variant (R91, R95). -/
theorem sendFrame_inv {p : Bytes} {s t : State} (h : Settled s) (hh : s.port.held = false)
    (hc : s.ep.closed = false) (hw : s.ep.writable = true) (ht : sendFrame p s = .next t) : Inv t := by
  unfold sendFrame sendNonBlocking at ht
  simp only at ht
  split_ifs at ht with hlen hb hq
  · exact writeChunks_inv h hb hw (chunks_ne_nil _ p) (holdsFirst_of_not_held hh _) ht
  · have queued : Settled { s with ep := { s.ep with txq := s.ep.txq ++ frameEnc p } } :=
      h.requeue (fun hx => absurd (hc.symm.trans hx) (by decide)) (fun hx => absurd hx hb) (by simpa using hq)
    exact drainOnce_inv queued hh ht

/-- SendChecks passes only an open endpoint that can write (R90). -/
theorem sendChecks_inv {k : Out} {s t : State} (h : Settled s) (hh : s.port.held = false)
    (hk : s.ep.closed = false → s.ep.writable = true → k = .next t → Inv t) (ht : sendChecks s k = .next t) :
    Inv t := by
  rcases sendChecks_next ht with ⟨-, rfl⟩ | ⟨-, -, rfl⟩ | ⟨hc, hw, ht⟩
  · exact h.complete hh _ _
  · exact h.complete hh _ _
  · exact hk hc hw ht

theorem sendSlice_inv {b : Bytes} {o n : Int} {s t : State} (h : Settled s) (hh : s.port.held = false)
    (ht : sendSlice b o n s = .next t) : Inv t := by
  refine sendChecks_inv h hh (fun hc hw ht => ?_) ht
  split at ht
  · exact sendFrame_inv h hh hc hw ht
  · exact h.finish hh ht

/-! ### The blocking receiver -/

/-- However a blocking receive ends or waits, the invariant holds (R106 to R110). -/
theorem ReceiveEnds.inv {kind : RecvKind} {ready : Prop} {s t : State} {acc d : Bytes} {o : Out} (h : Settled s)
    (hb : s.ep.blocking = true) (hr : s.ep.readable = true) (hready : ready)
    (he : ReceiveEnds kind ready s acc d o) (ho : o = .next t) : Inv t := by
  have isOpen : ∀ {u : State} {g : Bytes}, Reads s u g → u.ep.closed = false := fun hu => by
    rw [hu.ep]
    exact h.open_of_readable hr
  cases he with
  | @frame _ _ _ p u hh hx ht hu hheld =>
    obtain ⟨m, hm, e⟩ := deliverPayload_eq kind p u
    rw [e] at ho
    cases ho
    exact ((h.reads hu).deliver hm).complete hheld .ok (payloadResult u.params.serializer kind p)
  | eof hu hheld hq => exact (h.reads hu).finish hheld ho
  | truncated hne hu hheld => exact (h.reads hu).degradeAndRaise (isOpen hu) hheld ho
  | bad hne hu hheld => exact (h.reads hu).degradeAndRaise (isOpen hu) hheld ho
  | @failed _ _ u e hu hheld =>
    have marked : Settled { u with ep := { u.ep with rxDesync := u.ep.rxDesync || !(acc ++ d).isEmpty } } :=
      (h.reads hu).mark (by rw [hu.ep]; exact hb) _
    exact marked.finish hheld ho
  | @heldHeader _ _ u hp hu hheld hq =>
    cases ho
    have settled : Settled { u with cont := .recvHeader kind (acc ++ d) } := (h.reads hu).congr rfl rfl rfl rfl
    refine settled.inv (contOk_recvHeader.mpr (hu.ep.symm ▸ ⟨hb, hr, hp⟩)) ?_
    exact heldOk_of_lastIs (r := .read s.ep.hRd (headerWants (acc ++ d))) (by rw [← hu.ep]; rfl) (hq hready)
  | @heldPayload _ _ _ p n u hh hx hl hc ht hu hheld hq =>
    cases ho
    have settled : Settled { u with cont := .recvPayload kind n p } := (h.reads hu).congr rfl rfl rfl rfl
    refine settled.inv (contOk_recvPayload.mpr ?_) ?_
    · exact hu.ep.symm ▸ ⟨hb, hr, hl, isHeader_lt hh, hu.params.symm ▸ hc, ht⟩
    · exact heldOk_of_lastIs (r := .read s.ep.hRd (n - p.length)) (by rw [← hu.ep]; rfl) (hq hready)
  | refused r => cases ho

theorem readHeader_inv {kind : RecvKind} {acc : Bytes} {s t : State} (h : Settled s) (hb : s.ep.blocking = true)
    (hr : s.ep.readable = true) (ha : isHeaderPrefix acc = true) (hq : AwaitsRead (headerWants acc) s)
    (ht : readHeader kind acc s = .next t) : Inv t := by
  obtain ⟨d, hd⟩ := readHeader_ends (kind := kind) (s := s) ha
  exact hd.inv h hb hr hq ht

theorem readPayload_inv {kind : RecvKind} {n : Nat} {acc : Bytes} {s t : State} (h : Settled s)
    (hb : s.ep.blocking = true) (hr : s.ep.readable = true) (hl : acc.length < n) (hn : n ≤ Config.lenMax)
    (hc : exceeds n s.params.rxCap = false) (hs : kind.tooSmall n = false) (hq : AwaitsRead (n - acc.length) s)
    (ht : readPayload kind n acc s = .next t) : Inv t := by
  obtain ⟨d, hd⟩ := readPayload_ends (kind := kind) (isHeader_hdrEnc hn) hl.le hc hs (.inl hl)
  exact hd.inv h hb hr hq ht

/-- RecvChecks passes only an open endpoint that can read (R105). -/
theorem recvChecks_inv {k : Out} {s t : State} (h : Settled s) (hh : s.port.held = false)
    (hk : s.ep.closed = false → s.ep.readable = true → k = .next t → Inv t) (ht : recvChecks s k = .next t) :
    Inv t := by
  rcases recvChecks_next ht with ⟨-, rfl⟩ | ⟨-, -, rfl⟩ | ⟨hc, hr, -, ht⟩
  · exact h.complete hh _ _
  · exact h.complete hh _ _
  · exact hk hc hr ht

theorem nonNegative_inv {n : Int} {k : Nat → Out} {s t : State} (h : Settled s) (hh : s.port.held = false)
    (hk : k n.toNat = .next t → Inv t) (ht : nonNegative n s k = .next t) : Inv t := by
  rcases nonNegative_next ht with ⟨-, rfl⟩ | ⟨-, ht⟩
  · exact h.complete hh _ _
  · exact hk ht

/-- A blocking receive just started has read nothing. -/
theorem readHeader_nil_inv {kind : RecvKind} {s t : State} (h : Settled s) (hh : s.port.held = false)
    (hb : s.ep.blocking = true) (hr : s.ep.readable = true) (ht : readHeader kind [] s = .next t) : Inv t :=
  readHeader_inv h hb hr rfl (fun hx => absurd (hh.symm.trans hx) (by decide)) ht

/-! ### The non-blocking receiver -/

/-- The bytes of the wire that a legal receive state stands for (R28). -/
theorem Rx.exists_tail {r : Rx} (h : ∀ c, r = .payload c → c.payload.length + c.remaining ≤ Config.lenMax) :
    ∃ T, r.tail T := by
  cases r with
  | header b => exact ⟨b, rfl⟩
  | payload c => exact ⟨_, _, isHeader_hdrEnc (h c rfl), rfl⟩

/-- Reassembly keeps the invariant, whatever bytes it is given (R122 to R125). -/
theorem assemble_inv {b : Bytes} {s t : State} (h : Settled s) (hh : s.port.held = false)
    (hc : s.ep.closed = false) (hb : s.ep.blocking = false) (ht : assemble b s = .next t) : Inv t := by
  obtain ⟨r, hr, hrests, hmax⟩ := Endpoint.rx_of_receiveOk h.receive
  obtain ⟨f, hf, e⟩ := assemble_eq (s := s) hr b
  obtain ⟨T, hT⟩ := Rx.exists_tail hmax
  have hcap : ∀ c, r = .payload c → exceeds (c.payload.length + c.remaining) s.params.rxCap = false := by
    rintro c rfl
    exact hrests.2
  rw [e] at ht
  rcases assembleLoop_spec (out := []) hf hT hcap with ⟨fs, r', T', -, hT', hr', -, e⟩ | ⟨fs, w, junk, -, -, -, e⟩ |
    ⟨-, e⟩ <;> rw [e] at ht <;> cases ht
  · exact (h.withRx hc hb (Endpoint.receiveOk_withRx _ hT' hr')).complete hh _ _
  · exact (h.degrade hc).complete (by simpa using hh) _ _

/-- One read, then reassembly (R121). -/
theorem readOnce_inv {max : Nat} {s t : State} (hm : 1 ≤ max) (h : Settled s) (hc : s.ep.closed = false)
    (hb : s.ep.blocking = false) (ht : readOnce max s = .next t) : Inv t := by
  have issued : Settled (readIssued max s) := h.reads (ReadsOnly.issued hm s).reads
  unfold readOnce at ht
  rcases tRead_cases hm s with ⟨b, u, e, -, -, hr, hu⟩ | e | ⟨e, -⟩ | ⟨x, e⟩ | ⟨e, -⟩ | ⟨f, e⟩ <;> rw [e] at ht <;>
    simp only at ht
  · have hep : u.ep = s.ep := hr.reads.ep
    exact assemble_inv (h.reads hr.reads) hu (by rw [hep]; exact hc) (by rw [hep]; exact hb) ht
  · exact assemble_inv issued rfl hc hb ht
  · exact assemble_inv issued rfl hc hb ht
  · exact issued.finish rfl ht
  · cases ht
  · cases ht

/-! ### Any instruction, any step -/

/-- CLOSE and the owner's destruction close an open endpoint and leave a closed one (R33, R135). -/
theorem Settled.closeOnce {s : State} (h : Settled s) : Settled (closeOnce s) := by
  unfold Machine.closeOnce
  split
  case isTrue => exact h
  case isFalse hc => exact h.doClose (by simpa using hc)

@[simp] theorem closeOnce_cont (s : State) : (closeOnce s).cont = s.cont := by
  unfold closeOnce
  split <;> rfl

@[simp] theorem closeOnce_port_held (s : State) : (closeOnce s).port.held = s.port.held := by
  unfold closeOnce
  split <;> rfl

/-- Every instruction but a wire header is a command for an idle endpoint (R53). -/
theorem cont_idle_of_exec {i : Instr} {s t : State} (hi : isCommand i = true) (h : exec i s = .next t) :
    s.cont = .idle := by
  cases i with
  | reserved0 => cases hi
  | reservedCF low => cases hi
  | small len => cases hi
  | large len => cases hi
  | invalidHdr rest => cases hi
  | _ => exact (whenIdle_next h).1

/-- A command that runs keeps the invariant. -/
theorem exec_inv {i : Instr} {s t : State} (hi : isCommand i = true) (h : Inv s) (ht : exec i s = .next t) :
    Inv t := by
  have hs := h.settled
  have hh := h.not_held (cont_idle_of_exec hi ht)
  have codec : ∀ {st r}, finish st r s = .next t → Inv t := fun ht => hs.finish hh ht
  cases i with
  | hdrEnc n =>
    obtain ⟨-, ht⟩ := whenIdle_next ht
    split at ht
    · cases ht
    · exact codec ht
  | hdrParse b => exact codec (whenIdle_next ht).2
  | frameEnc p =>
    obtain ⟨-, ht⟩ := whenIdle_next ht
    split at ht
    · cases ht
    · exact codec ht
  | send v => exact sendSlice_inv hs hh (whenIdle_next ht).2
  | sendBytes b o n => exact sendSlice_inv hs hh (whenIdle_next ht).2
  | drain => exact sendChecks_inv hs hh (fun _ _ ht => drainOnce_inv hs hh ht) (whenIdle_next ht).2
  | recv =>
    obtain ⟨hb, ht⟩ := onlyInMode_next (whenIdle_next ht).2
    exact recvChecks_inv hs hh (fun _ hr ht => readHeader_nil_inv hs hh hb hr ht) ht
  | recvBytes =>
    obtain ⟨hb, ht⟩ := onlyInMode_next (whenIdle_next ht).2
    exact recvChecks_inv hs hh (fun _ hr ht => readHeader_nil_inv hs hh hb hr ht) ht
  | recvBytesInto c =>
    obtain ⟨hb, ht⟩ := onlyInMode_next (whenIdle_next ht).2
    exact recvChecks_inv hs hh (fun _ hr ht => nonNegative_inv hs hh (readHeader_nil_inv hs hh hb hr) ht) ht
  | recvNb m =>
    obtain ⟨hb, ht⟩ := onlyInMode_next (whenIdle_next ht).2
    refine recvChecks_inv hs hh (fun hc _ ht => nonNegative_inv hs hh (fun ht => ?_) ht) ht
    split at ht
    · cases ht
    · exact readOnce_inv (by omega) hs hc hb ht
  | close =>
    obtain ⟨-, ht⟩ := whenIdle_next ht
    exact hs.closeOnce.finish (by simpa using hh) ht
  | reserved0 => cases hi
  | reservedCF low => cases hi
  | small len => cases hi
  | large len => cases hi
  | invalidHdr rest => cases hi

/-- Going on with the executing command keeps the invariant (R31). -/
theorem resume_inv {s t : State} (h : Inv s) (ht : resume s = .next t) : Inv t := by
  have hs := h.settled
  have hcont := h.cont
  unfold resume at ht
  cases hc : s.cont with
  | idle =>
    rw [hc] at ht
    cases ht
    exact h
  | writing current rest =>
    rw [hc] at ht hcont
    obtain ⟨hb, hw, hne⟩ := contOk_writing.mp hcont
    refine writeChunks_inv hs hb hw hne (fun hx => ?_) ht
    exact ⟨current, rest, rfl, hne current List.mem_cons_self, h.lastIs (by simp only [State.awaits, hc]) hx⟩
  | recvHeader kind acc =>
    rw [hc] at ht hcont
    obtain ⟨hb, hr, ha⟩ := contOk_recvHeader.mp hcont
    exact readHeader_inv hs hb hr ha (h.lastIs (by simp only [State.awaits, hc])) ht
  | recvPayload kind n acc =>
    rw [hc] at ht hcont
    obtain ⟨hb, hr, hl, hn, hx, hk⟩ := contOk_recvPayload.mp hcont
    exact readPayload_inv hs hb hr hl hn hx hk (h.lastIs (by simp only [State.awaits, hc])) ht
  | assembling inBytes out =>
    rw [hc] at hcont
    cases hcont

/-- The peer touches only the wires (R54). -/
theorem peerMove_inv {s : State} (h : Inv s) (a : PeerAct) : Inv (peerMove a s) := by
  cases a with
  | writes b =>
    simp only [peerMove]
    split
    · exact h
    · exact h.congr rfl rfl rfl rfl rfl rfl
  | closesWriter => exact h.congr rfl rfl rfl rfl rfl rfl
  | reads n =>
    simp only [peerMove]
    split
    · exact h
    · exact h.congr rfl rfl rfl rfl rfl rfl
  | closesReader => exact h.congr rfl rfl rfl rfl rfl rfl

/-- Settles O4: the peer touches only the wires, and every command, started or gone on with, keeps the invariant. -/
theorem everyStepKeepsTheInvariant : Obligations.EveryStepKeepsTheInvariant := by
  intro s t h ht
  have inputs : ∀ q g, Inv { s with hostQ := q, agenda := g } := fun q g => h.congr rfl rfl rfl rfl rfl rfl
  rcases step_cases ht with ⟨a, rest, -, rfl⟩ | ⟨u, q, g, rfl, ⟨i, hi, ht⟩ | ⟨-, ht⟩ | ⟨-, rfl⟩ | ⟨hc, rfl⟩⟩
  · exact peerMove_inv (inputs s.hostQ rest) a
  · exact exec_inv hi (inputs q g) ht
  · exact resume_inv (inputs q g) ht
  · exact inputs q g
  · have hu := inputs q g
    exact hu.settled.closeOnce.inv (by rw [closeOnce_cont, hc]; rfl)
      (heldOk_of_not_held (by rw [closeOnce_port_held]; exact hu.not_held hc))

end Sys2Proof.Machine
end

section
/-! A blocking receive, one answer at a time (R106, R107), and the headers that no receive meets. -/

namespace Sys2Proof.Machine

/-! ### Headers that no receive meets (R3, R154) -/

/-- Only a receive that has not read its header, or reassembly, has a use for one. -/
theorem header_without_receive {s : State}
    (h : s.cont = .idle ∨ (∃ c cs, s.cont = .writing c cs) ∨ ∃ kind n acc, s.cont = .recvPayload kind n acc) :
    (∀ n, headerResolved n s = .next s) ∧ headerInvalid s = .next s := by
  rcases h with h | ⟨c, cs, h⟩ | ⟨kind, n, acc, h⟩ <;> simp [headerResolved, headerInvalid, h]

/-- Settles O44: the three headers are `headerResolved` of their length and `headerInvalid`. -/
theorem headerWithoutAReceiveHasNoEffect : Obligations.HeaderWithoutAReceiveHasNoEffect := by
  intro len _ len64 s h
  obtain ⟨resolved, invalid⟩ := header_without_receive h
  exact ⟨resolved len.toNat, resolved len64.toNat, invalid⟩

/-! ### A step that goes on with a receive -/

/-- An undisturbed step of a busy endpoint goes on with its command (R31). -/
theorem step_eq_resume {s : State} (hu : undisturbed s) (hc : s.cont ≠ .idle) : step s = resume s := by
  obtain ⟨ha, hq⟩ := hu
  simp [step, ha, coreMove, fetch, hq, hc]

/-- A receive reads on the same way whatever was executing (R107). -/
theorem step_recvHeader {s : State} (hu : undisturbed s) (kind : RecvKind) (acc : Bytes) :
    step { s with cont := .recvHeader kind acc } = readHeader kind acc s :=
  (step_eq_resume (s := { s with cont := .recvHeader kind acc }) hu Cont.noConfusion).trans
    (readHeader_withCont kind acc s _)

/-- The same of a payload (R108). -/
theorem step_recvPayload {s : State} (hu : undisturbed s) (kind : RecvKind) (n : Nat) (acc : Bytes) :
    step { s with cont := .recvPayload kind n acc } = readPayload kind n acc s :=
  (step_eq_resume (s := { s with cont := .recvPayload kind n acc }) hu Cont.noConfusion).trans
    (readPayload_withCont kind n acc s _)

/-- A state is itself with its own command executing. -/
theorem with_own_cont {s : State} {c : Cont} (h : s.cont = c) : { s with cont := c } = s := by
  rw [← h]

/-- A blocking receive that may start reads its header (R105, R107). -/
theorem exec_isBlockingReceive {i : Instr} {kind : RecvKind} {s : State} (hi : isBlockingReceive i kind)
    (hb : s.ep.blocking = true) (hr : canReceive s) : exec i s = readHeader kind [] s := by
  obtain ⟨hidle, hclosed, hread, hsync⟩ := hr
  have gates : ∀ k : Out, (whenIdle s <| onlyInMode true s <| recvChecks s k) = k := fun k => by
    rw [whenIdle_of_idle hidle, onlyInMode_of_eq hb, recvChecks_pass hclosed hread hsync]
  rcases hi with ⟨rfl, rfl⟩ | ⟨rfl, rfl⟩ | ⟨c, rfl, rfl⟩
  · exact gates _
  · exact gates _
  · exact (gates _).trans (nonNegative_natCast _ _ _)

/-! ### One answer to a receive -/

/-- Once the first word is an escape, bytes that decide a header are at least the twelve of a LARGE one (R62, R65). -/
theorem twelve_le_of_not_isHeaderPrefix {acc b : Bytes} (h : 4 ≤ acc.length) (ha : isHeaderPrefix acc = true)
    (hb : isHeaderPrefix (acc ++ b) = false) : 12 ≤ (acc ++ b).length := by
  have h4 : ¬ acc.length < 4 := by omega
  simp only [isHeaderPrefix, h4, decide_false, Bool.false_or, Bool.and_eq_true, beq_iff_eq] at ha
  simp only [isHeaderPrefix, List.take_append_of_le_length h, ha.2, beq_self_eq_true, Bool.and_true,
    Bool.or_eq_false_iff, decide_eq_false_iff_not] at hb
  omega

/-- Past the first word, the bytes in hand make a header once there are twelve of them, and a read asks for the rest
until then (R107). -/
theorem readHeader_past_first_word {kind : RecvKind} {acc : Bytes} (b : Bytes) {s : State} (h : 4 ≤ acc.length)
    (ha : isHeaderPrefix acc = true) :
    readHeader kind (acc ++ b) s =
      readEnded false (headerInHand kind) (.recvHeader kind) (readExact 12 (acc ++ b) s) := by
  unfold readHeader
  rw [readExact_met (show 4 ≤ (acc ++ b).length by rw [List.length_append]; omega)]
  simp only [readEnded]
  cases hd : decodeHeader (acc ++ b) with
  | incomplete => rfl
  | fetched i k =>
    have hp : isHeaderPrefix (acc ++ b) = false := by
      rw [← Bool.not_eq_true, ← decodeHeader_incomplete_iff, hd]
      exact HeaderFetch.noConfusion
    rw [readExact_met (twelve_le_of_not_isHeaderPrefix h ha hp)]

/-- A header goes on with the bytes of an answer (R106, R107). -/
theorem readHeader_take {kind : RecvKind} {acc : Bytes} {k : Nat} {s : State} (ha : isHeaderPrefix acc = true)
    (hp : s.port.readPlan.pop.1 = .take k) (h1 : 1 ≤ k) (h2 : k ≤ headerWants acc) (h3 : k ≤ s.port.inb.bytes.length) :
    readHeader kind acc s =
      readHeader kind (acc ++ s.port.inb.bytes.take k) (afterRead (headerWants acc) k s) := by
  by_cases h4 : acc.length < 4
  · rw [headerWants, if_pos h4] at h2 ⊢
    unfold readHeader
    rw [readExact_take hp h1 h2 h3]
  · rw [headerWants, if_neg h4] at h2 ⊢
    rw [readHeader_past_first_word _ (by omega) ha, ← readExact_take hp h1 h2 h3]
    simpa using readHeader_past_first_word (kind := kind) [] (s := s) (by omega) ha

/-- A header's read with no answer (R11 (b), R41). -/
theorem readHeader_hold {kind : RecvKind} {acc : Bytes} {s : State} (ha : isHeaderPrefix acc = true)
    (hp : s.port.readPlan.pop.1 = .hold) (hb : s.ep.blocking = true) :
    readHeader kind acc s = .next { readOutstanding (headerWants acc) s with cont := .recvHeader kind acc } := by
  by_cases h4 : acc.length < 4
  · rw [headerWants, if_pos h4]
    unfold readHeader
    rw [readExact_hold hp hb h4]
    rfl
  · rw [headerWants, if_neg h4]
    have h := readHeader_past_first_word (kind := kind) [] (s := s) (by omega) ha
    rw [List.append_nil, readExact_hold hp hb (length_isHeaderPrefix ha)] at h
    exact h

/-- A payload goes on with the bytes of an answer (R106, R108). -/
theorem readPayload_take {kind : RecvKind} {n k : Nat} {acc : Bytes} {s : State}
    (hp : s.port.readPlan.pop.1 = .take k) (h1 : 1 ≤ k) (h2 : k ≤ n - acc.length) (h3 : k ≤ s.port.inb.bytes.length) :
    readPayload kind n acc s =
      readPayload kind n (acc ++ s.port.inb.bytes.take k) (afterRead (n - acc.length) k s) := by
  unfold readPayload
  rw [readExact_take hp h1 h2 h3]

/-- A payload's read with no answer (R11 (b), R41). -/
theorem readPayload_hold {kind : RecvKind} {n : Nat} {acc : Bytes} {s : State} (hl : acc.length < n)
    (hp : s.port.readPlan.pop.1 = .hold) (hb : s.ep.blocking = true) :
    readPayload kind n acc s =
      .next { readOutstanding (n - acc.length) s with cont := .recvPayload kind n acc } := by
  unfold readPayload
  rw [readExact_hold hp hb hl]
  rfl

/-- Settles O60: the loops go on with the bytes of an answer, or wait, and do not look at the continuation. -/
theorem blockingReceiveGoesOnByAnswers : Obligations.BlockingReceiveGoesOnByAnswers := by
  intro kind s hu hb
  refine ⟨fun i hi hr => ?starts, fun acc hc ha => ⟨fun k hp h1 h2 h3 => ?headerTake, fun hp => ?headerHold⟩,
    fun n acc hc hl => ⟨fun k hp h1 h2 h3 => ?payloadTake, fun hp => ?payloadHold⟩⟩
  case starts => rw [exec_isBlockingReceive hi hb hr, step_recvHeader hu]
  case headerTake =>
    have ht : undisturbed (afterRead (headerWants acc) k s) := hu
    rw [step_recvHeader ht, ← readHeader_take ha hp h1 h2 h3, ← step_recvHeader hu, with_own_cont hc]
  case headerHold =>
    have hw : step s = readHeader kind acc s := by rw [← step_recvHeader hu, with_own_cont hc]
    rw [hw, readHeader_hold ha hp hb, with_own_cont (by exact hc)]
  case payloadTake =>
    have ht : undisturbed (afterRead (n - acc.length) k s) := hu
    rw [step_recvPayload ht, ← readPayload_take hp h1 h2 h3, ← step_recvPayload hu, with_own_cont hc]
  case payloadHold =>
    have hw : step s = readPayload kind n acc s := by rw [← step_recvPayload hu, with_own_cont hc]
    rw [hw, readPayload_hold hl hp hb, with_own_cont (by exact hc)]

end Sys2Proof.Machine
end

section
/-! What the host sees of the state: creation, FLAGS, the status view, and the owner's destruction. -/

namespace Sys2Proof.Machine

/-- Settles O1: creation is R32's table. -/
theorem creationLeavesTheResetValues : Obligations.CreationLeavesTheResetValues := by
  intro p blocking hRd hWr
  exact ⟨rfl, rfl, rfl, rfl, rfl, rfl, rfl, rfl⟩

/-! ### The FLAGS word (R29) -/

/-- A bit of FLAGS is the flag R29 gives that position, and zero above them. -/
theorem getLsbD_flags (e : Endpoint) (k : Nat) :
    e.flags.getLsbD k =
      [e.readable, e.writable, e.blocking, e.closed, e.rxPhase == .inProgress].getD k false := by
  change BitVec.getLsbD (w := 3 + 1 + 1 + 1 + 1 + 1) e.flags k = _
  simp only [Endpoint.flags, BitVec.getLsbD_append]
  match k with
  | 0 | 1 | 2 | 3 | 4 => simp
  | k + 5 => simp

/-- Settles O2, bit by bit. -/
theorem flagsWordLayout : Obligations.FlagsWordLayout := by
  intro e
  refine ⟨getLsbD_flags e 0, getLsbD_flags e 1, getLsbD_flags e 2, getLsbD_flags e 3, ?_, fun k hk => ?_⟩
  · rw [getLsbD_flags e 4]
    exact beq_iff_eq
  · obtain ⟨j, rfl⟩ := Nat.exists_eq_add_of_le' hk
    exact getLsbD_flags e (j + 5)

/-! ### Creation (R32) -/

/-- An empty queue is within any capacity (R50). -/
theorem exceeds_zero (cap : Option Nat) : exceeds 0 cap = false := by
  cases cap <;> simp [exceeds]

/-- The invariant holds of every endpoint just created: it is open and holds nothing. -/
theorem inv_create (p : Params) (blocking : Bool) (hRd hWr : Handle) : Inv (State.create p blocking hRd hWr) where
  capabilities := ⟨id, id⟩
  closed := fun h => nomatch h
  receive := rfl
  blockingUnused := fun _ => ⟨rfl, rfl⟩
  desync := fun h => nomatch h
  queue := exceeds_zero p.txqCap
  cont := rfl
  closes := rfl
  request := rfl
  memory := rfl

/-- Settles O3: reset is one of the creations. -/
theorem invariantHoldsAtCreation : Obligations.InvariantHoldsAtCreation := by
  intro p blocking hRd hWr
  exact ⟨inv_create p blocking hRd hWr, inv_create Params.initial true 0 0⟩

/-! ### The status view and the capability states (R29, R139) -/

/-- A legal receive state has a context exactly in progress (R27). -/
theorem isSome_ctx_iff_of_receiveOk {e : Endpoint} {cap : Option Nat} (h : e.receiveOk cap = true) :
    e.ctx.isSome = true ↔ e.rxPhase = .inProgress := by
  obtain ⟨r, he, -⟩ := Endpoint.rx_of_receiveOk h
  rw [he]
  cases r <;> simp [Endpoint.withRx]

/-- Settles O57: the view is made of the fields, and the capability states of the two flags. -/
theorem statusViewShowsTheFields : Obligations.StatusViewShowsTheFields := by
  intro s
  refine ⟨fun hidle => ⟨_, if_pos hidle, rfl, rfl, rfl, fun c hc => ?_, fun hc => ?_, fun hinv => ?_⟩,
    fun hbusy => if_neg hbusy, ?_⟩
  · simp only [hc, Option.map_some]
  · simp only [hc, Option.map_none]
  · simpa only [Option.isSome_map] using isSome_ctx_iff_of_receiveOk hinv.receive
  · unfold Endpoint.capability
    cases s.ep.readable <;> cases s.ep.writable <;> decide

/-! ### The owner's destruction (R33, R141) -/

/-- CLOSE leaves what the close itself leaves, but for the response (R135). -/
theorem closeOnce_of_execClose {s t : State} (hc : s.cont = .idle) (h : exec .close s = .next t) :
    closeOnce s = { t with resp := s.resp } := by
  obtain ⟨-, h⟩ := whenIdle_next h
  rw [finish_next] at h
  subst h
  unfold closeOnce
  split
  · exact (with_own_cont hc).symm
  · exact (with_own_cont (s := doClose s) hc).symm

/-- The owner is destroyed between commands: CLOSE, answering nobody. -/
theorem destroyOwner_of_execClose {s t : State} (hc : s.cont = .idle) (h : exec .close s = .next t) :
    destroyOwner s = .next { t with resp := s.resp } := by
  rw [destroyOwner, whenIdle_of_idle hc, closeOnce_of_execClose hc h]

/-- The owner's destruction as an entry of the agenda (log 6). -/
theorem step_ownerDestroyed {s : State} {later : List Turn} (ha : s.agenda = .ownerDestroyed :: later) :
    step s = destroyOwner { s with agenda := later } := by
  simp only [step, ha]

/-- The owner's destruction as the host's next act, between commands (log 6). -/
theorem step_host_ownerDestroyed {s : State} {rest : List HostAct} (ha : s.agenda = []) (hc : s.cont = .idle)
    (hq : s.hostQ = .ownerDestroyed :: rest) : step s = destroyOwner { s with hostQ := rest } := by
  simp only [step, ha, coreMove, fetch, hq, if_pos hc]

/-- Settles O49: either way it comes, the step is `destroyOwner`. -/
theorem ownerDestructionIsAClose : Obligations.OwnerDestructionIsAClose := by
  intro rest later s t
  refine ⟨fun ha hc hq h => ?host, fun ha hc h => ?moment, fun ha hc => ?busy⟩
  case host =>
    rw [step_host_ownerDestroyed ha hc hq]
    exact destroyOwner_of_execClose hc h
  case moment =>
    rw [step_ownerDestroyed ha]
    exact destroyOwner_of_execClose hc h
  case busy =>
    rw [step_ownerDestroyed ha]
    exact whenIdle_of_busy hc

end Sys2Proof.Machine
end

section
/-! What a move leaves of an endpoint's rights (R21, R139), and what a closed endpoint still does (R22). -/

namespace Sys2Proof.Machine

/-! ### Rights -/

/-- The fields of an endpoint that say what it may do, and on which handles. -/
structure Endpoint.SameRights (e e' : Endpoint) : Prop where
  readable : e'.readable = e.readable
  writable : e'.writable = e.writable
  blocking : e'.blocking = e.blocking
  closed : e'.closed = e.closed
  hRd : e'.hRd = e.hRd
  hWr : e'.hWr = e.hWr

theorem Endpoint.SameRights.refl (e : Endpoint) : e.SameRights e := ⟨rfl, rfl, rfl, rfl, rfl, rfl⟩

/-- What a move can do to the rights: keep them, half-close an endpoint that can write, or close (R135, R136). -/
def Endpoint.RightsShrink (e e' : Endpoint) : Prop :=
  e.SameRights e' ∨ (e.writable = true ∧ e.halfClosed.SameRights e') ∨ e.shut.SameRights e'

theorem Endpoint.RightsShrink.refl (e : Endpoint) : e.RightsShrink e := .inl (.refl e)

theorem Endpoint.RightsShrink.shut (e : Endpoint) : e.RightsShrink e.shut := .inr (.inr (.refl e.shut))

theorem degrade_rightsShrink (s : State) : s.ep.RightsShrink (degrade s).ep := by
  cases hw : s.ep.writable
  · rw [degrade_of_not_writable hw]
    exact .shut s.ep
  · rw [degrade_of_writable hw]
    exact .inr (.inl ⟨hw, .refl _⟩)

theorem SendMoves.rightsShrink {s t : State} (h : SendMoves s t) :
    t.params = s.params ∧ s.ep.RightsShrink t.ep := by
  cases h with
  | answered st r => exact ⟨rfl, .refl s.ep⟩
  | wrote hw q c r => exact ⟨hw.params, hw.ep ▸ .inl ⟨rfl, rfl, rfl, rfl, rfl, rfl⟩⟩

theorem ReceiveMoves.rightsShrink {s t : State} (h : ReceiveMoves s t) :
    t.params = s.params ∧ s.ep.RightsShrink t.ep := by
  cases h with
  | answered st r => exact ⟨rfl, .refl s.ep⟩
  | received hr dst ph hdr ctx b c r => exact ⟨hr.params, hr.ep ▸ .inl ⟨rfl, rfl, rfl, rfl, rfl, rfl⟩⟩
  | degraded hr st r => exact ⟨(degrade_params _).trans hr.params, hr.ep ▸ degrade_rightsShrink _⟩

theorem Moves.rightsShrink {s t : State} (h : Moves s t) : t.params = s.params ∧ s.ep.RightsShrink t.ep := by
  cases h with
  | send h => exact h.rightsShrink
  | receive h => exact h.rightsShrink
  | closed c r => exact ⟨rfl, .shut s.ep⟩

theorem closeOnce_rightsShrink (s : State) : (closeOnce s).params = s.params ∧ s.ep.RightsShrink (closeOnce s).ep := by
  unfold closeOnce
  split
  · exact ⟨rfl, .refl s.ep⟩
  · exact ⟨rfl, .shut s.ep⟩

/-- The peer touches only the wires (R54). -/
theorem peerMove_frame (a : PeerAct) (s : State) :
    (peerMove a s).params = s.params ∧ (peerMove a s).ep = s.ep ∧ (peerMove a s).cont = s.cont ∧
      (peerMove a s).port.calls = s.port.calls := by
  cases a with
  | writes b =>
    simp only [peerMove]
    split <;> exact ⟨rfl, rfl, rfl, rfl⟩
  | closesWriter => exact ⟨rfl, rfl, rfl, rfl⟩
  | reads n =>
    simp only [peerMove]
    split <;> exact ⟨rfl, rfl, rfl, rfl⟩
  | closesReader => exact ⟨rfl, rfl, rfl, rfl⟩

/-- Whoever moves, the rights only shrink. -/
theorem step_rightsShrink {s t : State} (h : step s = .next t) :
    t.params = s.params ∧ s.ep.RightsShrink t.ep := by
  rcases step_cases h with ⟨a, rest, -, rfl⟩ | ⟨u, q, g, rfl, ⟨i, -, h⟩ | ⟨-, h⟩ | ⟨-, rfl⟩ | ⟨-, rfl⟩⟩
  · obtain ⟨hp, he, -⟩ := peerMove_frame a { s with agenda := rest }
    exact ⟨hp, by rw [he]; exact .refl s.ep⟩
  · exact (exec_moves h).rightsShrink
  · exact (resume_moves h).rightsShrink
  · exact ⟨rfl, .refl s.ep⟩
  · exact closeOnce_rightsShrink { s with hostQ := q, agenda := g }

/-! ### Capability states (R139) -/

theorem Endpoint.SameRights.capability {e e' : Endpoint} (h : e.SameRights e') : e'.capability = e.capability := by
  simp only [Endpoint.capability, h.readable, h.writable]

/-- A half-close takes an endpoint that can write from duplex to write-only, or leaves it write-only (R139). -/
theorem capability_halfClosed {e : Endpoint} (hw : e.writable = true) :
    e.halfClosed.capability = .writeOnly ∧ (e.capability = .duplex ∨ e.capability = .writeOnly) := by
  cases hr : e.readable <;> simp [Endpoint.capability, hr, hw]

/-- Settles O5: a step keeps the rights, half-closes, or closes. -/
theorem capabilitiesOnlyShrink : Obligations.CapabilitiesOnlyShrink := by
  intro s t h
  obtain ⟨hp, hs | ⟨hw, hs⟩ | hs⟩ := step_rightsShrink h <;> have hcap := hs.capability <;>
    obtain ⟨hr, hwr, hb, hc, hh, hh'⟩ := hs
  · exact ⟨hr ▸ id, hwr ▸ id, hc ▸ id, fun h1 h2 => by simp [hwr, h1] at h2, .inl hcap, hb, hh, hh', hp⟩
  · obtain ⟨hwo, hfrom⟩ := capability_halfClosed hw
    refine ⟨by simp [hr], fun _ => hw, by simp [hc], by simp [hwr, hw], ?_, hb, hh, hh', hp⟩
    rcases hfrom with hd | hd
    · exact .inr (.inl ⟨hd, hcap.trans hwo⟩)
    · exact .inl ((hcap.trans hwo).trans hd.symm)
  · exact ⟨by simp [hr], by simp [hwr], fun _ => hc, fun _ _ => hc, .inr (.inr ⟨hc, hcap⟩), hb, hh, hh', hp⟩

/-! ### A closed endpoint (R22, R135) -/

/-- A closed endpoint only answers: the codec as ever, the checks with an error, CLOSE with OK (R90, R105, R135). -/
theorem exec_of_closed {i : Instr} {s t : State} (hi : isCommand i = true) (hc : s.ep.closed = true)
    (h : exec i s = .next t) : ∃ st r, t = complete st r s := by
  have answer : ∀ {st r}, finish st r s = .next t → ∃ st r, t = complete st r s := fun h => ⟨_, _, finish_next.mp h⟩
  have send : ∀ {k : Out}, sendChecks s k = .next t → ∃ st r, t = complete st r s := fun h => by
    rw [sendChecks, if_pos hc] at h
    exact answer h
  have receive : ∀ {k : Out}, recvChecks s k = .next t → ∃ st r, t = complete st r s := fun h => by
    rw [recvChecks, if_pos hc] at h
    exact answer h
  cases i with
  | hdrEnc n =>
    obtain ⟨-, h⟩ := whenIdle_next h
    split at h
    · cases h
    · exact answer h
  | hdrParse b => exact answer (whenIdle_next h).2
  | frameEnc p =>
    obtain ⟨-, h⟩ := whenIdle_next h
    split at h
    · cases h
    · exact answer h
  | send v => exact send (whenIdle_next h).2
  | sendBytes b o n => exact send (whenIdle_next h).2
  | drain => exact send (whenIdle_next h).2
  | recv => exact receive (onlyInMode_next (whenIdle_next h).2).2
  | recvBytes => exact receive (onlyInMode_next (whenIdle_next h).2).2
  | recvBytesInto c => exact receive (onlyInMode_next (whenIdle_next h).2).2
  | recvNb m => exact receive (onlyInMode_next (whenIdle_next h).2).2
  | close =>
    obtain ⟨-, h⟩ := whenIdle_next h
    rw [closeOnce, if_pos hc] at h
    exact answer h
  | reserved0 => cases hi
  | reservedCF low => cases hi
  | small len => cases hi
  | large len => cases hi
  | invalidHdr rest => cases hi

/-- A closed endpoint executes nothing: it can neither write nor read (R22, R31). -/
theorem Inv.idle_of_closed {s : State} (h : Inv s) (hc : s.ep.closed = true) : s.cont = .idle := by
  obtain ⟨hr, hw, -⟩ := h.closed hc
  have hcont := h.cont
  cases hk : s.cont <;> simp [hk, contOk, hr, hw] at hcont ⊢

/-- Settles O46: only answers are left, and a second close changes nothing. -/
theorem closedEndpointIssuesNoRequest : Obligations.ClosedEndpointIssuesNoRequest := by
  intro s t hinv hc h
  have hidle := hinv.idle_of_closed hc
  rcases step_cases h with ⟨a, rest, -, rfl⟩ | ⟨u, q, g, rfl, ⟨i, hi, h⟩ | ⟨hbusy, -⟩ | ⟨-, rfl⟩ | ⟨-, rfl⟩⟩
  · obtain ⟨-, he, hk, hq⟩ := peerMove_frame a { s with agenda := rest }
    exact ⟨he, hq, hk.trans hidle⟩
  · obtain ⟨st, r, rfl⟩ := exec_of_closed hi (by exact hc) h
    exact ⟨rfl, rfl, rfl⟩
  · exact absurd hidle hbusy
  · exact ⟨rfl, rfl, hidle⟩
  · rw [closeOnce, if_pos (by exact hc)]
    exact ⟨rfl, rfl, hidle⟩

end Sys2Proof.Machine
end

section
/-! A blocking receive accounts for every byte (R106 to R110), however it ends or waits. -/

namespace Sys2Proof.Machine

/-! ### A held receive on an eager transport -/

/-- An undisturbed step goes on with the header of the receive that is executing (R31, R107). -/
theorem step_of_recvHeader {kind : RecvKind} {acc : Bytes} {s : State} (hu : undisturbed s)
    (hc : s.cont = .recvHeader kind acc) : step s = readHeader kind acc s := by
  rw [← step_recvHeader hu, with_own_cont hc]

/-- The same of its payload (R31, R108). -/
theorem step_of_recvPayload {kind : RecvKind} {n : Nat} {acc : Bytes} {s : State} (hu : undisturbed s)
    (hc : s.cont = .recvPayload kind n acc) : step s = readPayload kind n acc s := by
  rw [← step_recvPayload hu, with_own_cont hc]

/-- A header in hand and its payload on an eager wire: the command ends with OK (R107 to R110). -/
theorem headerInHand_eager {kind : RecvKind} {h p rest : Bytes} {s : State} (he : eagerReads s.port)
    (hh : isHeader h p.length) (hx : exceeds p.length s.params.rxCap = false) (ht : kind.tooSmall p.length = false)
    (hw : s.port.inb.bytes = p ++ rest) :
    headerInHand kind h s = deliverPayload kind p (afterReads (payloadReads p.length) rest s) := by
  rw [headerInHand_isHeader hh, headerResolved_recvHeader (s := { s with cont := .recvHeader kind h }) rfl hx, ht,
    if_neg (by decide), readPayload_withCont]
  exact readPayload_eager (acc := []) he (Nat.zero_le _) hw

/-- The bytes of a header and no more are fetched whole (R61, R62). -/
theorem decodeHeader_whole {h : Bytes} {n : Nat} (hh : isHeader h n) :
    ∃ i, decodeHeader h = .fetched i h.length := by
  rcases decodeHeader_isHeader hh [] with ⟨len, hd, -⟩ | ⟨len, hd, -⟩ <;> rw [List.append_nil] at hd
  · exact ⟨_, hd⟩
  · exact ⟨_, hd⟩

/-- Settles O36: what is missing of the header, then what is missing of the payload, comes at once. -/
theorem heldReceiveCompletes : Obligations.HeldReceiveCompletes := by
  intro kind h p acc rest s ha hq he hh hx ht hheld
  have delivers : ∃ asked, step s = deliverPayload kind p (afterReads asked rest s) := by
    rcases hheld with ⟨hc, hp, hw⟩ | ⟨hc, hl, hw⟩
    · obtain ⟨i, hd⟩ := decodeHeader_whole hh
      rw [List.append_assoc] at hw
      obtain ⟨asked, -, hread, -⟩ := readHeader_eager (kind := kind) he hd hp hw
      rw [step_of_recvHeader ⟨ha, hq⟩ hc, hread,
        headerInHand_eager (s := afterReads asked (p ++ rest) s) he hh hx ht rfl, afterReads_afterReads]
      exact ⟨_, rfl⟩
    · rw [step_of_recvPayload ⟨ha, hq⟩ hc, readPayload_eager he hl.le hw]
      exact ⟨_, rfl⟩
  obtain ⟨asked, hstep⟩ := delivers
  obtain ⟨d, hd, hdeliver⟩ := deliverPayload_eq kind p (afterReads asked rest s)
  exact ⟨asked, d, hd, hstep.trans hdeliver⟩

/-! ### What a blocking receive leaves, however it ends -/

/-- What a blocking receive that takes `got` off the inbound wire leaves of the rest of the state. -/
structure ReceiveFrame (s t : State) (got : Bytes) : Prop where
  params : t.params = s.params
  hostQ : t.hostQ = s.hostQ
  agenda : t.agenda = s.agenda
  outBytes : t.port.outb.bytes = s.port.outb.bytes
  writePlan : t.port.writePlan = s.port.writePlan
  inClosed : t.port.inb.wclosed = s.port.inb.wclosed
  inBytes : s.port.inb.bytes = got ++ t.port.inb.bytes

/-- A degradation keeps what reads keep, the wire's bytes included (R136). -/
theorem ReceiveFrame.degrade {s u : State} {got : Bytes} (h : ReceiveFrame s u got) :
    ReceiveFrame s (degrade u) got := by
  unfold Machine.degrade
  split
  · exact { h with }
  · exact { h with }

theorem Reads.receiveFrame {s u : State} {got : Bytes} (h : Reads s u got) : ReceiveFrame s u got := by
  obtain ⟨hp, -, -, -, hq, ha, ho, hw, -, hc, -, hb, -⟩ := h.frame
  exact ⟨hp, hq, ha, by rw [ho], hw, hc, hb⟩

theorem ReceiveEnds.receiveFrame {kind : RecvKind} {ready : Prop} {s t : State} {acc d : Bytes} {o : Out}
    (he : ReceiveEnds kind ready s acc d o) (ho : o = .next t) : ReceiveFrame s t d := by
  cases he with
  | @frame _ _ _ p u hh hx ht hr hu =>
    obtain ⟨m, -, e⟩ := deliverPayload_eq kind p u
    rw [e] at ho
    cases ho
    exact { hr.receiveFrame with }
  | eof hr hu hq => cases ho; exact { hr.receiveFrame with }
  | truncated hne hr hu => cases ho; exact { hr.receiveFrame.degrade with }
  | bad hne hr hu => cases ho; exact { hr.receiveFrame.degrade with }
  | failed e hr hu => cases ho; exact { hr.receiveFrame with }
  | heldHeader hp hr hu hq => cases ho; exact { hr.receiveFrame with }
  | heldPayload hh hx hl hc ht hr hu hq => cases ho; exact { hr.receiveFrame with }
  | refused r => cases ho

theorem Reads.dst {s t : State} {got : Bytes} (h : Reads s t got) : t.dst = s.dst := by
  obtain ⟨-, -, -, hd, -⟩ := h.frame
  exact hd

theorem Reads.resp {s t : State} {got : Bytes} (h : Reads s t got) : t.resp = s.resp := by
  obtain ⟨-, -, hr, -⟩ := h.frame
  exact hr

theorem Reads.outb {s t : State} {got : Bytes} (h : Reads s t got) : t.port.outb = s.port.outb := by
  obtain ⟨-, -, -, -, -, -, ho, -⟩ := h.frame
  exact ho

/-- Settles O59: a start and a step are both a receive with `pre` in hand, which ends or waits in one of the ways of
`ReceiveEnds`. -/
theorem blockingReceiveKeepsEveryByte : Obligations.BlockingReceiveKeepsEveryByte := by
  intro i kind pre s t hstart
  obtain ⟨ready, d, o, he, ho⟩ : ∃ ready d o, ReceiveEnds kind ready s pre d o ∧ o = .next t := by
    rcases hstart with ⟨hi, hr, hb, rfl, hx⟩ | ⟨hu, hc, hp, hx⟩ | ⟨hu, hx, n, h, acc, hc, hl, hh, hcap, hfit, rfl⟩
    · rw [exec_isBlockingReceive hi hb hr] at hx
      obtain ⟨d, hd⟩ := readHeader_ends (kind := kind) (acc := []) (s := s) rfl
      exact ⟨_, d, _, hd, hx⟩
    · rw [step_of_recvHeader hu hc] at hx
      obtain ⟨d, hd⟩ := readHeader_ends (kind := kind) (s := s) hp
      exact ⟨_, d, _, hd, hx⟩
    · rw [step_of_recvPayload hu hc] at hx
      obtain ⟨d, hd⟩ := readPayload_ends hh hl.le hcap hfit (s := s) (.inl hl)
      exact ⟨_, d, _, hd, hx⟩
  obtain ⟨hparams, hhost, hagenda, hout, hplan, hin, hbytes⟩ := he.receiveFrame ho
  refine ⟨hparams, hhost, hagenda, hout, hplan, hin, d, hbytes, ?_⟩
  cases he with
  | @frame _ _ h p u hh hx ht hr hu =>
    obtain ⟨m, hm, e⟩ := deliverPayload_eq kind p u
    rw [hr.dst] at hm
    rw [hr.params] at e
    cases e.symm.trans ho
    exact .inr ⟨rfl, .inl ⟨h, p, hh, hx, hr.ep, hm, rfl⟩⟩
  | eof hr hu hq =>
    cases ho
    exact .inr ⟨rfl, .inr ⟨hr.dst, .inl ⟨rfl, hr.ep, rfl⟩⟩⟩
  | @truncated _ _ u hne hr hu =>
    cases ho
    exact .inr ⟨rfl, .inr ⟨(degrade_dst u).trans hr.dst, .inr (.inl ⟨hne, hr.ep ▸ degrade_ep u, .inl rfl⟩)⟩⟩
  | @bad _ _ u hne hr hu =>
    cases ho
    exact .inr ⟨rfl, .inr ⟨(degrade_dst u).trans hr.dst, .inr (.inl ⟨hne, hr.ep ▸ degrade_ep u, .inr rfl⟩)⟩⟩
  | failed e hr hu =>
    cases ho
    exact .inr ⟨rfl, .inr ⟨hr.dst, .inr (.inr ⟨hr.ep ▸ rfl, e, rfl⟩)⟩⟩
  | heldHeader hp hr hu hq =>
    cases ho
    exact .inl ⟨hr.ep, hr.dst, hr.resp, hr.outb, hu, .inl ⟨rfl, hp⟩⟩
  | @heldPayload _ _ h p n u hh hx hl hc ht hr hu hq =>
    cases ho
    exact .inl ⟨hr.ep, hr.dst, hr.resp, hr.outb, hu, .inr ⟨h, n, p, rfl, hh, hx, hl⟩⟩
  | refused r => cases ho

end Sys2Proof.Machine
end

section
/-! A non-blocking receive accounts for every byte (R28, R122 to R125). -/

namespace Sys2Proof.Machine

/-- The pending tail of R28 is what the receive state stands for, in whichever form it is. -/
theorem Rx.tail_of_isTail {r : Rx} {e : Endpoint} {T : Bytes} (hr : e = e.withRx r) (hT : Machine.isTail e T) :
    r.tail T := by
  rw [hr] at hT
  cases r with
  | header b =>
    rcases hT with ⟨-, -, rfl⟩ | ⟨hph, -⟩
    · rfl
    · cases hph
  | payload c =>
    rcases hT with ⟨hph, -⟩ | ⟨-, -, c', h, hc, -, hh, rfl⟩
    · cases hph
    · cases hc
      exact ⟨h, hh, rfl⟩

/-- What Assemble makes of the bytes it is given, those of the pending tail before them (R28, R122 to R125). -/
theorem assemble_spec {s : State} {T : Bytes} (b : Bytes) (hok : s.ep.receiveOk s.params.rxCap = true)
    (hT : isTail s.ep T) :
    (∃ fs r' T', areFrames fs ∧ isTail (s.ep.withRx r') T' ∧ T ++ b = wireOf fs ++ T' ∧
      assemble b s =
        .next (complete .ok (.values (fs.map fun x => serDecode s.params.serializer x.2)) (s.withRx r'))) ∨
    (∃ fs w junk, areFrames fs ∧ isIllegalWord w ∧ T ++ b = wireOf fs ++ w ++ junk ∧
      assemble b s =
        .next (complete .badMessageLengthError (.values (fs.map fun x => serDecode s.params.serializer x.2))
          (degrade s))) ∨
    (s.params.rxCap ≠ none ∧ assemble b s = .refused .rxCapacity) := by
  obtain ⟨r, hr, hrests, -⟩ := Endpoint.rx_of_receiveOk hok
  obtain ⟨f, hf, e⟩ := assemble_eq hr b
  have hcap : ∀ c, r = .payload c → exceeds (c.payload.length + c.remaining) s.params.rxCap = false := by
    rintro c rfl
    exact hrests.2
  rw [e]
  rcases assembleLoop_spec (out := []) hf (Rx.tail_of_isTail hr hT) hcap with
    ⟨fs, r', T', hfs, hT', hr', hsplit, e⟩ | ⟨fs, w, junk, hfs, hill, hsplit, e⟩ | hbound
  · exact .inl ⟨fs, r', T', hfs, Rx.isTail s.ep hT' hr', hsplit, e⟩
  · exact .inr (.inl ⟨fs, w, junk, hfs, hill, hsplit, e⟩)
  · exact .inr (.inr hbound)

/-- A non-blocking receive that may start reads once (R120, R121). -/
theorem exec_recvNb {m : Nat} {s : State} (hr : canReceive s) (hnb : s.ep.blocking = false) (hm : m ≠ 0) :
    exec (.recvNb m) s = readOnce m s := by
  obtain ⟨hidle, hclosed, hread, hsync⟩ := hr
  simp only [exec, execRecvNb]
  rw [whenIdle_of_idle hidle, onlyInMode_of_eq hnb, recvChecks_pass hclosed hread hsync, nonNegative_natCast,
    if_neg hm]

/-- The bytes in front of the wire, when they are the transport's next answer (R41). -/
theorem tRead_nextReadGives {m : Nat} {b rest : Bytes} {s : State} (hb : b ≠ []) (hm : b.length ≤ m)
    (hw : s.port.inb.bytes = b ++ rest) :
    tRead m (nextReadGives b.length s) =
      .answered (.data b) (dropInbound b.length (readIssued m (nextReadGives b.length s))) := by
  have hlen : ¬ m < b.length := by omega
  simp [tRead, nextReadGives, readAnswer, deliver, hw, hb, hlen]

/-- A full close, and only that, empties the queue of an open endpoint (R135, R136). -/
theorem degrade_txq {s : State} (hc : s.ep.closed = false) :
    (degrade s).ep.txq = if (degrade s).ep.closed then [] else s.ep.txq := by
  cases hw : s.ep.writable
  · rw [degrade_of_not_writable hw]
    rfl
  · simp [degrade_of_writable hw, hc]

/-- Reassembly does not touch the queue, nor close (R122). -/
theorem withRx_txq {e : Endpoint} (hc : e.closed = false) (r : Rx) :
    (e.withRx r).txq = if (e.withRx r).closed then [] else e.txq := by
  cases r <;> simp [Endpoint.withRx, hc]

/-- Settles O6: the one read brings `b` to Assemble. -/
theorem noReceivedByteIsLostOrReordered : Obligations.NoReceivedByteIsLostOrReordered := by
  intro m b rest T s hr hnb hb hm hw hok hT
  have ⟨_, hopen, _, _⟩ := hr
  have hpos : 0 < b.length := List.length_pos_iff.mpr hb
  have hrest : s.port.inb.bytes.drop b.length = rest := by rw [hw, List.drop_left]
  rw [exec_recvNb (s := nextReadGives b.length s) hr hnb (by omega), readOnce, tRead_nextReadGives hb hm hw]
  rcases assemble_spec (s := dropInbound b.length (readIssued m (nextReadGives b.length s))) b hok hT with
    ⟨fs, r, T', hfs, hT', hsplit, e⟩ | ⟨fs, w, junk, hfs, hill, hsplit, e⟩ | ⟨hbound, e⟩ <;> simp only [e]
  · refine ⟨fun _ => ⟨_, rfl⟩, fun t ht => ?_⟩
    cases ht
    exact ⟨hrest, withRx_txq hopen r, fs, hfs, .inl ⟨rfl, T', hT', hsplit⟩⟩
  · refine ⟨fun _ => ⟨_, rfl⟩, fun t ht => ?_⟩
    cases ht
    exact ⟨(degrade_port_inb_bytes _).trans hrest, degrade_txq hopen, fs, hfs,
      .inr ⟨rfl, degrade_ep _, w, junk, hill, hsplit⟩⟩
  · exact ⟨fun hnone => absurd hnone hbound, fun t ht => by cases ht⟩

end Sys2Proof.Machine
end

section
/-! What a step asks of the transport (R41 to R43), what the peer does to the wires (R54), and that commands do not
overlap (R53). -/

namespace Sys2Proof.Machine

/-! ### Requests (R41 to R43) -/

/-- A request an endpoint may make: a non-empty read or write, or a close, on a handle of its own. -/
def Endpoint.MayRequest (e : Endpoint) (r : Request) : Prop :=
  (∃ max, r = .read e.hRd max ∧ 1 ≤ max) ∨ (∃ b, r = .write e.hWr b ∧ b ≠ []) ∨ r = .close e.hRd ∨ r = .close e.hWr

/-- From `s` to `t` only such requests are issued, after those already on the port. -/
def Issues (s t : State) : Prop :=
  ∃ new, t.port.calls = s.port.calls ++ new ∧ ∀ r ∈ new, s.ep.MayRequest r

theorem Issues.of_calls_eq {s t : State} (h : t.port.calls = s.port.calls) : Issues s t :=
  ⟨[], by rw [h, List.append_nil], fun _ hr => nomatch hr⟩

theorem Issues.trans {s t u : State} (h₁ : Issues s t) (he : t.ep = s.ep) (h₂ : Issues t u) : Issues s u := by
  obtain ⟨a, ha, hma⟩ := h₁
  obtain ⟨b, hb, hmb⟩ := h₂
  rw [he] at hmb
  exact ⟨a ++ b, by rw [hb, ha, List.append_assoc], fun r hr => (List.mem_append.mp hr).elim (hma r) (hmb r)⟩

theorem Reads.issues {s t : State} {got : Bytes} (h : Reads s t got) : Issues s t := by
  obtain ⟨_, rest, plan, asked, held, -, hpos, rfl⟩ := h
  refine ⟨asked.map (.read s.ep.hRd), rfl, fun r hr => ?_⟩
  obtain ⟨n, hn, rfl⟩ := List.mem_map.mp hr
  exact .inl ⟨n, rfl, hpos n hn⟩

theorem WritesOnly.issues {s t : State} {put : Bytes} (h : WritesOnly s t put) : Issues s t := by
  obtain ⟨plan, offered, held, hne, rfl⟩ := h
  refine ⟨offered.map (.write s.ep.hWr), rfl, fun r hr => ?_⟩
  obtain ⟨b, hb, rfl⟩ := List.mem_map.mp hr
  exact .inr (.inl ⟨b, rfl, hne b hb⟩)

/-- A close asks for its own handles only (R135). -/
theorem doClose_issues (s : State) : Issues s (doClose s) := by
  refine ⟨(ownedHandles s.params s.ep).map .close, rfl, fun r hr => ?_⟩
  obtain ⟨h, hh, rfl⟩ := List.mem_map.mp hr
  exact .inr (.inr ((ownedHandles_mem hh).imp (congrArg _) (congrArg _)))

theorem closeOnce_issues (s : State) : Issues s (closeOnce s) := by
  unfold closeOnce
  split
  · exact .of_calls_eq rfl
  · exact doClose_issues s

theorem degrade_issues (s : State) : Issues s (degrade s) := by
  unfold degrade
  split
  · exact .of_calls_eq rfl
  · exact doClose_issues s

theorem SendMoves.issues {s t : State} (h : SendMoves s t) : Issues s t := by
  cases h with
  | answered st r => exact .of_calls_eq rfl
  | wrote hw q c r => exact hw.issues

theorem ReceiveMoves.issues {s t : State} (h : ReceiveMoves s t) : Issues s t := by
  cases h with
  | answered st r => exact .of_calls_eq rfl
  | received hr dst ph hdr ctx b c r => exact hr.issues
  | @degraded u d hr st r => exact hr.issues.trans hr.ep (degrade_issues u)

theorem Moves.issues {s t : State} (h : Moves s t) : Issues s t := by
  cases h with
  | send h => exact h.issues
  | receive h => exact h.issues
  | closed c r => exact doClose_issues s

/-- Settles O7: a step is the peer's move, a send's, a receive's or a close. -/
theorem requestsAreNeverEmpty : Obligations.RequestsAreNeverEmpty := by
  intro s t h
  rcases step_cases h with ⟨a, rest, -, rfl⟩ | ⟨u, q, g, rfl, ⟨i, -, h⟩ | ⟨-, h⟩ | ⟨-, rfl⟩ | ⟨-, rfl⟩⟩
  · obtain ⟨-, -, -, hq⟩ := peerMove_frame a { s with agenda := rest }
    exact Issues.of_calls_eq (s := s) hq
  · exact (exec_moves h).issues
  · exact (resume_moves h).issues
  · exact Issues.of_calls_eq (s := s) rfl
  · exact closeOnce_issues { s with hostQ := q, agenda := g }

/-! ### The peer (R43, R54) -/

/-- Settles O54, act by act. -/
theorem peerActsReachOnlyTheWires : Obligations.PeerActsReachOnlyTheWires := by
  intro a rest s ha
  have hstep : step s = .next (peerMove a { s with agenda := rest }) := by simp only [step, ha]
  rw [hstep]
  cases a with
  | writes b =>
    by_cases hopen : s.port.inb.wclosed = false ∧ s.port.inb.rclosed = false
    · exact ⟨{ s.port.inb with bytes := s.port.inb.bytes ++ b }, s.port.outb, by simp [peerMove, hopen], by simp [hopen]⟩
    · have hshut : s.port.inb.wclosed = true ∨ s.port.inb.rclosed = true := by
        simpa only [not_and_or, Bool.not_eq_false] using hopen
      exact ⟨s.port.inb, s.port.outb, by simp [peerMove, hshut], by simp [hopen]⟩
  | closesWriter => exact ⟨_, s.port.outb, rfl, by simp⟩
  | reads n =>
    cases hgone : s.port.outb.rclosed
    · exact ⟨s.port.inb, { s.port.outb with bytes := s.port.outb.bytes.drop n }, by simp [peerMove, hgone],
        by simp [hgone]⟩
    · exact ⟨s.port.inb, s.port.outb, by simp [peerMove, hgone], by simp [hgone]⟩
  | closesReader => exact ⟨s.port.inb, _, rfl, by simp⟩

/-! ### One command at a time (R53) -/

/-- Every command passes the gate of `whenIdle` first (R155). -/
theorem exec_of_busy {i : Instr} {s : State} (hi : isCommand i = true) (hc : s.cont ≠ .idle) :
    exec i s = .refused .overlappingCommand := by
  cases i with
  | reserved0 => cases hi
  | reservedCF low => cases hi
  | small len => cases hi
  | large len => cases hi
  | invalidHdr rest => cases hi
  | _ => exact whenIdle_of_busy hc

/-- A command presented at once meets the instruction it decodes to, whatever is executing (R53). -/
theorem step_intrude {c : Command} {i : Instr} {rest : List HostAct} {s : State} (ha : s.agenda = [])
    (hq : s.hostQ = .intrude c :: rest) (hd : decodeCommand c = .ok i) : step s = exec i { s with hostQ := rest } := by
  simp only [step, ha, coreMove, fetch, hq, fetchCommand, hd]

/-- Settles O8: the gate is the first thing a command meets, however it is presented. -/
theorem overlappingCommandIsRefused : Obligations.OverlappingCommandIsRefused := by
  intro i c rest s hi hc
  refine ⟨exec_of_busy hi hc, fun ha hq hd => ?_⟩
  rw [step_intrude ha hq hd]
  exact exec_of_busy (s := { s with hostQ := rest }) hi hc

end Sys2Proof.Machine
end

section
/-! A command that meets an answer outside the transport's contract is refused (R41, R42, U1, U2; log 3). -/

namespace Sys2Proof.Machine

/-! ### One request (R41, R42) -/

/-- Would-block is no answer to a blocking endpoint while the stream goes on (R41, U2). -/
theorem tRead_wouldBlock {max : Nat} {s : State} (hb : s.ep.blocking = true) (h : readWouldBlock s.port) :
    tRead max s = .breach .wouldBlockInBlockingMode := by
  obtain ⟨hp, hgoing⟩ := h
  have hends : ¬ (s.port.inb.bytes = [] ∧ s.port.inb.wclosed = true) := fun ⟨he, hc⟩ =>
    hgoing.elim (· he) (fun ho => Bool.noConfusion (ho.symm.trans hc))
  simp [tRead, hp, readAnswer, hends, hb]

/-- No byte, or more than were asked for (R41, U1). -/
theorem tRead_breaksContract {want : Nat} {s : State} (h : breaksReadContract want s.port) :
    tRead want s = .breach .transportContractBreach := by
  obtain ⟨hne, k, hp, hk⟩ := h
  have hbad : s.port.inb.bytes.take k = [] ∨ want < (s.port.inb.bytes.take k).length := by
    rcases hk with rfl | ⟨hk, hlen⟩
    · exact .inl List.take_zero
    · exact .inr (by rw [List.length_take]; omega)
  simp only [tRead, hp, readAnswer, deliver, if_neg hne, if_pos hbad]

/-- A read of a non-blocking endpoint that has no answer (log 3). -/
theorem tRead_hold_nonblocking {max : Nat} {s : State} (hb : s.ep.blocking = false)
    (hp : s.port.readPlan.pop.1 = .hold) : tRead max s = .breach .transportHeld := by
  simp [tRead, hp, readAnswer, hb]

/-- Would-block is no answer to a blocking endpoint (R42, U2). -/
theorem tWrite_wouldBlock {b : Bytes} {s : State} (hb : s.ep.blocking = true)
    (hp : s.port.writePlan.pop.1 = .wouldBlock) : tWrite b s = .breach .wouldBlockInBlockingMode := by
  simp [tWrite, hp, writeAnswer, hb]

/-- More bytes confirmed than were offered (R42, U1). -/
theorem tWrite_breaksContract {b : Bytes} {s : State} (h : breaksWriteContract b.length s.port) :
    tWrite b s = .breach .transportContractBreach := by
  obtain ⟨n, hp, hn⟩ := h
  simp only [tWrite, hp, writeAnswer, if_pos hn]

/-- A write of a non-blocking endpoint that has no answer (log 3). -/
theorem tWrite_hold_nonblocking {b : Bytes} {s : State} (hb : s.ep.blocking = false)
    (hp : s.port.writePlan.pop.1 = .hold) : tWrite b s = .breach .transportHeld := by
  simp [tWrite, hp, writeAnswer, hb]

/-! ### The command that made the request -/

/-- A refused read refuses the receive that is reading its header (R106, R107). -/
theorem readHeader_breach {kind : RecvKind} {acc : Bytes} {s : State} {r : Refusal} (ha : isHeaderPrefix acc = true)
    (hr : tRead (headerWants acc) s = .breach r) : readHeader kind acc s = .refused r := by
  by_cases h4 : acc.length < 4
  · rw [headerWants, if_pos h4] at hr
    rw [readHeader, readExact_breach h4 hr]
    rfl
  · rw [headerWants, if_neg h4] at hr
    have h := readHeader_past_first_word (kind := kind) [] (s := s) (by omega) ha
    rw [List.append_nil, readExact_breach (length_isHeaderPrefix ha) hr] at h
    exact h

/-- The same of its payload (R106, R108). -/
theorem readPayload_breach {kind : RecvKind} {n : Nat} {acc : Bytes} {s : State} {r : Refusal} (hl : acc.length < n)
    (hr : tRead (n - acc.length) s = .breach r) : readPayload kind n acc s = .refused r := by
  rw [readPayload, readExact_breach hl hr]
  rfl

/-- The one read of a non-blocking receive (R121). -/
theorem readOnce_breach {max : Nat} {s : State} {r : Refusal} (hr : tRead max s = .breach r) :
    readOnce max s = .refused r := by
  rw [readOnce, hr]

/-- A refused write refuses the blocking send, from any of its chunks on (R93). -/
theorem writeChunks_breach {c : Bytes} {rest : List Bytes} {s : State} {r : Refusal} (hc : c ≠ [])
    (hr : tWrite c s = .breach r) : writeChunks (c :: rest) s = .refused r := by
  obtain ⟨k, hk⟩ := Nat.exists_eq_succ_of_ne_zero (mt List.length_eq_zero_iff.mp hc)
  rw [writeChunks, hk, writeAll, if_neg hc, hr]

/-- The one write of a drain (R96). -/
theorem drainOnce_breach {s : State} {r : Refusal} (hq : s.ep.txq ≠ []) (hr : tWrite s.ep.txq s = .breach r) :
    drainOnce s = .refused r := by
  rw [drainOnce, if_neg hq, hr]

/-! ### What a send-side command comes to past its checks -/

/-- A slice that MemRead admits is valid (R47, R91). -/
theorem sliceValid_of_bounds {b : Bytes} {o n : Int} (ho : 0 ≤ o) (hn : 0 ≤ n) (h : o + n ≤ b.length) :
    sliceValid b o n = true := by
  have hob : o ≤ b.length := by omega
  simp [sliceValid, ho, hn, hob, h]

/-- The whole of a buffer is a slice of it (R98). -/
theorem slice_whole (b : Bytes) : slice b 0 b.length = b := by
  simp [slice]

/-- A send that may start frames its payload (R90, R91, R98). -/
theorem exec_framesPayload {i : Instr} {p : Bytes} {s : State} (hi : framesPayload s i p) (hs : canSend s) :
    exec i s = sendFrame p s := by
  obtain ⟨hidle, hclosed, hwrite⟩ := hs
  have gates : ∀ {b : Bytes} {o n : Int}, 0 ≤ o → 0 ≤ n → o + n ≤ b.length →
      (whenIdle s <| sendSlice b o n s) = sendFrame (slice b o n) s := fun ho hn h => by
    rw [whenIdle_of_idle hidle, sendSlice, sendChecks_pass hclosed hwrite, if_pos (sliceValid_of_bounds ho hn h)]
  rcases hi with ⟨v, rfl, rfl⟩ | ⟨b, o, n, rfl, ho, hn, h, rfl⟩
  · refine (gates (b := serEncode s.params.serializer v) le_rfl (Int.natCast_nonneg _) ?_).trans ?_
    · omega
    · rw [slice_whole]
  · exact gates ho hn h

/-- The blocking variant (R92, R94). -/
theorem sendFrame_blocking {p : Bytes} {s : State} (hb : s.ep.blocking = true) (hp : p.length ≤ Config.lenMax) :
    sendFrame p s = writeChunks (chunks s.params.coalesceMax p) s := by
  rw [sendFrame, if_neg (Nat.not_lt.mpr hp), if_pos hb]

/-- The non-blocking variant, with room in the queue (R95). -/
theorem sendFrame_nonblocking {p : Bytes} {s : State} (hb : s.ep.blocking = false) (hp : p.length ≤ Config.lenMax)
    (hx : exceeds (s.ep.txq.length + (frameEnc p).length) s.params.txqCap = false) :
    sendFrame p s = drainOnce { s with ep := { s.ep with txq := s.ep.txq ++ frameEnc p } } := by
  simp [sendFrame, Nat.not_lt.mpr hp, hb, sendNonBlocking, hx]

/-- A drain that may start (R97). -/
theorem exec_drain {s : State} (hs : canSend s) : exec .drain s = drainOnce s := by
  obtain ⟨hidle, hclosed, hwrite⟩ := hs
  exact (whenIdle_of_idle hidle).trans (sendChecks_pass hclosed hwrite)

/-- An undisturbed step goes on with the chunks of the send that is executing (R31, R93). -/
theorem step_of_writing {c : Bytes} {rest : List Bytes} {s : State} (hu : undisturbed s)
    (hc : s.cont = .writing c rest) : step s = writeChunks (c :: rest) s := by
  rw [step_eq_resume hu (by rw [hc]; exact Cont.noConfusion)]
  simp only [resume, hc]

/-- Settles O50: each command passes its refused request on. -/
theorem brokenTransportContractIsRefused : Obligations.BrokenTransportContractIsRefused := by
  intro i kind p m s
  refine ⟨fun hi hr hb => ?receiveStarts, fun hu hb want acc hc => ?receiveGoesOn,
    fun hi hs hb hp c rest hc => ?sendStarts, fun hu hb c rest hc hne => ?sendGoesOn,
    fun hr hb hm => ?receiveOnce, fun hi hs hb hp hx => ?queues, fun hs hb hq => ?drains⟩
  case receiveStarts =>
    have pass : ∀ {r}, tRead 4 s = .breach r → exec i s = .refused r := fun h => by
      rw [exec_isBlockingReceive hi hb hr]
      exact readHeader_breach (acc := []) rfl h
    exact ⟨fun h => pass (tRead_wouldBlock hb h), fun h => pass (tRead_breaksContract h)⟩
  case receiveGoesOn =>
    have pass : ∀ {r}, tRead want s = .breach r → step s = .refused r := fun h => by
      rcases hc with ⟨hc, ha, rfl⟩ | ⟨n, hc, hl, rfl⟩
      · rw [step_of_recvHeader hu hc, readHeader_breach ha h]
      · rw [step_of_recvPayload hu hc, readPayload_breach hl h]
    exact ⟨fun h => pass (tRead_wouldBlock hb h), fun h => pass (tRead_breaksContract h)⟩
  case sendStarts =>
    have hne : c ≠ [] := chunks_ne_nil s.params.coalesceMax p c (by rw [hc]; exact List.mem_cons_self)
    have pass : ∀ {r}, tWrite c s = .breach r → exec i s = .refused r := fun h => by
      rw [exec_framesPayload hi hs, sendFrame_blocking hb hp, hc, writeChunks_breach hne h]
    exact ⟨fun h => pass (tWrite_wouldBlock hb h), fun h => pass (tWrite_breaksContract h)⟩
  case sendGoesOn =>
    have pass : ∀ {r}, tWrite c s = .breach r → step s = .refused r := fun h => by
      rw [step_of_writing hu hc, writeChunks_breach hne h]
    exact ⟨fun h => pass (tWrite_wouldBlock hb h), fun h => pass (tWrite_breaksContract h)⟩
  case receiveOnce =>
    have pass : ∀ {r}, tRead m s = .breach r → exec (.recvNb m) s = .refused r := fun h => by
      rw [exec_recvNb hr hb (by omega), readOnce_breach h]
    exact ⟨fun h => pass (tRead_hold_nonblocking hb h), fun h => pass (tRead_breaksContract h)⟩
  case queues =>
    let t : State := { s with ep := { s.ep with txq := s.ep.txq ++ frameEnc p } }
    have hne : t.ep.txq ≠ [] := List.append_ne_nil_of_right_ne_nil _ (frameEnc_ne_nil p)
    have pass : ∀ {r}, tWrite t.ep.txq t = .breach r → exec i s = .refused r := fun h => by
      rw [exec_framesPayload hi hs, sendFrame_nonblocking hb hp hx, drainOnce_breach hne h]
    exact ⟨fun h => pass (tWrite_hold_nonblocking hb h), fun h => pass (tWrite_breaksContract h)⟩
  case drains =>
    have pass : ∀ {r}, tWrite s.ep.txq s = .breach r → exec .drain s = .refused r := fun h => by
      rw [exec_drain hs, drainOnce_breach hq h]
    exact ⟨fun h => pass (tWrite_hold_nonblocking hb h), fun h => pass (tWrite_breaksContract h)⟩

end Sys2Proof.Machine
end

section
/-! A value sent by one blocking endpoint over an eager wire is the value received by the other (R51, R159). -/

namespace Sys2Proof.Machine

/-! ### A blocking send on an eager transport (R54, R92 to R94) -/

/-- The eager transport confirms everything offered (R42, R54). -/
theorem tWrite_eager {s : State} (he : eagerWrites s.port) (c : Bytes) :
    tWrite c s = .answered (.wrote c.length) (afterWrite c c.length s) := by
  obtain ⟨hplan, hthere⟩ := he
  simp [tWrite, hplan, writeAnswer, hthere, appendOutbound, writeIssued, afterWrite]

/-- So a chunk takes one write (R93). -/
theorem writeAll_eager {s : State} {c : Bytes} (he : eagerWrites s.port) (hc : c ≠ []) :
    writeAll c.length c s = .done (afterWrite c c.length s) := by
  obtain ⟨k, hk⟩ := Nat.exists_eq_succ_of_ne_zero (mt List.length_eq_zero_iff.mp hc)
  have hrest : writeAll k [] (afterWrite c c.length s) = .done (afterWrite c c.length s) := by
    cases k <;> rw [writeAll, if_pos rfl]
  rw [hk, writeAll, if_neg hc, tWrite_eager he, ← hk]
  simp only [mt List.length_eq_zero_iff.mp hc, if_false, List.drop_length, hrest]

theorem WritesOnly.outb_bytes {s t : State} {put : Bytes} (h : WritesOnly s t put) :
    t.port.outb.bytes = s.port.outb.bytes ++ put := by
  obtain ⟨plan, offered, held, -, rfl⟩ := h
  rfl

/-- One answered write is a write and nothing else. -/
theorem writesOnly_afterWrite {c : Bytes} (hc : c ≠ []) (s : State) : WritesOnly s (afterWrite c c.length s) c := by
  refine ⟨s.port.writePlan.pop.2, if s.port.held then [] else [c], false, by split <;> simp [hc], ?_⟩
  cases h : s.port.held <;> simp [afterWrite, Port.requested, h]

theorem eagerWrites_afterWrite {s : State} (he : eagerWrites s.port) (c : Bytes) (n : Nat) :
    eagerWrites (afterWrite c n s).port := by
  obtain ⟨hplan, hthere⟩ := he
  exact ⟨by simp [afterWrite, hplan], hthere⟩

/-- A blocking send puts all its chunks on an eager wire and ends with OK (R92). -/
theorem writeChunks_eager {cs : List Bytes} {s : State} (he : eagerWrites s.port) (hne : ∀ c ∈ cs, c ≠ []) :
    ∃ t, writeChunks cs s = .next (complete .ok .none t) ∧ WritesOnly s t cs.flatten := by
  induction cs generalizing s with
  | nil => exact ⟨s, rfl, .refl s⟩
  | cons c rest ih =>
    obtain ⟨hc, hrest⟩ := List.forall_mem_cons.mp hne
    obtain ⟨t, ht, hw⟩ := ih (eagerWrites_afterWrite he c c.length) hrest
    refine ⟨t, ?_, (writesOnly_afterWrite hc s).trans hw⟩
    rw [writeChunks, writeAll_eager he hc]
    exact ht

/-- The chunks are the frame, however it is cut (R81, R94). -/
theorem flatten_chunks (m : Nat) (p : Bytes) : (chunks m p).flatten = frameEnc p := by
  unfold chunks
  split <;> simp [frameEnc]

/-- SEND on an eager wire: OK, and the value's frame is on the wire (R98). -/
theorem exec_send_eager {v : Value} {s : State} (hs : canSend s) (hb : s.ep.blocking = true)
    (he : eagerWrites s.port) (hl : (serEncode s.params.serializer v).length ≤ Config.lenMax) :
    ∃ t, exec (.send v) s = .next (complete .ok .none t) ∧
      WritesOnly s t (frameEnc (serEncode s.params.serializer v)) := by
  rw [exec_framesPayload (.inl ⟨v, rfl, rfl⟩) hs, sendFrame_blocking hb hl, ← flatten_chunks s.params.coalesceMax]
  exact writeChunks_eager he (chunks_ne_nil _ _)

/-! ### A blocking receive on an eager transport (R54, R107, R109) -/

/-- RECV with a whole frame on an eager wire: OK, with the value its payload decodes to (R109). -/
theorem exec_recv_eager {p rest : Bytes} {s : State} (hr : canReceive s) (hb : s.ep.blocking = true)
    (he : eagerReads s.port) (hw : s.port.inb.bytes = frameEnc p ++ rest) (hl : p.length ≤ Config.lenMax)
    (hx : exceeds p.length s.params.rxCap = false) :
    ∃ asked, exec .recv s =
      .next (complete .ok (.value (serDecode s.params.serializer p)) (afterReads asked rest s)) := by
  have hh := isHeader_hdrEnc hl
  obtain ⟨i, hd⟩ := decodeHeader_whole hh
  obtain ⟨asked, -, hread, -⟩ := readHeader_eager (kind := .value) (acc := []) (rest := p ++ rest) he hd rfl
    (by rw [List.nil_append, hw, frameEnc, List.append_assoc])
  refine ⟨asked ++ payloadReads p.length, ?_⟩
  rw [exec_isBlockingReceive (.inl ⟨rfl, rfl⟩) hb hr, hread,
    headerInHand_eager (s := afterReads asked (p ++ rest) s) he hh hx rfl rfl, afterReads_afterReads]
  rfl

/-- What is decoded is what was encoded (R7, R83). -/
theorem serDecode_serEncode {c : SerializerChoice} {v : Value} (h : isValue c v = true) :
    serDecode c (serEncode c v) = v := by
  cases c with
  | identity => rfl
  | external k => exact (Config.external k).law v h

/-! ### Two ends of a wire (R51, R159) -/

/-- An idle endpoint takes the command the host has waiting (R173). -/
theorem step_command {c : Command} {i : Instr} {rest : List HostAct} {s : State} (ha : s.agenda = [])
    (hc : s.cont = .idle) (hq : s.hostQ = .command c :: rest) (hd : decodeCommand c = .ok i) :
    step s = exec i { s with hostQ := rest } := by
  simp only [step, ha, coreMove, fetch, hq, if_pos hc, fetchCommand, hd]

theorem Link.step_left {l : Link} {rest : List Bool} {s : State} (ht : l.turns = true :: rest)
    (hs : Machine.step l.left = .next s) : l.step = .next (Link.settle { l with left := s, turns := rest }) := by
  simp only [Link.step, ht, hs]

theorem Link.step_right {l : Link} {rest : List Bool} {s : State} (ht : l.turns = false :: rest)
    (hs : Machine.step l.right = .next s) : l.step = .next (Link.settle { l with right := s, turns := rest }) := by
  simp only [Link.step, ht, hs]

/-- What the left end has written is in flight to the right. -/
theorem Link.settle_right_inb_bytes (l : Link) :
    l.settle.right.port.inb.bytes = l.right.port.inb.bytes ++ l.left.port.outb.bytes := rfl

/-- Settles O56: the left end's frame is carried whole, and the right end reads it. -/
theorem valueCrossesTheWire : Obligations.ValueCrossesTheWire := by
  intro v l hturns hsend hlb hla hlq heager hout hrecv hrb hra hrq hreads hin hser hv hlen hcap
  have ⟨hlidle, _, _⟩ := hsend
  have ⟨hridle, _, _, _⟩ := hrecv
  obtain ⟨sent, hsent, hwrote⟩ := exec_send_eager (v := v) (s := { l.left with hostQ := [] }) hsend hlb heager hlen
  let l₁ : Link := Link.settle { l with left := complete .ok .none sent, turns := [false] }
  have hstep₁ : l.step = .next l₁ := Link.step_left hturns ((step_command hla hlidle hlq rfl).trans hsent)
  have hwire : l₁.right.port.inb.bytes = frameEnc (serEncode l.left.params.serializer v) ++ [] := by
    simp [l₁, Link.settle_right_inb_bytes, hin, hwrote.outb_bytes, hout]
  -- Carrying has touched the right end's wires only, so what was known of it still is.
  obtain ⟨asked, hread⟩ := exec_recv_eager (s := { l₁.right with hostQ := [] }) hrecv hrb hreads hwire hlen hcap
  have hstep₂ : step l₁.right = _ := (step_command (s := l₁.right) hra hridle hrq rfl).trans hread
  refine ⟨l₁, _, hstep₁, Link.step_right rfl hstep₂, rfl, ?_, hwrote.ep, rfl, rfl, rfl⟩
  have hvalue : serDecode l.right.params.serializer (serEncode l.left.params.serializer v) = v := by
    rw [← hser, serDecode_serEncode hv]
  exact congrArg (fun w => some (Response.mk .ok (.value w))) hvalue

end Sys2Proof.Machine
end

section
/-! The decoder: what it reads back, what the first word decides, and what it rejects (R65, R69 to R72). -/

namespace Sys2Proof.Machine

/-! ### Header bytes (R61, R62, R65, R66) -/

/-- A packet of header bytes is the header fetched, if that takes them all. -/
theorem decode_header_fetched {b : Bytes} {i : Instr} {k : Nat} (hd : decodeHeader b = .fetched i k) :
    decode (.header b) = if k = b.length then .ok i else .error .trailingBytes := by
  simp only [decode, hd]

/-- Bytes that decide nothing are no instruction. -/
theorem decode_header_incomplete {b : Bytes} (hd : decodeHeader b = .incomplete) :
    decode (.header b) = .error .incompleteHeader := by
  simp only [decode, hd]

/-- A first word, as the number of its bit 31 and its low bits (R61, R66). -/
theorem toNat_bit31_append (b : BitVec 1) (low : BitVec 31) :
    (b ++ low).toNat = b.toNat * 0x80000000 + low.toNat := by
  rw [BitVec.toNat_append, ← Nat.shiftLeft_add_eq_or_of_lt low.isLt, Nat.shiftLeft_eq]

/-- A word with bit 31 set is the escape exactly when it is all ones (R66). -/
theorem wf_invalidHdr (rest : BitVec 31) : (Instr.invalidHdr rest).wf = true ↔ rest.toNat ≠ 0x7FFFFFFF := by
  simp [Instr.wf, ← BitVec.toNat_inj]

/-- The four bytes of a first word other than the escape are read back as a SMALL or an illegal header (R61, R66). -/
theorem decode_be32 {n : Nat} (h : n < 2 ^ 32) (hne : n ≠ 0xFFFFFFFF) :
    decode (.header (be32 n)) =
      .ok (if n < 0x80000000 then .small (BitVec.ofNat 31 n) else .invalidHdr (BitVec.ofNat 31 n)) := by
  have hd := decodeHeader_be32 h hne []
  rw [List.append_nil, ← apply_ite (HeaderFetch.fetched · 4)] at hd
  rw [decode_header_fetched hd, if_pos (length_be32 n).symm]

/-- The twelve bytes of a LARGE header are read back as it (R62). -/
theorem decode_escape_be64 (len64 : BitVec 64) :
    decode (.header (escapeBytes ++ be64 len64.toNat)) = .ok (.large len64) := by
  have hd := decodeHeader_large len64.toNat len64.isLt []
  rw [List.append_nil] at hd
  rw [decode_header_fetched hd, if_pos (by simp), BitVec.ofNat_toNat, BitVec.setWidth_eq]

/-- Settles O9: commands by their code, headers by the class of their first word. -/
theorem decodeReadsBackEveryEncoding : Obligations.DecodeReadsBackEveryEncoding := by
  intro i hwf
  cases i with
  | reservedCF low => exact Laws.EncodedShape.reservedCF low hwf
  | small len =>
    have hlt := len.isLt
    have hword : (0#1 ++ len).toNat = len.toNat := by simp [toNat_bit31_append]
    rw [encode, hword, decode_be32 (by omega) (by omega), if_pos hlt, BitVec.ofNat_toNat, BitVec.setWidth_eq]
  | large len64 => exact decode_escape_be64 len64
  | invalidHdr rest =>
    have hlt := rest.isLt
    have hne := (wf_invalidHdr rest).mp hwf
    have hlow : BitVec.ofNat 31 (0x80000000 + rest.toNat) = rest := BitVec.eq_of_toNat_eq (by simp; omega)
    have hword : (1#1 ++ rest).toNat = 0x80000000 + rest.toNat := by simp [toNat_bit31_append]
    rw [encode, hword, decode_be32 (by omega) (by omega), if_neg (by omega), hlow]
  | _ => rfl

/-- Settles O11: the decoder in the numbers of R82 has one branch for each clause. -/
theorem firstWordDecidesTheHeader : Obligations.FirstWordDecidesTheHeader := by
  intro b
  rw [decodeHeader_eq]
  refine ⟨fun h => if_pos h, fun h4 he h12 => ?escapeShort, fun he h12 => ?escape, fun h4 hs => ?small,
    fun h4 hbig hne => ⟨?illegal, ?wellFormed⟩⟩
  case escapeShort => rw [if_neg (by omega), if_pos he, if_pos h12]
  case escape => rw [if_neg (by omega), if_pos he, if_neg (by omega)]
  case small => rw [if_neg (by omega), if_neg (by omega), if_pos hs]
  case illegal => rw [if_neg (by omega), if_neg hne, if_neg (by omega)]
  case wellFormed =>
    have hlt := beNat_lt (b.take 4)
    rw [List.length_take, min_eq_left h4] at hlt
    rw [wf_invalidHdr, BitVec.toNat_ofNat]
    omega

/-! ### Commands (R69, R71) -/

/-- Settles O10: the table of R69, and the reserved codes of R71. -/
theorem commandCodesDecode : Obligations.CommandCodesDecode := by
  intro n o z b any
  exact ⟨rfl, rfl, rfl, rfl, rfl, rfl, rfl, rfl, rfl, rfl, rfl, rfl, rfl, rfl, rfl, rfl⟩

/-- A command is its code and its operands. -/
theorem command_packet_ext {k op : BitVec 4} {ops ops' : List Operand} (hop : op.toNat = k.toNat) (hops : ops = ops') :
    Packet.command ⟨k, ops'⟩ = .command ⟨op, ops⟩ := by
  rw [BitVec.eq_of_toNat_eq hop, hops]

/-- A command of R69 that the decoder accepts is the encoding of what it decodes to. -/
theorem encode_of_decodeCommand {c : Command} {i : Instr} (hd : decodeCommand c = .ok i) (h1 : 0x1 ≤ c.op.toNat)
    (hB : c.op.toNat ≤ 0xB) : encode i = .command c := by
  unfold decodeCommand at hd
  -- The bounds shut out the reserved codes, which take any operands.
  split at hd <;> cases hd <;> try omega
  all_goals exact command_packet_ext ‹_› ‹_›

/-- What the decoder rejects, it rejects for its operands (log 7). -/
theorem decodeCommand_error {c : Command} {r : Reject} (hd : decodeCommand c = .error r) :
    r = .wrongOperands c.op := by
  unfold decodeCommand at hd
  split at hd <;> cases hd
  rfl

/-- A command of R69 that is no instruction's encoding is rejected (R72, log 7). -/
theorem decodeCommand_of_not_encoded {c : Command} (h1 : 0x1 ≤ c.op.toNat) (hB : c.op.toNat ≤ 0xB)
    (hne : ∀ i, encode i ≠ .command c) : decodeCommand c = .error (.wrongOperands c.op) := by
  cases hd : decodeCommand c with
  | ok i => exact absurd (encode_of_decodeCommand hd h1 hB) (hne i)
  | error r => rw [decodeCommand_error hd]

/-- An encoded command has as many operands as its row lists (R69). -/
theorem length_operands_of_encode {i : Instr} {c : Command} (h : encode i = .command c) :
    c.operands.length = (zeroOperands c.op).length := by
  have reserved : ∀ low : BitVec 2, (zeroOperands (0b11#2 ++ low)).length = 0 := by decide
  cases i with
  | reservedCF low => cases h; exact (reserved low).symm
  | _ => cases h <;> rfl

/-- How many operands a row of R69 lists: fewer than four, none for the bare commands, and some for the others. -/
theorem length_zeroOperands (op : BitVec 4) :
    (zeroOperands op).length < 4 ∧
      (op.toNat ∈ [0x6, 0x7, 0x8, 0xB] → 0x1 ≤ op.toNat ∧ op.toNat ≤ 0xB ∧ (zeroOperands op).length = 0) ∧
      (op.toNat ∈ [0x1, 0x2, 0x3, 0x4, 0x5, 0x9, 0xA] →
        0x1 ≤ op.toNat ∧ op.toNat ≤ 0xB ∧ (zeroOperands op).length ≠ 0) := by
  revert op
  decide

/-- The step that meets a command the decoder rejects refuses it as malformed (log 7). -/
theorem step_malformed {c : Command} {r : Reject} {rest : List HostAct} {s : State} (ha : s.agenda = [])
    (hq : (s.cont = .idle ∧ s.hostQ = .command c :: rest) ∨ s.hostQ = .intrude c :: rest)
    (hd : decodeCommand c = .error r) : step s = .refused (.malformedCommand c.op) := by
  have hf : fetch s = .malformed c.op := by
    rcases hq with ⟨hc, hq⟩ | hq
    · simp only [fetch, hq, if_pos hc, fetchCommand, hd]
    · simp only [fetch, hq, fetchCommand, hd]
  simp only [step, ha, coreMove, hf]

/-- Settles O58: a command is accepted only as an encoding, and header bytes only as many as make the header. -/
theorem decoderRefusals : Obligations.DecoderRefusals := by
  refine ⟨fun c h1 hB hne => ?notEncoded, fun op ops hops => ?wrongNumber, fun b => ?undecided,
    fun h x n hh hx => ?trailing⟩
  case notEncoded =>
    have hd := decodeCommand_of_not_encoded h1 hB hne
    exact ⟨hd, fun rest s ha hq => step_malformed ha hq hd⟩
  case wrongNumber =>
    obtain ⟨fewerThanFour, bare, withOperands⟩ := length_zeroOperands op
    have rejects (h1 : 0x1 ≤ op.toNat) (hB : op.toNat ≤ 0xB) (hl : ops.length ≠ (zeroOperands op).length) :
        decodeCommand ⟨op, ops⟩ = .error (.wrongOperands op) :=
      decodeCommand_of_not_encoded h1 hB fun i h => hl (length_operands_of_encode h)
    rcases hops with ⟨h1, hB, h4⟩ | ⟨hop, hne⟩ | ⟨hop, rfl⟩
    · exact rejects h1 hB (by omega)
    · obtain ⟨h1, hB, h0⟩ := bare hop
      exact rejects h1 hB (by rw [h0]; exact mt List.length_eq_zero_iff.mp hne)
    · obtain ⟨h1, hB, h0⟩ := withOperands hop
      exact rejects h1 hB h0.symm
  case undecided =>
    rw [← decodeHeader_incomplete_iff]
    cases hd : decodeHeader b with
    | incomplete => simp [decode_header_incomplete hd]
    | fetched i k =>
      rw [decode_header_fetched hd]
      split <;> simp
  case trailing =>
    have hpos := List.length_pos_iff.mpr hx
    obtain ⟨i, hd⟩ : ∃ i, decodeHeader (h ++ x) = .fetched i h.length := by
      rcases hh with hh | hh
      · rcases decodeHeader_isHeader hh x with ⟨len, hd, -⟩ | ⟨len, hd, -⟩
        · exact ⟨_, hd⟩
        · exact ⟨_, hd⟩
      · obtain ⟨rest, hd⟩ := decodeHeader_isIllegalWord hh x
        exact ⟨_, hh.1.symm ▸ hd⟩
    rw [decode_header_fetched hd, if_neg (by rw [List.length_append]; omega)]

end Sys2Proof.Machine
end

section
/-! The wire headers as instructions of the receiver (R63, R66, R107, R123), what a step runs, and what is refused by
its code or by the endpoint's mode (R71). -/

namespace Sys2Proof.Machine

/-! ### Refusals by code and by mode; the statuses (R70, R71) -/

/-- A command of the other mode's variant is refused by the gate (R71). -/
theorem wrongVariant_of_idle {b : Bool} {s : State} {k : Out} (hc : s.cont = .idle) (hb : s.ep.blocking ≠ b) :
    whenIdle s (onlyInMode b s k) = .refused .wrongVariant := by
  rw [whenIdle_of_idle hc, onlyInMode_of_ne hb]

/-- Settles O13: a reserved code has no other meaning, and an idle endpoint checks the mode before anything else. -/
theorem reservedCodesAndWrongVariantsAreRefused : Obligations.ReservedCodesAndWrongVariantsAreRefused := by
  intro s low n
  refine ⟨rfl, rfl, fun hc hb => ?_, fun hc hb => wrongVariant_of_idle hc (by simp [hb])⟩
  have refused (k : Out) : whenIdle s (onlyInMode true s k) = .refused .wrongVariant :=
    wrongVariant_of_idle hc (by simp [hb])
  exact ⟨refused _, refused _, refused _⟩

/-- Settles O51: the table of R70. -/
theorem statusCodesAreTheTaxonomy : Obligations.StatusCodesAreTheTaxonomy := by
  refine ⟨⟨rfl, rfl, rfl, rfl, rfl, rfl, rfl, fun _ => rfl⟩, fun st => ?_⟩
  cases st <;> simp [Status.isError]

/-! ### The headers' meanings -/

theorem exec_small (len : BitVec 31) (s : State) : exec (.small len) s = headerResolved len.toNat s := rfl

theorem exec_large (len64 : BitVec 64) (s : State) : exec (.large len64) s = headerResolved len64.toNat s := rfl

theorem exec_invalidHdr (rest : BitVec 31) (s : State) : exec (.invalidHdr rest) s = headerInvalid s := rfl

/-- What the receiver runs of a header it has fetched is the header's meaning (D28). -/
theorem runHeader_of_decodeHeader {b : Bytes} {i : Instr} {k : Nat} (hd : decodeHeader b = .fetched i k) (s : State) :
    runHeader i s = exec i s := by
  rcases decodeHeader_classes hd with ⟨len, rfl, -⟩ | ⟨len64, rfl, -⟩ | ⟨rest, rfl, -⟩
  · rfl
  · rfl
  · rfl

/-- A blocking receive refuses a length above RX_CAP (R50, R107). -/
theorem headerResolved_exceeds {kind : RecvKind} {n : Nat} {acc : Bytes} {s : State}
    (hc : s.cont = .recvHeader kind acc) (hx : exceeds n s.params.rxCap = true) : headerResolved n s = .refused .rxCapacity := by
  simp only [headerResolved, hc, if_pos hx]

/-- A header met by an assembly (R123), whatever the receive state was. -/
theorem headerResolved_assembling {n : Nat} {inBytes : Bytes} {out : List Value} {s : State}
    (hc : s.cont = .assembling inBytes out) :
    headerResolved n s =
      if exceeds n s.params.rxCap then .refused .rxCapacity else .next (s.inLoop (.payload ⟨[], n⟩) inBytes out) := by
  simp only [headerResolved, hc, State.inLoop, Endpoint.withRx]

/-- An illegal word ends the receive that meets it, with the values completed before it (R66, R125). -/
theorem headerInvalid_eq {s : State} {r : Result}
    (h : (∃ kind acc, s.cont = .recvHeader kind acc ∧ r = .none) ∨
      ∃ inBytes out, s.cont = .assembling inBytes out ∧ r = .values out) :
    headerInvalid s = .next (complete .badMessageLengthError r (degrade s)) := by
  rcases h with ⟨kind, acc, hc, rfl⟩ | ⟨inBytes, out, hc, rfl⟩
  · simp only [headerInvalid, hc, degradeAndRaise, finish]
  · simp only [headerInvalid, hc, degradeAndRaise, finish]

/-- Settles O43: the illegal word's bits make no difference. -/
theorem illegalHeaderDegradesThenRaises : Obligations.IllegalHeaderDegradesThenRaises := by
  intro rest s
  refine ⟨fun kind acc hc => ?_, fun inBytes out hc => ?_⟩
  · exact (exec_invalidHdr rest s).trans (headerInvalid_eq (.inl ⟨kind, acc, hc, rfl⟩))
  · exact (exec_invalidHdr rest s).trans (headerInvalid_eq (.inr ⟨inBytes, out, hc, rfl⟩))

/-- Settles O42: SMALL and LARGE are both `headerResolved` of their length, which judges the capacities, then reads. -/
theorem headerIsFollowedByItsPayload : Obligations.HeaderIsFollowedByItsPayload := by
  intro i kind acc p rest s hi hc
  have hexec : exec i s = headerResolved p.length s := by
    rcases hi with ⟨len, rfl, hl⟩ | ⟨len64, rfl, hl⟩
    · rw [exec_small, hl]
    · rw [exec_large, hl]
  rw [hexec]
  refine ⟨headerResolved_exceeds hc, fun hx ht he hw => ?fits, fun hx ht => ?tooLong⟩
  case fits =>
    obtain ⟨d, hd, hdeliver⟩ := deliverPayload_eq kind p (afterReads (payloadReads p.length) rest s)
    refine ⟨d, hd, ?_⟩
    rw [headerResolved_recvHeader hc hx, ht, if_neg Bool.false_ne_true,
      readPayload_eager (acc := []) he (Nat.zero_le _) hw]
    exact hdeliver
  case tooLong =>
    rw [headerResolved_recvHeader hc hx, if_pos ht]
    rfl

/-! ### A step runs what is decoded -/

/-- A step of a busy endpoint goes on with its command unless one is presented at once (R31, R53). -/
theorem step_busy {s : State} (ha : s.agenda = []) (hc : s.cont ≠ .idle)
    (hq : ∀ c, s.hostQ.head? ≠ some (.intrude c)) : step s = resume s := by
  have hf : fetch s = .executing := by
    unfold fetch
    split
    · exact if_neg hc
    · exact if_neg hc
    · next c rest hl => exact absurd (by rw [hl, List.head?_cons]) (hq c)
    · exact if_neg hc
  simp only [step, ha, coreMove, hf]

/-- An assembly that awaits a header runs the one at the front of the bytes in hand, and goes round again unless that
ends the command (R122, R123). -/
theorem assembleLoop_fetched {f hlen : Nat} {i : Instr} {inBytes : Bytes} {out : List Value} {s t : State}
    (hc : s.cont = .assembling inBytes out) (hp : s.ep.rxPhase = .awaitingHeader)
    (hd : decodeHeader (s.ep.rxHdr ++ inBytes) = .fetched i hlen)
    (hx : exec i { s with cont := .assembling ((s.ep.rxHdr ++ inBytes).drop hlen) out } = .next t) :
    assembleLoop (f + 1) s = if t.cont = .idle then .next t else assembleLoop f t := by
  have hpass : assemblePass inBytes out s = if t.cont = .idle then .stop (.next t) else .again t := by
    simp only [assemblePass, hp, headerPass, hd, runHeader_of_decodeHeader hd, hx, passOn]
  simp only [assembleLoop, hc, hpass]
  by_cases hidle : t.cont = .idle
  · simp only [if_pos hidle]
  · simp only [if_neg hidle]

/-- A header met by an assembly ends the command, or leaves the loop with a context to fill (R123, R125). -/
theorem exec_header_assembling {b inBytes : Bytes} {i : Instr} {k : Nat} {out : List Value} {s t : State}
    (hd : decodeHeader b = .fetched i k) (hc : s.cont = .assembling inBytes out) (hx : exec i s = .next t) :
    t.cont = .idle ∨ ∃ n, t = s.inLoop (.payload ⟨[], n⟩) inBytes out := by
  have resolved (n : Nat) (h : headerResolved n s = .next t) : t = s.inLoop (.payload ⟨[], n⟩) inBytes out := by
    rw [headerResolved_assembling hc] at h
    split at h
    · cases h
    · cases h; rfl
  rcases decodeHeader_classes hd with ⟨len, rfl, -⟩ | ⟨len64, rfl, -⟩ | ⟨rest, rfl, -⟩
  · exact .inr ⟨_, resolved _ hx⟩
  · exact .inr ⟨_, resolved _ hx⟩
  · rw [exec_invalidHdr, headerInvalid_eq (.inr ⟨inBytes, out, hc, rfl⟩)] at hx
    cases hx
    exact .inl rfl

/-- With a context to fill, the loop goes on as a step would, given fuel for the bytes in hand (R122). -/
theorem resume_inLoop_payload {f n : Nat} {inBytes : Bytes} {out : List Value} (s : State)
    (hf : inBytes.length + 2 ≤ f) :
    assembleLoop f (s.inLoop (.payload ⟨[], n⟩) inBytes out) = resume (s.inLoop (.payload ⟨[], n⟩) inBytes out) := by
  have hresume : resume (s.inLoop (.payload ⟨[], n⟩) inBytes out) =
      assembleLoop (0 + inBytes.length + 2) (s.inLoop (.payload ⟨[], n⟩) inBytes out) := rfl
  rw [hresume]
  exact assembleLoop_fuel hf (by simp [Rx.need])

/-- Settles O55: the step's fetch for a command, the read of a header, one pass of an assembly, and a busy endpoint. -/
theorem stepRunsTheDecodedInstruction : Obligations.StepRunsTheDecodedInstruction := by
  refine ⟨fun c i rest s ha hc hq hd => ?command, fun i kind h rest s ha hq hc he hw hd => ?header,
    fun i hlen inBytes out s t ha hq hc hp hd hx => ?assembly, fun s ha hc hq => step_busy ha hc hq⟩
  case command =>
    rcases hq with hq | hq
    · exact step_command ha hc hq hd
    · exact step_intrude ha hq hd
  case header =>
    obtain ⟨asked, -, hread, hasked⟩ := readHeader_eager (kind := kind) (acc := []) he hd rfl hw
    rw [step_of_recvHeader ⟨ha, hq⟩ hc, hread, hasked rfl, headerInHand, hd]
    exact runHeader_of_decodeHeader hd _
  case assembly =>
    obtain ⟨hk, hkl, -⟩ := decodeHeader_fetched hd
    have hstep : step s = assembleLoop (s.ep.rxHdr.length + inBytes.length + 1 + 1) s := by
      rw [step_eq_resume ⟨ha, hq⟩ (by rw [hc]; exact Cont.noConfusion), resume, hc]
      simp only [assembleHeld, assembleFuel, hc]
    rw [hstep, assembleLoop_fetched hc hp hd hx]
    rcases exec_header_assembling hd rfl hx with hidle | ⟨n, rfl⟩
    · rw [if_pos hidle, if_pos hidle]
    · rw [resume_inLoop_payload _ (by rw [List.length_append] at hkl; simp; omega)]

end Sys2Proof.Machine
end

section
/-! The Frame Codec (40_frame_codec.md): what HDR_ENC, FRAME_ENC and HDR_PARSE answer, the laws between them
(R80 to R83), and the send that no header can carry (R91). -/

namespace Sys2Proof.Machine

/-! ### HDR_PARSE and the header decoder (R65, R66, R82) -/

/-- Settles O12: both judge the first word; a SMALL length is below 2^31 and a LARGE one below 2^64, so neither is
cut by the decoder's field. -/
theorem headerDecoderAgreesWithHdrParse : Obligations.HeaderDecoderAgreesWithHdrParse := by
  intro b
  rw [hdrParse, decodeHeader_eq]
  by_cases h4 : b.length < 4
  · simp only [if_pos h4]
  · by_cases he : beNat (b.take 4) = 0xFFFFFFFF
    · by_cases h12 : b.length < 12
      · simp only [if_neg h4, if_pos he, if_pos h12]
      · have hlt := beNat_lt ((b.drop 4).take 8)
        rw [List.length_take, List.length_drop, min_eq_left (by omega)] at hlt
        simp only [if_neg h4, if_pos he, if_neg h12, BitVec.toNat_ofNat]
        rw [Nat.mod_eq_of_lt (b := 2 ^ 64) hlt]
    · by_cases hs : beNat (b.take 4) < 0x80000000
      · simp only [if_neg h4, if_neg he, if_pos hs, if_neg (Nat.not_le.mpr hs), BitVec.toNat_ofNat]
        rw [Nat.mod_eq_of_lt hs]
      · simp only [if_neg h4, if_neg he, if_neg hs, if_pos (Nat.not_lt.mp hs)]

/-- Every header, canonical or not, is parsed as the length it declares, whatever follows (R61, R62, R67). -/
theorem hdrParse_isHeader {h : Bytes} {n : Nat} (hh : isHeader h n) (t : Bytes) :
    hdrParse (h ++ t) = .header n h.length := by
  rw [headerDecoderAgreesWithHdrParse]
  rcases decodeHeader_isHeader hh t with ⟨len, hd, rfl⟩ | ⟨len64, hd, rfl⟩
  · simp only [hd]
  · simp only [hd]

/-- What is parsed as a header stands in the first bytes, and takes as many as HDR_PARSE says. -/
theorem isHeader_of_hdrParse {b : Bytes} {n k : Nat} (h : hdrParse b = .header n k) :
    isHeader (b.take k) n ∧ (b.take k).length = k := by
  rw [headerDecoderAgreesWithHdrParse] at h
  cases hd : decodeHeader b with
  | incomplete => simp [hd] at h
  | fetched i hlen =>
    have hk := (decodeHeader_fetched hd).2.1
    rcases decodeHeader_classes hd with ⟨len, rfl, hh⟩ | ⟨len64, rfl, hh⟩ | ⟨rest, rfl, -⟩
    · simp only [hd, ParseResult.header.injEq] at h
      obtain ⟨rfl, rfl⟩ := h
      exact ⟨hh, List.length_take_of_le hk⟩
    · simp only [hd, ParseResult.header.injEq] at h
      obtain ⟨rfl, rfl⟩ := h
      exact ⟨hh, List.length_take_of_le hk⟩
    · simp [hd] at h

/-- Bytes that only begin a header are Incomplete (R26, R83). -/
theorem hdrParse_isHeaderPrefix {q : Bytes} (h : isHeaderPrefix q = true) : hdrParse q = .incomplete := by
  rw [headerDecoderAgreesWithHdrParse, (decodeHeader_incomplete_iff q).mpr h]

/-! ### HDR_ENC and FRAME_ENC (R80, R81) -/

theorem hdrEnc_of_le {n : Nat} (h : n ≤ 0x7FFFFFFF) : hdrEnc n = be32 n := if_pos h

theorem hdrEnc_of_lt {n : Nat} (h : 0x7FFFFFFF < n) : hdrEnc n = [0xFF, 0xFF, 0xFF, 0xFF] ++ be64 n :=
  if_neg (Nat.not_le.mpr h)

theorem hdrParse_hdrEnc {n : Nat} (h : n ≤ Config.lenMax) (t : Bytes) :
    hdrParse (hdrEnc n ++ t) = .header n (hdrEnc n).length :=
  hdrParse_isHeader (isHeader_hdrEnc h) t

/-- The header of a frame is the one of its payload's length. -/
theorem hdrParse_frameEnc {p : Bytes} {n h : Nat} (hp : p.length ≤ Config.lenMax)
    (hh : hdrParse (frameEnc p) = .header n h) : n = p.length ∧ h = (hdrEnc p.length).length := by
  rw [frameEnc, hdrParse_hdrEnc hp, ParseResult.header.injEq] at hh
  exact ⟨hh.1.symm, hh.2.symm⟩

/-- A command that completes where it started changes the response alone (R69). -/
theorem finish_of_idle {st : Status} {r : Result} {s : State} (hc : s.cont = .idle) :
    finish st r s = .next { s with resp := some ⟨st, r⟩ } := by
  rw [finish, complete, ← hc]

/-- An idle endpoint encodes a length that a header can carry. -/
theorem exec_hdrEnc {n : Nat} {s : State} (hc : s.cont = .idle) (h : n ≤ 2 ^ 64 - 1) :
    exec (.hdrEnc n) s = .next { s with resp := some ⟨.ok, .bytes (hdrEnc n)⟩ } := by
  refine (whenIdle_of_idle hc).trans ((if_neg ?_).trans ?_)
  · simp only [Config.lenMax, Int.toNat_natCast]
    omega
  · rw [Int.toNat_natCast, finish_of_idle hc]

/-- An idle endpoint refuses a length that no header can carry (U14). -/
theorem exec_hdrEnc_refused {n : Int} {s : State} (hc : s.cont = .idle) (h : n < 0 ∨ 2 ^ 64 - 1 < n) :
    exec (.hdrEnc n) s = .refused .lengthNotEncodable := by
  refine (whenIdle_of_idle hc).trans (if_pos ?_)
  simp only [Config.lenMax]
  omega

/-- Settles O14: an encodable length is a natural number, at or below SMALL_MAX or above it. -/
theorem hdrEncGivesTheHeader : Obligations.HdrEncGivesTheHeader := by
  intro n s hc
  refine ⟨fun h0 hn => ?small, fun hlo hn => ?large, exec_hdrEnc_refused hc⟩
  case small =>
    lift n to Nat using h0
    rw [exec_hdrEnc hc (by omega), hdrEnc_of_le (by omega), Int.toNat_natCast]
  case large =>
    lift n to Nat using by omega
    rw [exec_hdrEnc hc (by omega), hdrEnc_of_lt (by omega), Int.toNat_natCast]

/-- An idle endpoint frames a payload whose length a header can carry. -/
theorem exec_frameEnc {p : Bytes} {s : State} (hc : s.cont = .idle) (h : p.length ≤ 2 ^ 64 - 1) :
    exec (.frameEnc p) s = .next { s with resp := some ⟨.ok, .bytes (hdrEnc p.length ++ p)⟩ } := by
  exact (whenIdle_of_idle hc).trans ((if_neg (Nat.not_lt.mpr h)).trans (finish_of_idle hc))

/-- Settles O15: the frame's header is HDR_ENC of the payload's length. -/
theorem frameEncIsHeaderThenPayload : Obligations.FrameEncIsHeaderThenPayload := by
  intro p s hc
  refine ⟨fun hp => ?small, fun hlo hp => ?large, fun hp => (whenIdle_of_idle hc).trans (if_pos hp)⟩
  case small => rw [exec_frameEnc hc (by omega), hdrEnc_of_le hp]
  case large => rw [exec_frameEnc hc hp, hdrEnc_of_lt hlo]

/-! ### HDR_PARSE as a command (R82) -/

/-- An idle endpoint answers what HDR_PARSE says of the bytes. -/
theorem exec_hdrParse {s : State} (hc : s.cont = .idle) (b : Bytes) :
    exec (.hdrParse b) s = .next { s with resp := some ⟨.ok, .parse (hdrParse b)⟩ } := by
  exact (whenIdle_of_idle hc).trans (finish_of_idle hc)

/-- Settles O16: each clause is a branch of R82's pseudocode. -/
theorem hdrParseJudgesTheFirstWord : Obligations.HdrParseJudgesTheFirstWord := by
  intro b s hc
  refine ⟨hdrParse b, exec_hdrParse hc b, fun h4 => if_pos h4, fun h4 => ?_⟩
  rw [hdrParse, if_neg (Nat.not_lt.mpr h4)]
  refine ⟨fun he h12 => ?escapeShort, fun he h12 => ?escape, fun hbig hne => ?illegal, fun hs => ?small⟩
  case escapeShort => rw [if_pos he, if_pos h12]
  case escape => rw [if_pos he, if_neg (Nat.not_lt.mpr h12)]
  case illegal => rw [if_neg hne, if_pos hbig]
  case small => rw [if_neg (by omega), if_neg (Nat.not_le.mpr hs)]

/-! ### The codec laws (R83) -/

/-- Different lengths have different headers: HDR_PARSE tells them apart. -/
theorem hdrEnc_injective {n m : Nat} (hn : n ≤ Config.lenMax) (hm : m ≤ Config.lenMax)
    (h : hdrEnc n = hdrEnc m) : n = m := by
  have hnm := hdrParse_hdrEnc hn []
  rw [h, hdrParse_hdrEnc hm] at hnm
  exact (ParseResult.header.inj hnm).1.symm

/-- A 4-byte header is canonical. -/
theorem take_eq_hdrEnc_of_hdrParse {b : Bytes} {n : Nat} (h : hdrParse b = .header n 4) : b.take 4 = hdrEnc n := by
  obtain ⟨⟨hn, hb⟩ | ⟨-, hb⟩, hl⟩ := isHeader_of_hdrParse h
  · rw [hb, hdrEnc_of_le hn]
  · simp [hb] at hl

/-- A length up to SMALL_MAX has two headers that parse (R67). -/
theorem hdrParse_both_headers {n : Nat} (hn : n ≤ Config.smallMax) :
    hdrParse (be32 n) = .header n 4 ∧ hdrParse ([0xFF, 0xFF, 0xFF, 0xFF] ++ be64 n) = .header n 12 := by
  have hlt : n < 2 ^ 64 := lt_of_le_of_lt hn (by decide)
  have hsmall := hdrParse_isHeader (.inl ⟨hn, rfl⟩) []
  have hlarge := hdrParse_isHeader (.inr ⟨hlt, rfl⟩) []
  rw [List.append_nil] at hsmall hlarge
  rw [hsmall, hlarge]
  simp

/-- A 12-byte header of a length up to SMALL_MAX is not canonical: HDR_ENC gives such a length 4 bytes. -/
theorem take_ne_hdrEnc_of_hdrParse {b : Bytes} {n m : Nat} (h : hdrParse b = .header n 12)
    (hn : n ≤ Config.smallMax) (hm : m ≤ Config.lenMax) : b.take 12 ≠ hdrEnc m := by
  intro he
  have hb := hdrParse_hdrEnc hm (b.drop 12)
  rw [← he, List.take_append_drop, h, he] at hb
  obtain ⟨rfl, hl⟩ := ParseResult.header.inj hb
  rw [length_hdrEnc, if_pos hn] at hl
  exact absurd hl (by decide)

/-- A payload is cut out of its frame by the frame's header. -/
theorem payload_of_frameEnc {p : Bytes} {n h : Nat} (hp : p.length ≤ Config.lenMax)
    (hh : hdrParse (frameEnc p) = .header n h) :
    ((frameEnc p).drop h).take n = p ∧ (frameEnc p).length = h + n := by
  obtain ⟨rfl, rfl⟩ := hdrParse_frameEnc hp hh
  rw [frameEnc, List.drop_left, List.take_length, List.length_append]
  exact ⟨rfl, rfl⟩

/-- What is decoded is a value (R7). -/
theorem isValue_serDecode (c : SerializerChoice) (b : Bytes) : isValue c (serDecode c b) = true := by
  cases c with
  | identity => rfl
  | external k => exact (Config.external k).decode_isValue b

/-- Settles O17: the laws of R83, one lemma each. -/
theorem codecLaws : Obligations.CodecLaws := by
  refine ⟨fun n t hn => hdrParse_hdrEnc hn t, fun n q r hn he hr => ?properPrefix,
    fun n m hn hm h => hdrEnc_injective hn hm h, fun b n h => take_eq_hdrEnc_of_hdrParse h,
    fun n hn => hdrParse_both_headers hn, fun b n m h hn hm => take_ne_hdrEnc_of_hdrParse h hn hm,
    fun p n h hp hh => payload_of_frameEnc hp hh, fun c v n h hl hv hh => ?roundTrip, isValue_serDecode⟩
  case properPrefix => exact hdrParse_isHeaderPrefix (isHeaderPrefix_of_isHeader (isHeader_hdrEnc hn) he hr)
  case roundTrip => rw [(payload_of_frameEnc hl hh).1, serDecode_serEncode hv]

/-! ### A payload that no header can carry (R80, R91) -/

/-- Settles O20: past its checks a send frames its payload, and the frame's header is refused before the mode counts. -/
theorem unencodableSendIsRefused : Obligations.UnencodableSendIsRefused := by
  intro i p s hi hs hp
  rw [exec_framesPayload hi hs, sendFrame, if_pos hp]

end Sys2Proof.Machine
end

section
/-! The Sender (41_sender.md): what each command comes to under every answer of the transport (R90 to R99). -/

namespace Sys2Proof.Machine

/-! ### SendChecks (R90) -/

theorem sendChecks_of_closed {s : State} {k : Out} (h : s.ep.closed = true) :
    sendChecks s k = raise .closedHandleError s := by
  simp only [sendChecks, h, if_true]

theorem sendChecks_of_not_writable {s : State} {k : Out} (h : s.ep.closed = false) (hw : s.ep.writable = false) :
    sendChecks s k = raise .capabilityError s := by
  simp only [sendChecks, h, hw, Bool.false_eq_true, if_false]

/-- Every send-side command of an idle endpoint begins with SendChecks. -/
theorem exec_isSend {i : Instr} {s : State} (hi : isSend i) (hc : s.cont = .idle) :
    ∃ k, exec i s = sendChecks s k := by
  rcases hi with ⟨v, rfl⟩ | ⟨b, o, n, rfl⟩ | rfl
  · exact ⟨_, whenIdle_of_idle hc⟩
  · exact ⟨_, whenIdle_of_idle hc⟩
  · exact ⟨_, whenIdle_of_idle hc⟩

/-- Settles O18: whatever would follow SendChecks, a failed check ends the command. -/
theorem sendChecksComeFirst : Obligations.SendChecksComeFirst := by
  intro i s hi hc
  obtain ⟨k, hk⟩ := exec_isSend hi hc
  refine ⟨fun hclosed => ?_, fun hopen hw => ?_⟩
  · rw [hk, sendChecks_of_closed hclosed, raise, finish_of_idle hc]
  · rw [hk, sendChecks_of_not_writable hopen hw, raise, finish_of_idle hc]

/-! ### One write, by the transport's answer (R42, R54) -/

section
variable {b : Bytes} {s : State}

theorem tWrite_wrote {n : Nat} (hp : s.port.writePlan.pop.1 = .wrote n) (hn : n ≤ b.length) :
    tWrite b s = .answered (.wrote n) (afterWrite b n s) := by
  simp only [tWrite, hp, writeAnswer, if_neg (Nat.not_lt.mpr hn)]
  rfl

theorem tWrite_all (hp : s.port.writePlan.pop.1 = .all) (hr : s.port.outb.rclosed = false) :
    tWrite b s = .answered (.wrote b.length) (afterWrite b b.length s) := by
  simp only [tWrite, hp, writeAnswer, hr, Bool.false_eq_true, if_false, lt_irrefl]
  rfl

theorem afterWrite_zero (b : Bytes) (s : State) : afterWrite b 0 s = writeIssued b s := by
  simp [afterWrite, writeIssued]

/-- A transport error, or the reference transport's own once the far reader has gone (U21). -/
theorem tWrite_err {e : TErr} (hp : s.port.writePlan.pop.1 = .err e ∨
      (s.port.writePlan.pop.1 = .all ∧ s.port.outb.rclosed = true ∧ e = s.port.goneErr)) :
    tWrite b s = .answered (.err e) (afterWrite b 0 s) := by
  rw [afterWrite_zero]
  rcases hp with hp | ⟨hp, hr, rfl⟩
  · simp only [tWrite, hp, writeAnswer]
  · simp only [tWrite, hp, writeAnswer, hr, if_true]

theorem tWrite_wouldBlock_nonblocking (hb : s.ep.blocking = false) (hp : s.port.writePlan.pop.1 = .wouldBlock) :
    tWrite b s = .answered .wouldBlock (afterWrite b 0 s) := by
  rw [afterWrite_zero]
  simp only [tWrite, hp, writeAnswer, hb, Bool.false_eq_true, if_false]

theorem tWrite_hold_blocking (hb : s.ep.blocking = true) (hp : s.port.writePlan.pop.1 = .hold) :
    tWrite b s = .held (writeOutstanding b s) := by
  simp only [tWrite, hp, writeAnswer, hb, if_true]
  rfl

end

/-! ### The one write of a drain (R96) -/

/-- `s` with `q` as its outbound queue. -/
def State.withQueue (q : Bytes) (s : State) : State := { s with ep := { s.ep with txq := q } }

theorem drainOnce_of_wrote {n : Nat} {s u : State} (hq : s.ep.txq ≠ [])
    (hw : tWrite s.ep.txq s = .answered (.wrote n) u) :
    drainOnce s = finish .ok .none (u.withQueue (u.ep.txq.drop n)) := by
  rw [drainOnce, if_neg hq, hw]
  rfl

theorem drainOnce_of_wouldBlock {s u : State} (hq : s.ep.txq ≠ []) (hw : tWrite s.ep.txq s = .answered .wouldBlock u) :
    drainOnce s = finish .ok .none u := by
  rw [drainOnce, if_neg hq, hw]

theorem drainOnce_of_err {e : TErr} {s u : State} (hq : s.ep.txq ≠ [])
    (hw : tWrite s.ep.txq s = .answered (.err e) u) : drainOnce s = raise (.transportError e) u := by
  rw [drainOnce, if_neg hq, hw]

/-- What the one write of a queue comes to, answer by answer. -/
theorem drainOnce_withQueue {q : Bytes} {s : State} (hq : q ≠ []) (hc : s.cont = .idle) (hb : s.ep.blocking = false) :
    (∀ n, s.port.writePlan.pop.1 = .wrote n → n ≤ q.length →
      drainOnce (s.withQueue q) = .next { afterDrain q n s with resp := some ⟨.ok, .none⟩ }) ∧
    (s.port.writePlan.pop.1 = .all → s.port.outb.rclosed = false →
      drainOnce (s.withQueue q) = .next { afterDrain q q.length s with resp := some ⟨.ok, .none⟩ }) ∧
    (s.port.writePlan.pop.1 = .wouldBlock →
      drainOnce (s.withQueue q) = .next { afterDrain q 0 s with resp := some ⟨.ok, .none⟩ }) ∧
    (∀ e, s.port.writePlan.pop.1 = .err e ∨
        (s.port.writePlan.pop.1 = .all ∧ s.port.outb.rclosed = true ∧ e = s.port.goneErr) →
      drainOnce (s.withQueue q) = .next { afterDrain q 0 s with resp := some ⟨.transportError e, .none⟩ }) := by
  have hqueue : (s.withQueue q).ep.txq ≠ [] := hq
  exact ⟨fun _ hp hn => (drainOnce_of_wrote hqueue (tWrite_wrote hp hn)).trans (finish_of_idle hc),
    fun hp hr => (drainOnce_of_wrote hqueue (tWrite_all hp hr)).trans (finish_of_idle hc),
    fun hp => (drainOnce_of_wouldBlock hqueue (tWrite_wouldBlock_nonblocking hb hp)).trans (finish_of_idle hc),
    fun _ hp => (drainOnce_of_err hqueue (tWrite_err hp)).trans (finish_of_idle hc)⟩

/-- Settles O26: a drain offers the queue as it stands. -/
theorem drainWritesTheQueueOnce : Obligations.DrainWritesTheQueueOnce := by
  intro s hs
  have ⟨hidle, _, _⟩ := hs
  rw [exec_drain hs]
  refine ⟨fun hq => ?_, fun hq hb => drainOnce_withQueue hq hidle hb⟩
  rw [drainOnce, if_pos hq, finish_of_idle hidle]

/-- A frame that the queue has no room for (R50, R95). -/
theorem sendFrame_over_capacity {p : Bytes} {s : State} (hb : s.ep.blocking = false) (hp : p.length ≤ Config.lenMax)
    (hx : exceeds (s.ep.txq.length + (frameEnc p).length) s.params.txqCap = true) :
    sendFrame p s = .refused .txqCapacity := by
  simp [sendFrame, Nat.not_lt.mpr hp, hb, sendNonBlocking, hx]

/-- Settles O25: a frame within capacity joins the queue, and the send is then a drain of all of it. -/
theorem nonBlockingSendQueuesAndWritesOnce : Obligations.NonBlockingSendQueuesAndWritesOnce := by
  intro i p s hi hs hb hp
  have ⟨hidle, _, _⟩ := hs
  rw [exec_framesPayload hi hs]
  refine ⟨sendFrame_over_capacity hb hp, fun hx => ?_⟩
  rw [sendFrame_nonblocking hb hp hx]
  exact drainOnce_withQueue (List.append_ne_nil_of_right_ne_nil _ (frameEnc_ne_nil p)) hidle hb

/-! ### A blocking send under any answers (R92, R93, R99) -/

/-- What a blocking send of the bytes `b` has made of `s` when it ends or waits: some of them are on the wire, and
the rest are none with OK, are given up with a transport error, or are kept in the continuation. -/
def SendLeaves (b : Bytes) (s t : State) : Prop :=
  ∃ done todo, b = done ++ todo ∧ t.port.outb.bytes = s.port.outb.bytes ++ done ∧
    ((t.cont = .idle ∧ t.resp = some ⟨.ok, .none⟩ ∧ todo = []) ∨
      (t.cont = .idle ∧ ∃ e, t.resp = some ⟨.transportError e, .none⟩) ∨
      (∃ c rest, t.cont = .writing c rest ∧ todo = c ++ rest.flatten ∧ t.resp = s.resp))

theorem WritesOnly.resp {s t : State} {put : Bytes} (h : WritesOnly s t put) : t.resp = s.resp := by
  obtain ⟨plan, offered, held, -, rfl⟩ := h
  rfl

/-- From any of its chunks on, a send only writes, continues or answers, and no byte is lost or written twice. -/
theorem writeChunks_leaves {cs : List Bytes} {s t : State} (h : writeChunks cs s = .next t) :
    (∃ u put c r, WritesOnly s u put ∧ t = { u with cont := c, resp := r }) ∧ SendLeaves cs.flatten s t := by
  rcases writeChunks_cases h with ⟨u, e, hw, -⟩ | ⟨x, put, left, u, e, hsplit, hw, -⟩ |
    ⟨put, c, rest, u, e, hsplit, -, -, hw, -⟩ | ⟨r, e⟩
  · cases e
    exact ⟨⟨u, _, _, _, hw, rfl⟩, _, [], (List.append_nil _).symm, hw.outb_bytes, .inl ⟨rfl, rfl, rfl⟩⟩
  · cases e
    exact ⟨⟨u, _, _, _, hw, rfl⟩, put, left, hsplit, hw.outb_bytes, .inr (.inl ⟨rfl, x, rfl⟩)⟩
  · cases e
    exact ⟨⟨u, _, _, u.resp, hw, rfl⟩, put, _, hsplit, hw.outb_bytes, .inr (.inr ⟨c, rest, rfl, rfl, hw.resp⟩)⟩
  · cases e

/-- Settles O22: the chunks are the frame, and `writeChunks` keeps their bytes. -/
theorem blockingSendKeepsEveryByte : Obligations.BlockingSendKeepsEveryByte := by
  intro i p s t hi hs hb ht
  have hp : p.length ≤ Config.lenMax := by
    by_contra hp
    rw [exec_framesPayload hi hs, sendFrame, if_pos (Nat.not_le.mp hp)] at ht
    cases ht
  rw [exec_framesPayload hi hs, sendFrame_blocking hb hp] at ht
  obtain ⟨⟨u, put, c, r, ⟨plan, offered, held, -, rfl⟩, rfl⟩, hleaves⟩ := writeChunks_leaves ht
  rw [flatten_chunks] at hleaves
  exact ⟨rfl, rfl, rfl, rfl, rfl, rfl, rfl, hleaves⟩

/-! ### A blocking send on an eager transport (R54, R92 to R94) -/

/-- On an eager transport each chunk is one whole write. -/
theorem writeChunks_cons_eager {c : Bytes} {rest : List Bytes} {s : State} (he : eagerWrites s.port) (hc : c ≠ []) :
    writeChunks (c :: rest) s = writeChunks rest (afterWrite c c.length s) := by
  rw [writeChunks, writeAll_eager he hc]

/-- The eager plan is not used up. -/
theorem afterWrite_eager {s : State} (he : eagerWrites s.port) (c : Bytes) :
    afterWrite c c.length s = { s with port :=
      { s.port with
        outb := { s.port.outb with bytes := s.port.outb.bytes ++ c }
        calls := s.port.requested [.write s.ep.hWr c]
        held := false } } := by
  obtain ⟨hplan, -⟩ := he
  simp [afterWrite, hplan]

/-- The second of two writes is a request of its own (log 26). -/
theorem afterWrite_afterWrite_eager {s : State} (he : eagerWrites s.port) (c d : Bytes) :
    afterWrite d d.length (afterWrite c c.length s) = { s with port :=
      { s.port with
        outb := { s.port.outb with bytes := s.port.outb.bytes ++ (c ++ d) }
        calls := s.port.requested [.write s.ep.hWr c, .write s.ep.hWr d]
        held := false } } := by
  rw [afterWrite_eager (eagerWrites_afterWrite he c c.length), afterWrite_eager he]
  simp [requested_of_not_held, requested_cons_append]

/-- Settles O21: one write of the frame, or one of the header and one of the payload. -/
theorem blockingSendWritesTheFrame : Obligations.BlockingSendWritesTheFrame := by
  intro i p s hi hs hb hp he
  have ⟨hidle, _, _⟩ := hs
  have hne := chunks_ne_nil s.params.coalesceMax p
  rw [exec_framesPayload hi hs, sendFrame_blocking hb hp]
  by_cases hl : p.length ≤ s.params.coalesceMax
  · have hcs : chunks s.params.coalesceMax p = [frameEnc p] := if_pos hl
    rw [hcs] at hne ⊢
    obtain ⟨hframe, -⟩ := List.forall_mem_cons.mp hne
    rw [writeChunks_cons_eager he hframe, afterWrite_eager he, if_pos hl]
    exact finish_of_idle hidle
  · have hcs : chunks s.params.coalesceMax p = [hdrEnc p.length, p] := if_neg hl
    rw [hcs] at hne ⊢
    obtain ⟨hheader, hpayload⟩ := List.forall_mem_cons.mp hne
    rw [writeChunks_cons_eager he hheader,
      writeChunks_cons_eager (eagerWrites_afterWrite he _ _) (hpayload p List.mem_cons_self),
      afterWrite_afterWrite_eager he, if_neg hl]
    exact finish_of_idle hidle

/-! ### A blocking send, one answer at a time (R93) -/

section
variable {c : Bytes} {rest : List Bytes} {s u : State}

/-- Bytes confirmed: the send goes on with the rest of its chunk. -/
theorem writeChunks_of_wrote {n : Nat} (hn : 1 ≤ n) (hl : n ≤ c.length)
    (hw : tWrite c s = .answered (.wrote n) u) : writeChunks (c :: rest) s = writeChunks (c.drop n :: rest) u := by
  obtain ⟨k, hk⟩ := Nat.exists_eq_add_of_le' (hn.trans hl)
  have hc : c ≠ [] := List.length_pos_iff.mp (hn.trans hl)
  have hfuel : writeAll k (c.drop n) u = writeAll (c.drop n).length (c.drop n) u :=
    writeAll_fuel (by rw [List.length_drop]; omega)
  rw [writeChunks, hk, writeAll, if_neg hc, hw]
  simp only [if_neg (show n ≠ 0 by omega), hfuel, writeChunks]

/-- None confirmed, or no answer: the send waits with the whole chunk. -/
theorem writeChunks_waits (hc : c ≠ []) (hw : tWrite c s = .answered (.wrote 0) u ∨ tWrite c s = .held u) :
    writeChunks (c :: rest) s = .next { u with cont := .writing c rest } := by
  obtain ⟨k, hk⟩ := Nat.exists_eq_succ_of_ne_zero (mt List.length_eq_zero_iff.mp hc)
  rw [writeChunks, hk, writeAll, if_neg hc]
  rcases hw with hw | hw
  · rw [hw]
    rfl
  · rw [hw]

/-- An error ends the send. -/
theorem writeChunks_of_err {e : TErr} (hc : c ≠ []) (hw : tWrite c s = .answered (.err e) u) :
    writeChunks (c :: rest) s = raise (.transportError e) u := by
  obtain ⟨k, hk⟩ := Nat.exists_eq_succ_of_ne_zero (mt List.length_eq_zero_iff.mp hc)
  rw [writeChunks, hk, writeAll, if_neg hc, hw]

end

/-- A step writes on the same way whatever was executing (R92). -/
theorem step_writing {s : State} (hu : undisturbed s) (c : Bytes) (rest : List Bytes) :
    step { s with cont := .writing c rest } = writeChunks (c :: rest) s :=
  (step_of_writing (s := { s with cont := .writing c rest }) hu rfl).trans
    (writeChunks_withCont (List.cons_ne_nil c rest) s _)

/-- A write that confirms nothing leaves the send as it was, its request answered (R93; log 4). -/
theorem step_of_wrote_zero {c : Bytes} {rest : List Bytes} {s : State} (hu : undisturbed s)
    (hc : s.cont = .writing c rest) (hne : c ≠ []) (hp : s.port.writePlan.pop.1 = .wrote 0) :
    step s = .next (afterWrite c 0 s) := by
  rw [step_of_writing hu hc, writeChunks_waits hne (.inl (tWrite_wrote hp (Nat.zero_le _))),
    with_own_cont (by exact hc)]

/-- Settles O23: a step is `writeChunks` of what is left, which keeps its bytes and takes one answer at a time. -/
theorem writeLoopGoesOnWithTheRest : Obligations.WriteLoopGoesOnWithTheRest := by
  intro c rest s hu
  refine ⟨fun hc t ht => ?keepsBytes, fun hc hne => ⟨fun n hp h1 hl => ?confirmed,
    step_of_wrote_zero hu hc hne, fun e hp => ?error, fun hp hr => ?readerGone, fun hp hb => ?unanswered⟩,
    fun i p hi hs hb hp hcs => ?starts⟩
  case keepsBytes =>
    rw [step_of_writing hu hc] at ht
    obtain ⟨⟨u, put, k, r, ⟨plan, offered, held, -, rfl⟩, rfl⟩, hleaves⟩ := writeChunks_leaves ht
    exact ⟨rfl, rfl, hleaves⟩
  case confirmed =>
    have hu' : undisturbed (afterWrite c n s) := hu
    rw [step_of_writing hu hc, writeChunks_of_wrote h1 hl (tWrite_wrote hp hl), step_writing hu']
  case error =>
    rw [step_of_writing hu hc, writeChunks_of_err hne (tWrite_err (.inl hp))]
    rfl
  case readerGone =>
    rw [step_of_writing hu hc, writeChunks_of_err hne (tWrite_err (.inr ⟨hp, hr, rfl⟩))]
    rfl
  case unanswered =>
    rw [step_of_writing hu hc, writeChunks_waits hne (.inr (tWrite_hold_blocking hb hp)), with_own_cont (by exact hc)]
  case starts => rw [step_writing hu, exec_framesPayload hi hs, sendFrame_blocking hb hp, hcs]

/-- Settles O24, by induction on the number of steps: each is a write that confirms nothing. -/
theorem zeroProgressDiverges : Obligations.ZeroProgressDiverges := by
  intro c rest s ha hq hc hne hplan k
  induction k generalizing s with
  | zero => exact ⟨s, rfl, hc, rfl, rfl⟩
  | succ k ih =>
    have hstep : step s = .next (afterWrite c 0 s) := step_of_wrote_zero ⟨ha, hq⟩ hc hne (by rw [hplan]; rfl)
    have hplan' : (afterWrite c 0 s).port.writePlan = ⟨[], .wrote 0⟩ := congrArg (fun p => p.pop.2) hplan
    have houtb : (afterWrite c 0 s).port.outb = s.port.outb := by rw [afterWrite_zero, writeIssued_port_outb]
    obtain ⟨t, ht, htc, hep, hto⟩ := ih (afterWrite c 0 s) ha hq hc hplan'
    exact ⟨t, (run_succ hstep k).trans ht, htc, hep, hto.trans houtb⟩

/-! ### The non-blocking commands complete (R99, R120) -/

theorem finish_cont_idle {st : Status} {r : Result} {s t : State} (h : finish st r s = .next t) : t.cont = .idle := by
  rw [finish_next] at h
  rw [h, complete_cont]

/-- A refused command answers no state. -/
theorem ite_refused_cont_idle {P : Prop} [Decidable P] {f : Refusal} {k : Out} {t : State}
    (hk : k = .next t → t.cont = .idle) (h : (if P then .refused f else k) = .next t) : t.cont = .idle := by
  split at h
  · cases h
  · exact hk h

theorem drainOnce_cont_idle {s t : State} (h : drainOnce s = .next t) : t.cont = .idle := by
  rcases drainOnce_cases h with ⟨-, e⟩ | ⟨n, u, -, -, -, e⟩ | ⟨u, -, -, e⟩ | ⟨x, u, -, -, e⟩ | ⟨r, e⟩
  · exact finish_cont_idle e.symm
  · exact finish_cont_idle e.symm
  · exact finish_cont_idle e.symm
  · exact finish_cont_idle e.symm
  · cases e

/-- What passes SendChecks decides whether the command completes (R90). -/
theorem sendChecks_cont_idle {k : Out} {s t : State} (hk : k = .next t → t.cont = .idle)
    (h : sendChecks s k = .next t) : t.cont = .idle := by
  rcases sendChecks_next h with ⟨-, rfl⟩ | ⟨-, -, rfl⟩ | ⟨-, -, h⟩
  · rfl
  · rfl
  · exact hk h

theorem sendSlice_cont_idle {b : Bytes} {o n : Int} {s t : State} (hb : s.ep.blocking = false)
    (h : sendSlice b o n s = .next t) : t.cont = .idle := by
  refine sendChecks_cont_idle (fun h => ?_) h
  unfold sendFrame sendNonBlocking at h
  simp only [hb, Bool.false_eq_true, if_false] at h
  split_ifs at h
  · exact drainOnce_cont_idle h
  · exact finish_cont_idle h

theorem assemble_cont_idle {b : Bytes} {s t : State} (h : assemble b s = .next t) : t.cont = .idle := by
  unfold assemble at h
  rcases assembleHeld_cases (s := { s with cont := .assembling b [] }) rfl with ⟨u, vs, e, -⟩ | ⟨vs, e⟩ | ⟨r, e⟩ <;>
    rw [e] at h <;> cases h <;> rfl

theorem readOnce_cont_idle {max : Nat} {s t : State} (h : readOnce max s = .next t) : t.cont = .idle := by
  unfold readOnce at h
  split at h
  · cases h
  · cases h
  · exact assemble_cont_idle h
  · exact assemble_cont_idle h
  · exact assemble_cont_idle h
  · exact finish_cont_idle h

theorem execRecvNb_cont_idle {m : Int} {s t : State} (h : execRecvNb m s = .next t) : t.cont = .idle := by
  obtain ⟨-, h⟩ := onlyInMode_next (whenIdle_next h).2
  rcases recvChecks_next h with ⟨-, rfl⟩ | ⟨-, -, rfl⟩ | ⟨-, -, -, h⟩
  · rfl
  · rfl
  · rcases nonNegative_next h with ⟨-, rfl⟩ | ⟨-, h⟩
    · rfl
    · exact ite_refused_cont_idle readOnce_cont_idle h

/-- A receive of the blocking variant does not run on a non-blocking endpoint (R71). -/
theorem blockingVariant_ne_next {k : Out} {s t : State} (hb : s.ep.blocking = false) :
    (whenIdle s <| onlyInMode true s k) ≠ .next t := fun h =>
  absurd (hb.symm.trans (onlyInMode_next (whenIdle_next h).2).1) (by decide)

/-- Settles O27: the sends drain once, RECV_NB reads once, and the other commands never meet the transport or belong to
the blocking variant. -/
theorem nonBlockingCommandsAreNeverHeld : Obligations.NonBlockingCommandsAreNeverHeld := by
  intro i s t hi hb h
  cases i with
  | hdrEnc n => exact ite_refused_cont_idle finish_cont_idle (whenIdle_next h).2
  | hdrParse b => exact finish_cont_idle (whenIdle_next h).2
  | frameEnc p => exact ite_refused_cont_idle finish_cont_idle (whenIdle_next h).2
  | send v => exact sendSlice_cont_idle hb (whenIdle_next h).2
  | sendBytes b o n => exact sendSlice_cont_idle hb (whenIdle_next h).2
  | drain => exact sendChecks_cont_idle drainOnce_cont_idle (whenIdle_next h).2
  | recv => exact absurd h (blockingVariant_ne_next hb)
  | recvBytes => exact absurd h (blockingVariant_ne_next hb)
  | recvBytesInto c => exact absurd h (blockingVariant_ne_next hb)
  | recvNb m => exact execRecvNb_cont_idle h
  | close => exact finish_cont_idle (whenIdle_next h).2
  | reserved0 => cases h
  | reservedCF low => cases h
  | small len => cases hi
  | large len => cases hi
  | invalidHdr rest => cases hi

end Sys2Proof.Machine
end

section
/-! The blocking Receiver (42_receiver_blocking.md): its checks, one whole frame, a bad length, a transport error, and
the wait for a byte (R105 to R112). -/

namespace Sys2Proof.Machine

/-! ### RecvChecks (R105) -/

theorem recvChecks_of_closed {s : State} {k : Out} (h : s.ep.closed = true) :
    recvChecks s k = raise .closedHandleError s := by
  simp only [recvChecks, h, if_true]

theorem recvChecks_of_not_readable {s : State} {k : Out} (h : s.ep.closed = false) (hr : s.ep.readable = false) :
    recvChecks s k = raise .capabilityError s := by
  simp only [recvChecks, h, hr, Bool.false_eq_true, if_false]

theorem recvChecks_of_desync {s : State} {k : Out} (h : s.ep.closed = false) (hr : s.ep.readable = true)
    (hd : s.ep.rxDesync = true) : recvChecks s k = .refused .receiverDesynchronised := by
  simp only [recvChecks, h, hr, hd, Bool.false_eq_true, if_false, if_true]

/-- Every receive command of the mode of an idle endpoint begins with RecvChecks. -/
theorem exec_isReceive {i : Instr} {s : State} (hi : isReceive s.ep.blocking i) (hc : s.cont = .idle) :
    ∃ k, exec i s = recvChecks s k := by
  have gates {b : Bool} (hb : s.ep.blocking = b) (k : Out) : (whenIdle s <| onlyInMode b s k) = k := by
    rw [whenIdle_of_idle hc, onlyInMode_of_eq hb]
  cases hb : s.ep.blocking with
  | true =>
    rw [hb, isReceive, if_pos rfl] at hi
    rcases hi with rfl | rfl | ⟨c, rfl⟩
    · exact ⟨_, gates hb _⟩
    · exact ⟨_, gates hb _⟩
    · exact ⟨_, gates hb _⟩
  | false =>
    rw [hb, isReceive, if_neg Bool.false_ne_true] at hi
    obtain ⟨m, rfl⟩ := hi
    exact ⟨_, gates hb _⟩

/-- Settles O28: whatever would follow RecvChecks, a failed check ends the command. -/
theorem recvChecksComeFirst : Obligations.RecvChecksComeFirst := by
  intro i s hi hc
  obtain ⟨k, hk⟩ := exec_isReceive hi hc
  rw [hk]
  refine ⟨fun hclosed => ?_, fun hopen hr => ?_, recvChecks_of_desync⟩
  · rw [recvChecks_of_closed hclosed, raise, finish_of_idle hc]
  · rw [recvChecks_of_not_readable hopen hr, raise, finish_of_idle hc]

/-! ### One whole frame (R106 to R110) -/

/-- Settles O29: the header comes whole, then the payload, and the payload is delivered. -/
theorem blockingReceiveReturnsOneFrame : Obligations.BlockingReceiveReturnsOneFrame := by
  intro i kind h p rest s hi hr hb he hh hw hx ht
  have ⟨hidle, _, _, _⟩ := hr
  obtain ⟨_, hd⟩ := decodeHeader_whole hh
  obtain ⟨asked, -, hread, hasked⟩ := readHeader_eager (kind := kind) (acc := []) (rest := p ++ rest) he hd rfl
    (by rw [List.nil_append, hw, List.append_assoc])
  obtain ⟨d, hdst, hdeliver⟩ :=
    deliverPayload_eq kind p (afterReads (headerReads h ++ payloadReads p.length) rest s)
  refine ⟨d, hdst, ?_⟩
  rw [exec_isBlockingReceive hi hb hr, hread, hasked rfl,
    headerInHand_eager (s := afterReads (headerReads h) (p ++ rest) s) he hh hx ht rfl, afterReads_afterReads]
  exact hdeliver.trans (finish_of_idle (s := { afterReads _ rest s with dst := d }) hidle)

/-- Settles O30: of the ways a blocking receive ends or waits (`blockingReceiveKeepsEveryByte`), only a whole frame
answers OK. -/
theorem blockingReceiveTakesExactlyOneFrame : Obligations.BlockingReceiveTakesExactlyOneFrame := by
  intro i kind s t r hi hr hb ht hidle hok
  obtain ⟨-, -, -, -, -, -, got, hbytes, hends⟩ :=
    blockingReceiveKeepsEveryByte i kind [] s t (.inl ⟨hi, hr, hb, rfl, ht⟩)
  rcases hends with ⟨-, -, -, -, -, ⟨hc, -⟩ | ⟨_, _, _, hc, -⟩⟩ |
    ⟨-, ⟨h, p, hh, hgot, hep, hdst, hresp⟩ | ⟨-, ⟨-, -, hresp⟩ | ⟨-, -, hresp | hresp⟩ | ⟨-, _, hresp⟩⟩⟩
  · cases hidle.symm.trans hc
  · cases hidle.symm.trans hc
  · cases hok.symm.trans hresp
    rw [List.nil_append] at hgot
    exact ⟨h, p, hh, by rw [hbytes, hgot], rfl, hdst, hep⟩
  · cases hok.symm.trans hresp
  · cases hok.symm.trans hresp
  · cases hok.symm.trans hresp
  · cases hok.symm.trans hresp

/-! ### A bad length (R107, R110, R151) -/

/-- A header that a blocking receive takes for a bad length: an illegal word, or a declared length within RX_CAP that
the destination has no room for. -/
def isBadHeader (kind : RecvKind) (rxCap : Option Nat) (h : Bytes) : Prop :=
  isIllegalWord h ∨ ∃ n, isHeader h n ∧ exceeds n rxCap = false ∧ kind.tooSmall n = true

/-- Either is fetched whole (R61, R62, R66). -/
theorem decodeHeader_isBadHeader {kind : RecvKind} {rxCap : Option Nat} {h : Bytes} (hbad : isBadHeader kind rxCap h) :
    ∃ i, decodeHeader h = .fetched i h.length := by
  rcases hbad with hill | ⟨n, hh, -⟩
  · obtain ⟨w, hd⟩ := decodeHeader_isIllegalWord hill []
    rw [List.append_nil] at hd
    obtain ⟨h4, -⟩ := hill
    exact ⟨_, h4.symm ▸ hd⟩
  · exact decodeHeader_whole hh

/-- Either degrades the endpoint, then ends the command, with no read of a payload. -/
theorem headerInHand_isBadHeader {kind : RecvKind} {h : Bytes} {s : State}
    (hbad : isBadHeader kind s.params.rxCap h) :
    headerInHand kind h s = .next (complete .badMessageLengthError .none (degrade s)) := by
  have degraded : complete .badMessageLengthError .none (degrade { s with cont := .recvHeader kind h }) =
      complete .badMessageLengthError .none (degrade s) := by rw [degrade_withCont]; rfl
  rw [← degraded]
  rcases hbad with hill | ⟨n, hh, hx, ht⟩
  · obtain ⟨w, hd⟩ := decodeHeader_isIllegalWord hill []
    rw [List.append_nil] at hd
    rw [headerInHand, hd]
    exact headerInvalid_eq (s := { s with cont := .recvHeader kind h }) (.inl ⟨kind, h, rfl, rfl⟩)
  · rw [headerInHand_isHeader hh, headerResolved_recvHeader (s := { s with cont := .recvHeader kind h }) rfl hx,
      if_pos ht]
    rfl

/-- On an eager transport a receive with part of such a header read reads the rest of it and no more. -/
theorem readHeader_isBadHeader {kind : RecvKind} {acc h rest : Bytes} {s : State} (he : eagerReads s.port)
    (hbad : isBadHeader kind s.params.rxCap h) (ha : isHeaderPrefix acc = true)
    (hw : acc ++ s.port.inb.bytes = h ++ rest) :
    ∃ asked, asked ≠ [] ∧ (acc = [] → asked = headerReads h) ∧ readHeader kind acc s =
      .next (complete .badMessageLengthError .none (degrade (afterReads asked rest s))) := by
  obtain ⟨_, hd⟩ := decodeHeader_isBadHeader hbad
  obtain ⟨asked, hne, hread, hasked⟩ := readHeader_eager (kind := kind) he hd ha hw
  exact ⟨asked, hne, hasked, hread.trans (headerInHand_isBadHeader hbad)⟩

/-- Settles O33: a receive that starts has read none of the header, and a held one part of it. -/
theorem badLengthDegradesThenRaises : Obligations.BadLengthDegradesThenRaises := by
  intro i kind h rest acc s hb he hbad
  refine ⟨fun hi hr hw => ?starts, fun hu hc ha hw => ?held⟩
  case starts =>
    have ⟨hidle, _, _, _⟩ := hr
    obtain ⟨asked, -, hasked, hread⟩ := readHeader_isBadHeader (acc := []) he hbad rfl hw
    rw [exec_isBlockingReceive hi hb hr, hread, hasked rfl]
    exact finish_of_idle ((degrade_cont _).trans hidle)
  case held =>
    obtain ⟨asked, hne, -, hread⟩ := readHeader_isBadHeader he hbad ha hw
    exact ⟨asked, hne, (step_of_recvHeader hu hc).trans hread⟩

/-! ### A header's read that brings no byte (R106, R107) -/

/-- If the read of what a header still wants brings none of it, the receive ends or waits as that read does. -/
theorem readHeader_of_readExact {kind : RecvKind} {acc : Bytes} {s : State} {r : ReadEnd}
    (ha : isHeaderPrefix acc = true) (hr : readExact (acc.length + headerWants acc) acc s = r)
    (hnot : ∀ b u, r ≠ .got b u) :
    readHeader kind acc s = readEnded false (headerInHand kind) (.recvHeader kind) r := by
  by_cases h4 : acc.length < 4
  · have hn : acc.length + headerWants acc = 4 := by rw [headerWants, if_pos h4]; omega
    rw [hn] at hr
    rw [readHeader, hr]
    cases r with
    | got b u => exact absurd rfl (hnot b u)
    | _ => rfl
  · have hl := length_isHeaderPrefix ha
    have hn : acc.length + headerWants acc = 12 := by rw [headerWants, if_neg h4]; omega
    have h := readHeader_past_first_word (kind := kind) [] (s := s) (by omega) ha
    rwa [List.append_nil, ← hn, hr] at h

theorem headerWants_pos {acc : Bytes} (ha : isHeaderPrefix acc = true) : 1 ≤ headerWants acc := by
  have hl := length_isHeaderPrefix ha
  unfold headerWants
  split <;> omega

/-! ### A transport error (R30, R106, R152) -/

/-- `s` after a TRead of `want` bytes was answered with the error `e`, which ended the receive and left the mark of R30
at `mark`. -/
def readFailed (want : Nat) (e : TErr) (mark : Bool) (s : State) : State :=
  { afterRead want 0 s with
    cont := .idle
    ep := { s.ep with rxDesync := mark }
    resp := some ⟨.transportError e, .none⟩ }

/-- A receive that fails in the step that starts it. -/
theorem readFailed_of_idle {s : State} (hc : s.cont = .idle) (want : Nat) (e : TErr) (mark : Bool) :
    readFailed want e mark s = { afterRead want 0 s with
      ep := { s.ep with rxDesync := mark }, resp := some ⟨.transportError e, .none⟩ } := by
  rw [readFailed, ← hc]
  rfl

/-- An error in a header strikes mid-frame if a byte of the header was read. -/
theorem readHeader_err {kind : RecvKind} {acc : Bytes} {e : TErr} {s : State} (ha : isHeaderPrefix acc = true)
    (hp : s.port.readPlan.pop.1 = .err e) :
    readHeader kind acc s = .next (readFailed (headerWants acc) e (s.ep.rxDesync || !acc.isEmpty) s) := by
  have hpos := headerWants_pos ha
  have hfail := readExact_err (n := acc.length + headerWants acc) (acc := acc) hp (by omega)
  rw [readHeader_of_readExact ha hfail (fun _ _ => ReadEnd.noConfusion), Nat.add_sub_cancel_left, readEnded,
    Bool.or_false]
  rfl

/-- An error in a payload always does. -/
theorem readPayload_err {kind : RecvKind} {n : Nat} {acc : Bytes} {e : TErr} {s : State} (hl : acc.length < n)
    (hp : s.port.readPlan.pop.1 = .err e) :
    readPayload kind n acc s = .next (readFailed (n - acc.length) e true s) := by
  rw [readPayload, readExact_err hp hl, readEnded, Bool.or_true, Bool.true_or]
  rfl

theorem isHeaderPrefix_of_length_lt {b : Bytes} (h : b.length < 4) : isHeaderPrefix b = true := by
  simp only [isHeaderPrefix, h, decide_true, Bool.true_or]

/-- After 1 to 3 bytes of the first word the error meets the read of the rest of it (V11, row 2). -/
theorem readHeader_err_in_word {kind : RecvKind} {b : Bytes} {e : TErr} {s : State} (h1 : 1 ≤ b.length)
    (h4 : b.length < 4) (hp : s.port.readPlan.pop.1 = .err e) :
    readHeader kind b s = .next (readFailed (4 - b.length) e true s) := by
  have hne : b.isEmpty = false := List.isEmpty_eq_false_iff.mpr (List.ne_nil_of_length_pos h1)
  rw [readHeader_err (isHeaderPrefix_of_length_lt h4) hp, headerWants, if_pos h4, hne, Bool.not_false, Bool.or_true]

/-- A receive that starts is, after an answer of `k` bytes, one that has read them. -/
theorem readHeader_first_take {kind : RecvKind} {k : Nat} {s : State} (hp : s.port.readPlan.pop.1 = .take k)
    (h1 : 1 ≤ k) (h4 : k ≤ 4) (hk : k ≤ s.port.inb.bytes.length) :
    readHeader kind [] s = readHeader kind (s.port.inb.bytes.take k) (afterRead 4 k s) :=
  readHeader_take (acc := []) rfl hp h1 h4 hk

/-- With all of a header's bytes read, the header is in hand. -/
theorem readHeader_whole {kind : RecvKind} {h : Bytes} {n : Nat} (hh : isHeader h n) (s : State) :
    readHeader kind h s = headerInHand kind h s := by
  obtain ⟨i, hd⟩ := decodeHeader_whole hh
  have h4 : 4 ≤ h.length := by rcases length_isHeader hh with hl | hl <;> omega
  rw [readHeader, readExact_met h4, readEnded, hd]

/-- A header that the receive accepts is followed by the reads of its payload (R107, R108, R110). -/
theorem headerInHand_accepted {kind : RecvKind} {h : Bytes} {n : Nat} {s : State} (hh : isHeader h n)
    (hx : exceeds n s.params.rxCap = false) (ht : kind.tooSmall n = false) :
    headerInHand kind h s = readPayload kind n [] s := by
  rw [headerInHand_isHeader hh, headerResolved_recvHeader (s := { s with cont := .recvHeader kind h }) rfl hx, ht,
    if_neg Bool.false_ne_true, readPayload_withCont]

/-- The first two choices of a plan. -/
theorem Plan.pop_pop {α : Type} {p : Plan α} {a b : α} {more : List α} (h : p.pending = a :: b :: more) :
    p.pop.1 = a ∧ p.pop.2.pop.1 = b := by
  obtain ⟨_, _⟩ := p
  subst h
  exact ⟨rfl, rfl⟩

/-- Settles O34: an answer of bytes makes the receive one that has read them, and the error then meets a header read in
part, or a payload. -/
theorem readErrorMarksTheReceiverMidFrame : Obligations.ReadErrorMarksTheReceiverMidFrame := by
  intro i kind e s hb
  refine ⟨fun hi hr => ?starts, fun acc hu hp hc ha => ?header, fun n acc hu hp hc hl => ?payload⟩
  case starts =>
    have ⟨hidle, _, _, _⟩ := hr
    rw [exec_isBlockingReceive hi hb hr]
    refine ⟨fun hp => ?first, fun k more hpl h1 h4 hk => ?inHeader, fun n rest more hpl h1 hs hw hx ht => ?inPayload⟩
    case first =>
      rw [readHeader_err (acc := []) rfl hp, readFailed_of_idle hidle, List.isEmpty_nil, Bool.not_true, Bool.or_false]
      rfl
    case inHeader =>
      obtain ⟨htake, herr⟩ := Plan.pop_pop hpl
      have hlen : (s.port.inb.bytes.take k).length = k := List.length_take_of_le hk
      rw [readHeader_first_take htake h1 h4.le hk,
        readHeader_err_in_word (s := afterRead 4 k s) (by rwa [hlen]) (by rwa [hlen]) herr, hlen,
        readFailed_of_idle (s := afterRead 4 k s) hidle]
      rfl
    case inPayload =>
      obtain ⟨htake, herr⟩ := Plan.pop_pop hpl
      have hh : isHeader (be32 n) n := .inl ⟨hs, rfl⟩
      have hword : s.port.inb.bytes.take 4 = be32 n := by rw [hw, List.take_left' (length_be32 n)]
      rw [readHeader_first_take htake (by decide) le_rfl (by rw [hw]; simp), hword, readHeader_whole hh,
        headerInHand_accepted (s := afterRead 4 4 s) hh hx ht, readPayload_err (s := afterRead 4 4 s) h1 herr,
        readFailed_of_idle (s := afterRead 4 4 s) hidle]
      rfl
  case header => rw [step_of_recvHeader hu hc, readHeader_err ha hp]; rfl
  case payload => rw [step_of_recvPayload hu hc, readPayload_err hl hp]; rfl

/-! ### The wait for a byte (R11 (b), R41, R112) -/

/-- A blocking read on an open wire with no byte in flight has no answer (R54). -/
theorem tRead_eager_empty {want : Nat} {s : State} (hb : s.ep.blocking = true) (he : eagerReads s.port)
    (hempty : s.port.inb.bytes = []) (hopen : s.port.inb.wclosed = false) :
    tRead want s = .held (readOutstanding want s) := by
  have hp : s.port.readPlan.pop.1 = .all := by rw [he]; rfl
  simp only [tRead, hp, readAnswer, deliver, hempty, hopen, hb, if_true, Bool.false_eq_true, if_false]
  rfl

/-- A read with no answer leaves the loop waiting with the bytes it has. -/
theorem readExact_of_held {n : Nat} {acc : Bytes} {s u : State} (hl : acc.length < n)
    (hr : tRead (n - acc.length) s = .held u) : readExact n acc s = .held acc u := by
  rw [readExact, readLoop, if_neg (Nat.not_le.mpr hl), hr]

/-- A read outstanding stays the one request, however often it meets the eager transport (log 26). -/
theorem readOutstanding_idem {want : Nat} {s : State} (he : eagerReads s.port) :
    readOutstanding want (readOutstanding want s) = readOutstanding want s := by
  simp [readOutstanding, Port.requested, he]

theorem readOutstanding_calls (want : Nat) (s : State) :
    (readOutstanding want s).port.calls = s.port.calls ++ if s.port.held then [] else [.read s.ep.hRd want] := rfl

/-- A receive that has read nothing waits for the four bytes of a first word. -/
theorem readHeader_eager_empty {kind : RecvKind} {s : State} (hb : s.ep.blocking = true) (he : eagerReads s.port)
    (hempty : s.port.inb.bytes = []) (hopen : s.port.inb.wclosed = false) :
    readHeader kind [] s = .next { readOutstanding 4 s with cont := .recvHeader kind [] } :=
  readHeader_of_readExact (acc := []) rfl (readExact_of_held (by decide) (tRead_eager_empty hb he hempty hopen))
    fun _ _ => ReadEnd.noConfusion

/-- So does a held one, and it changes nothing else. -/
theorem step_held_receive {kind : RecvKind} {s : State} (hb : s.ep.blocking = true) (he : eagerReads s.port)
    (hempty : s.port.inb.bytes = []) (hopen : s.port.inb.wclosed = false) (hu : undisturbed s)
    (hc : s.cont = .recvHeader kind []) : step s = .next (readOutstanding 4 s) := by
  rw [step_of_recvHeader hu hc, readHeader_eager_empty hb he hempty hopen, with_own_cont (by exact hc)]

/-- It meets the same wire again, by induction on the number of steps. -/
theorem run_held_receive {kind : RecvKind} {s : State} (hb : s.ep.blocking = true) (he : eagerReads s.port)
    (hempty : s.port.inb.bytes = []) (hopen : s.port.inb.wclosed = false) (hu : undisturbed s)
    (hc : s.cont = .recvHeader kind []) (k : Nat) :
    core.run (k + 1) s = .next (readOutstanding 4 s) := by
  induction k generalizing s with
  | zero => exact run_succ (step_held_receive hb he hempty hopen hu hc) 0
  | succ k ih =>
    have heager : eagerReads (readOutstanding 4 s).port := congrArg (fun p => p.pop.2) he
    rw [run_succ (step_held_receive hb he hempty hopen hu hc),
      ih (s := readOutstanding 4 s) hb heager hempty hopen hu hc, readOutstanding_idem he]

/-- Settles O35: the first read has no answer, and nor has any later one. -/
theorem receiveIsHeldOnAnEmptyOpenWire : Obligations.ReceiveIsHeldOnAnEmptyOpenWire := by
  intro i kind s hi hb he hempty hopen
  refine ⟨fun hr => ?starts, fun hu hc k => ⟨?held, readOutstanding_calls 4 s⟩⟩
  case starts => rw [exec_isBlockingReceive hi hb hr, readHeader_eager_empty hb he hempty hopen]
  case held =>
    cases k with
    | zero => rfl
    | succ k => exact run_held_receive hb he hempty hopen hu hc k

end Sys2Proof.Machine
end

section
/-! The non-blocking Receiver (43_receiver_nonblocking.md): a header met by an assembly, a read that brings no byte, whole
frames in one read, and the same bytes in many reads (R120 to R127). -/

namespace Sys2Proof.Machine

/-! ### A header met by an assembly (R123) -/

/-- Settles O41: SMALL and LARGE are both `headerResolved` of their length. -/
theorem headerCreatesTheReceiveContext : Obligations.HeaderCreatesTheReceiveContext := by
  intro len len64 inBytes out s hc
  have met (n : Nat) : headerResolved n s =
      if exceeds n s.params.rxCap then .refused .rxCapacity
      else .next { s with ep := { s.ep with rxHdr := [], ctx := some ⟨[], n⟩, rxPhase := .inProgress } } := by
    rw [headerResolved_assembling hc, State.inLoop, ← hc, Endpoint.withRx]
  exact ⟨met len.toNat, met len64.toNat⟩

/-! ### The receive state between commands (R26, R27) -/

theorem withRx_withRx (e : Endpoint) (r r' : Rx) : (e.withRx r).withRx r' = e.withRx r' := by
  cases r <;> cases r' <;> rfl

/-- A reassembly that is given nothing more ends with OK in the receive state it has. -/
def Rx.Waits (r : Rx) : Prop :=
  ∀ (s : State) (out : List Value) (k : Nat),
    assembleLoop (k + 1) (s.inLoop r [] out) = .next (complete .ok (.values out) (s.withRx r))

/-- An undecided header waits for its next byte, and a context for the bytes it still wants. -/
theorem Rx.rests.waits {r : Rx} {cap : Option Nat} (h : r.rests cap) : r.Waits := by
  intro s out k
  cases r with
  | header b =>
    have hd : decodeHeader (b ++ []) = .incomplete := by
      rw [List.append_nil, decodeHeader_incomplete_iff]
      exact h
    rw [assembleLoop_header, hd, List.append_nil]
  | payload c =>
    have hwants : ¬ c.remaining ≤ ([] : Bytes).length := Nat.not_le.mpr h.1
    rw [assembleLoop_payload, if_neg hwants, List.append_nil]
    rfl

theorem Rx.need_pos (inBytes : Bytes) (r : Rx) : 0 < r.need inBytes := by
  cases r <;> exact Nat.succ_pos _

/-- At a frame boundary no header byte is kept (R32). -/
theorem Endpoint.withRx_of_receiveClear {e : Endpoint} (h : e.receiveClear = true) : e = e.withRx (.header []) := by
  simp only [Endpoint.receiveClear, Bool.and_eq_true, beq_iff_eq] at h
  obtain ⟨⟨hph, hhdr⟩, hctx⟩ := h
  rw [Endpoint.withRx, ← hph, ← hhdr, ← hctx]

/-- A state with the receive state it already has. -/
theorem State.withRx_own {s : State} {r : Rx} (h : s.ep = s.ep.withRx r) : s.withRx r = s := by
  rw [State.withRx, ← h]

/-! ### A read that brings no byte (R121) -/

/-- Would-block, or a wire with nothing in flight, ended or not, brings a non-blocking endpoint no byte (R41). -/
theorem tRead_nothing {max : Nat} {s : State} (hb : s.ep.blocking = false)
    (h : s.port.readPlan.pop.1 = .wouldBlock ∨ s.port.readPlan.pop.1 = .all ∧ s.port.inb.bytes = []) :
    tRead max s = .answered .wouldBlock (readIssued max s) ∨ tRead max s = .answered .eof (readIssued max s) := by
  rcases h with hp | ⟨hp, hw⟩
  · by_cases he : (s.port.inb.bytes.isEmpty && s.port.inb.wclosed) = true
    · exact .inr (by simp only [tRead, hp, readAnswer, if_pos he])
    · exact .inl (by simp only [tRead, hp, readAnswer, if_neg he, hb, Bool.false_eq_true, if_false])
  · cases hc : s.port.inb.wclosed with
    | true => exact .inr (by simp only [tRead, hp, readAnswer, deliver, hw, hc, if_true])
    | false => exact .inl (by simp only [tRead, hp, readAnswer, deliver, hw, hc, hb, Bool.false_eq_true, if_true, if_false])

theorem tRead_err {max : Nat} {e : TErr} {s : State} (hp : s.port.readPlan.pop.1 = .err e) :
    tRead max s = .answered (.err e) (readIssued max s) := by
  simp only [tRead, hp, readAnswer]

/-- With no new bytes a legal receive state is left as it is (R122). -/
theorem assemble_nothing {s : State} (hok : s.ep.receiveOk s.params.rxCap = true) :
    assemble [] s = finish .ok (.values []) s := by
  obtain ⟨r, hr, hrests, -⟩ := Endpoint.rx_of_receiveOk hok
  obtain ⟨f, hf, e⟩ := assemble_eq hr []
  obtain ⟨k, rfl⟩ := Nat.exists_eq_succ_of_ne_zero (Nat.ne_of_gt ((r.need_pos []).trans_le hf))
  rw [e, hrests.waits s [] k, State.withRx_own hr, finish]

/-- Settles O37: the one read brings nothing to Assemble. -/
theorem noDataYieldsAnEmptySequence : Obligations.NoDataYieldsAnEmptySequence := by
  intro m s hr hb hok
  obtain ⟨hidle, hopen, hread, hsync⟩ := hr
  refine ⟨?zero, fun hm => ?_⟩
  case zero =>
    exact (whenIdle_of_idle hidle).trans ((onlyInMode_of_eq hb).trans (recvChecks_pass hopen hread hsync))
  rw [exec_recvNb ⟨hidle, hopen, hread, hsync⟩ hb (by omega), afterRead_zero, readOnce]
  refine ⟨fun hnone => ?nothing, fun e hp => ?error⟩
  case nothing =>
    have hend : assemble [] (readIssued m s) = .next { readIssued m s with resp := some ⟨.ok, .values []⟩ } :=
      (assemble_nothing (s := readIssued m s) hok).trans (finish_of_idle hidle)
    rcases tRead_nothing hb hnone with h | h
    · rw [h]; exact hend
    · rw [h]; exact hend
  case error =>
    rw [tRead_err hp]
    exact finish_of_idle (s := readIssued m s) hidle

/-! ### Whole frames in one read (R122, R124) -/

/-- A read large enough takes all that is in flight on an eager transport (R54). -/
theorem tRead_eager_all {m : Nat} {s : State} (he : eagerReads s.port) (hne : s.port.inb.bytes ≠ [])
    (hm : s.port.inb.bytes.length ≤ m) :
    tRead m s = .answered (.data s.port.inb.bytes) (afterReads [m] [] s) := by
  have hp : s.port.readPlan.pop = (.all, s.port.readPlan) := by rw [he, Plan.pop_nil]
  have hle : ¬ m < s.port.inb.bytes.length := Nat.not_lt.mpr hm
  simp only [tRead, hp, readAnswer, deliver, List.take_of_length_le hm, hne, hle, false_or, if_false]
  simp [dropInbound, readIssued, afterReads, hp]

/-- At a frame boundary Assemble emits the whole frames it is given and goes on with what follows them. -/
theorem assemble_frames {s : State} {ps : List Bytes} (rest : Bytes) (hclear : s.ep.receiveClear = true)
    (hps : ∀ p ∈ ps, p.length ≤ Config.lenMax ∧ exceeds p.length s.params.rxCap = false) :
    assemble ((ps.map frameEnc).flatten ++ rest) s =
      assembleLoop (rest.length + 1) (s.inLoop (.header []) rest (ps.map (serDecode s.params.serializer))) := by
  obtain ⟨f, hf, e⟩ := assemble_eq (Endpoint.withRx_of_receiveClear hclear) ((ps.map frameEnc).flatten ++ rest)
  rw [e, assembleLoop_frames hps (by simpa [Rx.need] using hf), List.nil_append]

/-- Settles O38: after the last frame no byte is in hand. -/
theorem oneReadDeliversAllFramesInOrder : Obligations.OneReadDeliversAllFramesInOrder := by
  intro m ps s hr hb hclear he hps hne hw hm
  have hbytes : s.port.inb.bytes ≠ [] := by
    obtain ⟨p, hp⟩ := List.exists_mem_of_ne_nil ps hne
    rw [hw]
    exact List.flatten_ne_nil_iff.mpr ⟨frameEnc p, List.mem_map_of_mem hp, frameEnc_ne_nil p⟩
  have hpos := List.length_pos_iff.mpr hbytes
  have hall := assemble_frames (s := afterReads [m] [] s) [] hclear hps
  have hown : (afterReads [m] [] s).ep = (afterReads [m] [] s).ep.withRx (.header []) :=
    Endpoint.withRx_of_receiveClear hclear
  have hwaits : (Rx.header []).Waits := Rx.rests.waits (cap := none) rfl
  rw [exec_recvNb hr hb (by omega), readOnce, tRead_eager_all he hbytes hm]
  simp only
  rw [hw, ← List.append_nil (ps.map frameEnc).flatten, hall, hwaits, State.withRx_own hown]
  exact finish_of_idle hr.1

/-- Settles O40: after the last frame the illegal word is in hand, and what was kept of the read is discarded. -/
theorem badHeaderMidCommandKeepsEarlierValues : Obligations.BadHeaderMidCommandKeepsEarlierValues := by
  intro m ps w junk s hr hb hclear he hps hill hw hm
  have hlen := congrArg List.length hw
  simp only [List.length_append, hill.1] at hlen
  have hbytes : s.port.inb.bytes ≠ [] := List.ne_nil_of_length_pos (by omega)
  have hall := assemble_frames (s := afterReads [m] [] s) (w ++ junk) hclear hps
  obtain ⟨bits, hd⟩ := decodeHeader_isIllegalWord hill junk
  rw [exec_recvNb hr hb (by omega), readOnce, tRead_eager_all he hbytes hm]
  simp only
  rw [hw, List.append_assoc, hall, assembleLoop_header, List.nil_append, hd]
  exact finish_of_idle ((degrade_cont _).trans hr.1)

/-! ### The same bytes in many reads (R126) -/

/-- Between commands, past RecvChecks of a non-blocking endpoint, with this receive state waiting for bytes. -/
structure ReceivesFrom (s : State) (r : Rx) : Prop where
  ready : canReceive s
  nonBlocking : s.ep.blocking = false
  own : s.ep = s.ep.withRx r
  waits : r.Waits

/-- `s` after a receive whose one read brought `b`, and whose reassembly has yet to run. -/
def partRead (m : Nat) (b : Bytes) (s : State) : State :=
  dropInbound b.length (readIssued m (nextReadGives b.length s))

/-- A receive whose read brings `b` assembles it (R120, R121). -/
theorem exec_recvNb_part {m : Nat} {b rest : Bytes} {s : State} (hr : canReceive s) (hnb : s.ep.blocking = false)
    (hb : b ≠ []) (hm : b.length ≤ m) (hw : s.port.inb.bytes = b ++ rest) :
    exec (.recvNb m) (nextReadGives b.length s) = assemble b (partRead m b s) ∧
      (partRead m b s).port.inb = { s.port.inb with bytes := rest } := by
  have hpos := List.length_pos_iff.mpr hb
  refine ⟨?_, ?_⟩
  · rw [exec_recvNb (s := nextReadGives b.length s) hr hnb (by omega), readOnce, tRead_nextReadGives hb hm hw]
    rfl
  · have hdrop : s.port.inb.bytes.drop b.length = rest := by rw [hw, List.drop_left]
    rw [← hdrop]
    rfl

/-- From `r`, the bytes `a` complete the values `done` and leave `r'`: `a` with any bytes `b` behind it comes to what `b`
alone comes to from `r'`, once `done` has been emitted. -/
def Rx.Completes (p : Params) (r : Rx) (a : Bytes) (done : List Value) (r' : Rx) : Prop :=
  ∀ (s : State) (out : List Value) (b : Bytes) (g k : Nat), s.params = p → r.need (a ++ b) ≤ g → r'.need b ≤ k →
    assembleLoop g (s.inLoop r (a ++ b) out) = assembleLoop k (s.inLoop r' b (out ++ done))

theorem Rx.Completes.refl (p : Params) (r : Rx) : r.Completes p [] [] r := by
  intro s out b g k _ hg hk
  rw [List.append_nil]
  exact assembleLoop_fuel hg hk

theorem Rx.Completes.trans {p : Params} {r r' r'' : Rx} {a b : Bytes} {done done' : List Value}
    (h : r.Completes p a done r') (h' : r'.Completes p b done' r'') :
    r.Completes p (a ++ b) (done ++ done') r'' := by
  intro s out c g k hp hg hk
  rw [List.append_assoc] at hg ⊢
  rw [h s out (b ++ c) g (r'.need (b ++ c)) hp hg le_rfl, h' s (out ++ done) c _ k hp le_rfl hk, List.append_assoc]

/-- Bytes that complete values from a receive state are assembled into those values, and leave the other one. -/
theorem Rx.Completes.assemble {s : State} {r r' : Rx} {a : Bytes} {done : List Value}
    (h : r.Completes s.params a done r') (hw : r'.Waits) (hr : s.ep = s.ep.withRx r) :
    assemble a s = .next (complete .ok (.values done) (s.withRx r')) := by
  obtain ⟨f, hf, e⟩ := assemble_eq hr a
  have hall := h s [] [] f (r'.need [] + 1) rfl (by rwa [List.append_nil]) (Nat.le_succ _)
  rw [List.append_nil, hw, List.nil_append] at hall
  rw [e, hall]

/-- One command of several: if it ends with OK, its part completes the values it returns and leaves a receiver that can
receive what follows. -/
theorem recvNb_part {m : Nat} {b rest : Bytes} {vs : List Value} {r : Rx} {s t : State} (hs : ReceivesFrom s r)
    (hb : b ≠ []) (hm : b.length ≤ m) (hw : s.port.inb.bytes = b ++ rest)
    (ht : exec (.recvNb m) (nextReadGives b.length s) = .next t) (hvs : t.resp = some ⟨.ok, .values vs⟩) :
    ∃ r', ReceivesFrom t r' ∧ r.Completes s.params b vs r' ∧ t.params = s.params ∧ t.ep = s.ep.withRx r' ∧
      t.port.inb = { s.port.inb with bytes := rest } := by
  obtain ⟨hexec, hinb⟩ := exec_recvNb_part hs.ready hs.nonBlocking hb hm hw
  obtain ⟨f, hf, e⟩ := assemble_eq (s := partRead m b s) hs.own b
  rw [hexec, e] at ht
  obtain ⟨r', done, rfl, rfl, hwaits, hsplit⟩ := assembleLoop_split hf ht hvs
  have ⟨_, hopen, hread, hsync⟩ := hs.ready
  refine ⟨r', ⟨⟨rfl, ?_⟩, ?_, (withRx_withRx _ _ _).symm, hwaits⟩, hsplit, rfl, rfl, hinb⟩
  · cases r' <;> exact ⟨hopen, hread, hsync⟩
  · cases r' <;> exact hs.nonBlocking

/-- Successive commands that all end with OK: the first, then the rest from the state it leaves. -/
theorem receiveParts_cons {m : Nat} {b : Bytes} {rest : List Bytes} {vs : List Value} {s t : State}
    (h : receiveParts m (b :: rest) s = some (vs, t)) :
    ∃ u vs₁ vs₂, exec (.recvNb m) (nextReadGives b.length s) = .next u ∧ u.resp = some ⟨.ok, .values vs₁⟩ ∧
      receiveParts m rest u = some (vs₂, t) ∧ vs = vs₁ ++ vs₂ := by
  rw [receiveParts] at h
  split at h
  next u hu =>
    split at h
    next vs₁ hvs =>
      obtain ⟨⟨vs₂, t'⟩, hrest, hpair⟩ := Option.map_eq_some_iff.mp h
      cases hpair
      exact ⟨u, vs₁, vs₂, hu, hvs, hrest, rfl⟩
    next => cases h
  next => cases h

/-- Successive commands that all end with OK: the parts together complete all their values. -/
theorem receiveParts_completes {m : Nat} {parts : List Bytes} {rest : Bytes} {vs : List Value} {r : Rx} {s t : State}
    (hs : ReceivesFrom s r) (hne : ∀ b ∈ parts, b ≠ []) (hm : parts.flatten.length ≤ m)
    (hw : s.port.inb.bytes = parts.flatten ++ rest) (h : receiveParts m parts s = some (vs, t)) :
    ∃ r', r'.Waits ∧ r.Completes s.params parts.flatten vs r' ∧ t.ep = s.ep.withRx r' ∧
      t.port.inb = { s.port.inb with bytes := rest } := by
  induction parts generalizing r s vs with
  | nil =>
    cases h
    have hrest : t.port.inb.bytes = rest := hw
    exact ⟨r, hs.waits, Rx.Completes.refl _ _, hs.own, by rw [← hrest]⟩
  | cons b parts ih =>
    obtain ⟨u, vs₁, vs₂, hu, hvs, hrest, rfl⟩ := receiveParts_cons h
    rw [List.flatten_cons, List.length_append] at hm
    rw [List.flatten_cons, List.append_assoc] at hw
    obtain ⟨r₁, hs₁, hc₁, hp, hep₁, hinb₁⟩ := recvNb_part hs (hne b List.mem_cons_self) (by omega) hw hu hvs
    obtain ⟨r₂, hwaits, hc₂, hep₂, hinb₂⟩ :=
      ih hs₁ (fun c hc => hne c (List.mem_cons_of_mem b hc)) (by omega) (by rw [hinb₁]) hrest
    refine ⟨r₂, hwaits, hc₁.trans (hp ▸ hc₂), ?_, ?_⟩
    · rw [hep₂, hep₁, withRx_withRx]
    · rw [hinb₂, hinb₁]

/-- Settles O39: what the parts complete one after the other they complete at once. -/
theorem partialReadResilience : Obligations.PartialReadResilience := by
  intro m parts rest vs s t hr hb hok hparts hne hm hw h
  obtain ⟨r, hown, hrests, -⟩ := Endpoint.rx_of_receiveOk hok
  obtain ⟨r', hwaits, hc, hep, hinb⟩ := receiveParts_completes ⟨hr, hb, hown, hrests.waits⟩ hne hm hw h
  have hall : parts.flatten ≠ [] := by
    obtain ⟨b, hmem⟩ := List.exists_mem_of_ne_nil parts hparts
    exact List.flatten_ne_nil_iff.mpr ⟨b, hmem, hne b hmem⟩
  obtain ⟨hexec, hread⟩ := exec_recvNb_part hr hb hall hm hw
  have hdone : exec (.recvNb m) (nextReadGives parts.flatten.length s) =
      .next (complete .ok (.values vs) ((partRead m parts.flatten s).withRx r')) :=
    hexec.trans (Rx.Completes.assemble (s := partRead m parts.flatten s) hc hwaits hown)
  refine ⟨complete .ok (.values vs) ((partRead m parts.flatten s).withRx r'), ?_, hep.symm, hread.trans hinb.symm⟩
  simp only [receiveParts, hdone, complete_resp, Option.map_some, List.append_nil]

end Sys2Proof.Machine
end

section
/-! Channel control (44_channel_control.md): the two directions keep apart (R137), and what CLOSE and Degrade leave (R135,
R136). -/

namespace Sys2Proof.Machine

/-! ### The two directions (R137) -/

/-- Reads leave the send side as it was. -/
theorem Reads.sendSide {s u : State} {got : Bytes} (h : Reads s u got) :
    u.ep.txq = s.ep.txq ∧ u.ep.writable = s.ep.writable ∧ u.port.outb = s.port.outb := by
  rw [h.ep]
  exact ⟨rfl, rfl, h.outb⟩

/-- A degradation that does not close leaves the send side as it was (R136). -/
theorem degrade_sendSide {s : State} (h : (degrade s).ep.closed = false) :
    (degrade s).ep.txq = s.ep.txq ∧ (degrade s).ep.writable = s.ep.writable ∧ (degrade s).port.outb = s.port.outb := by
  cases hw : s.ep.writable with
  | true =>
    rw [degrade_of_writable hw]
    exact ⟨rfl, hw, rfl⟩
  | false =>
    rw [degrade_of_not_writable hw] at h
    cases h

/-- Settles O48: a send writes and no more; a receive reads, and only its degradation reaches the send side. -/
theorem theTwoDirectionsDoNotInteract : Obligations.TheTwoDirectionsDoNotInteract := by
  intro i s t h
  refine ⟨fun hi => ?send, fun hi => ?receive⟩
  case send =>
    cases exec_send_moves hi h with
    | answered st r => exact ⟨rfl, rfl, rfl, rfl, rfl, rfl, rfl, rfl, rfl⟩
    | wrote hw q c r =>
      obtain ⟨plan, offered, held, -, rfl⟩ := hw
      exact ⟨rfl, rfl, rfl, rfl, rfl, rfl, rfl, rfl, rfl⟩
  case receive =>
    cases exec_receive_moves hi h with
    | answered st r => exact ⟨rfl, rfl, fun _ => ⟨rfl, rfl, rfl⟩⟩
    | received hr dst ph hdr ctx b c r =>
      exact ⟨hr.receiveFrame.writePlan, hr.receiveFrame.outBytes, fun _ => hr.sendSide⟩
    | @degraded u d hr st r =>
      have frame := hr.receiveFrame.degrade
      refine ⟨frame.writePlan, frame.outBytes, fun hopen => ?_⟩
      obtain ⟨hq, hw, ho⟩ := degrade_sendSide (s := u) hopen
      obtain ⟨hq', hw', ho'⟩ := hr.sendSide
      exact ⟨hq.trans hq', hw.trans hw', ho.trans ho'⟩

/-! ### CLOSE (R135) -/

/-- CLOSE between commands: the close, then OK. -/
theorem exec_close {s : State} (hc : s.cont = .idle) :
    exec .close s = .next { closeOnce s with resp := some ⟨.ok, .none⟩ } :=
  (whenIdle_of_idle hc).trans (finish_of_idle ((closeOnce_cont s).trans hc))

theorem closeOnce_of_closed {s : State} (h : s.ep.closed = true) : closeOnce s = s := if_pos h

theorem closeOnce_of_open {s : State} (h : s.ep.closed = false) : closeOnce s = doClose s := by
  simp only [closeOnce, h, Bool.false_eq_true, if_false]

/-- The closes of the owned handles: the read handle's, then the write handle's where it is another one. -/
theorem map_close_ownedHandles (p : Params) (e : Endpoint) :
    (ownedHandles p e).map Request.close =
      (if p.readable0 = true then [.close e.hRd] else []) ++
        (if p.writable0 = true ∧ (p.readable0 = false ∨ e.hWr ≠ e.hRd) then [.close e.hWr] else []) := by
  simp only [ownedHandles, List.map_append, apply_ite (List.map Request.close), List.map_cons, List.map_nil,
    Bool.and_eq_true, Bool.or_eq_true, Bool.not_eq_true', bne_iff_ne]

/-- Settles O45: a closed endpoint is left alone, an open one goes through `doClose`. -/
theorem closeClosesEachHandleOnce : Obligations.CloseClosesEachHandleOnce := by
  intro s hc
  refine ⟨fun hclosed => ?_, fun hopen => ?_⟩
  · rw [exec_close hc, closeOnce_of_closed hclosed]
  · rw [exec_close hc, closeOnce_of_open hopen, ← map_close_ownedHandles]
    rfl

/-! ### Degrade (R136) -/

/-- Settles O47: on an endpoint that cannot write, Degrade and CLOSE are both `doClose`. -/
theorem degradeHalfClosesOrCloses : Obligations.DegradeHalfClosesOrCloses := by
  intro s
  refine ⟨degrade_of_writable, fun hw hc hopen => ?_⟩
  rw [exec_close hc, closeOnce_of_open hopen, degrade_of_not_writable hw]

end Sys2Proof.Machine
end

section
/-! Exceptions (60_exceptions.md): the error that comes before any I/O (R146), the quiet between commands (R154), and a
stream that ends before a frame or inside one (R149, R150). -/

namespace Sys2Proof.Machine

/-! ### Validation (R146) -/

/-- An offset or a size outside the buffer makes no slice (R91). -/
theorem sliceValid_of_outside {b : Bytes} {o n : Int} (h : o < 0 ∨ o > b.length ∨ n < 0 ∨ o + n > b.length) :
    sliceValid b o n = false := by
  simp only [sliceValid, Bool.and_eq_false_iff, decide_eq_false_iff_not]
  omega

theorem nonNegative_of_neg {n : Int} {s : State} {k : Nat → Out} (h : n < 0) :
    nonNegative n s k = raise .validationError s := if_pos h

/-- A receive command that may start comes to the validation of its operand (R105, R155). -/
theorem receive_gates {b : Bool} {s : State} (hr : canReceive s) (hb : s.ep.blocking = b) (k : Out) :
    (whenIdle s <| onlyInMode b s <| recvChecks s k) = k := by
  obtain ⟨hidle, hclosed, hread, hsync⟩ := hr
  rw [whenIdle_of_idle hidle, onlyInMode_of_eq hb, recvChecks_pass hclosed hread hsync]

/-- Settles O19: past the gates, the operand is validated before anything else is done. -/
theorem validationErrorLeavesNoTrace : Obligations.ValidationErrorLeavesNoTrace := by
  intro s b offset size n
  refine ⟨fun hs hbad => ?send, fun hr hb hn => ?assembled, fun hr hb hn => ?into⟩
  case send =>
    obtain ⟨hidle, hclosed, hwrite⟩ := hs
    have hslice : sendSlice b offset size s = raise .validationError s := by
      rw [sendSlice, sendChecks_pass hclosed hwrite, sliceValid_of_outside hbad, if_neg Bool.false_ne_true]
    exact (whenIdle_of_idle hidle).trans (hslice.trans (finish_of_idle hidle))
  case assembled =>
    have ⟨hidle, _, _, _⟩ := hr
    exact (receive_gates hr hb _).trans ((nonNegative_of_neg hn).trans (finish_of_idle hidle))
  case into =>
    have ⟨hidle, _, _, _⟩ := hr
    exact (receive_gates hr hb _).trans ((nonNegative_of_neg hn).trans (finish_of_idle hidle))

/-! ### Between commands (R154) -/

/-- The core of an idle endpoint with an empty host queue finds nothing to do. -/
theorem coreMove_of_nothing {s : State} (hc : s.cont = .idle) (hq : s.hostQ = []) : coreMove s = .next s := by
  simp only [coreMove, fetch, hq, hc, if_true]

/-- Settles O53: the core finds nothing to do, and the peer reaches only the wires. -/
theorem nothingMovesBetweenCommands : Obligations.NothingMovesBetweenCommands := by
  intro s t hc hq howner h
  cases ha : s.agenda with
  | nil =>
    rw [step, ha, coreMove_of_nothing hc hq] at h
    cases h
    exact ⟨rfl, rfl, hc, rfl, rfl, rfl, rfl, rfl, rfl⟩
  | cons turn rest =>
    cases turn with
    | core =>
      have hstep : step s = coreMove { s with agenda := rest } := by simp only [step, ha]
      rw [hstep, coreMove_of_nothing (s := { s with agenda := rest }) hc hq] at h
      cases h
      exact ⟨rfl, rfl, hc, rfl, rfl, rfl, rfl, rfl, rfl⟩
    | peer a =>
      obtain ⟨inb, outb, hstep, -⟩ := peerActsReachOnlyTheWires a rest s ha
      cases hstep.symm.trans h
      exact ⟨rfl, rfl, hc, rfl, rfl, rfl, rfl, rfl, rfl⟩
    | ownerDestroyed => exact absurd (by rw [ha, List.head?_cons]) howner

/-! ### A stream that has ended (R149, R150) -/

section
variable {kind : RecvKind} {acc : Bytes} {s : State} (he : eagerReads s.port) (hend : s.port.inb.wclosed = true)
include he hend

/-- A read loop that wants more than there is takes what there is and meets the end of the stream (R106). -/
theorem readExact_ended {n : Nat} (hn : acc.length + s.port.inb.bytes.length < n) :
    ∃ asked, asked ≠ [] ∧ (s.port.inb.bytes = [] → asked = [n - acc.length]) ∧
      readExact n acc s = .eof (acc ++ s.port.inb.bytes) (afterReads asked [] s) := by
  obtain ⟨asked, hne, hempty, hread⟩ := readExact_eager_eof he hend rfl hn
  exact ⟨asked, hne, hempty, by simpa only [afterReads, List.isEmpty_eq_false_iff.mpr hne, Bool.and_false] using hread⟩

/-- So does the read of what a header still wants (R107). -/
theorem readHeader_ended (ha : isHeaderPrefix acc = true) (hn : s.port.inb.bytes.length < headerWants acc) :
    ∃ asked, asked ≠ [] ∧ (s.port.inb.bytes = [] → asked = [headerWants acc]) ∧
      readHeader kind acc s = readEnded false (headerInHand kind) (.recvHeader kind)
        (.eof (acc ++ s.port.inb.bytes) (afterReads asked [] s)) := by
  obtain ⟨asked, hne, hempty, hread⟩ :=
    readExact_ended he hend (acc := acc) (n := acc.length + headerWants acc) (by omega)
  rw [Nat.add_sub_cancel_left] at hempty
  exact ⟨asked, hne, hempty, readHeader_of_readExact ha hread fun _ _ => ReadEnd.noConfusion⟩

/-- With no byte read and none in flight that is a clean end, after one read of a first word. -/
theorem readHeader_cleanEof (hempty : s.port.inb.bytes = []) :
    readHeader kind [] s = .next (complete .cleanEOF .none (afterReads [4] [] s)) := by
  obtain ⟨asked, -, hasked, hread⟩ :=
    readHeader_ended (kind := kind) he hend (acc := []) rfl (by rw [hempty]; decide)
  rw [hread, hasked hempty, hempty]
  rfl

/-- With some byte of the header read or in flight it is an end inside the frame. -/
theorem readHeader_truncated (ha : isHeaderPrefix acc = true) (hn : s.port.inb.bytes.length < headerWants acc)
    (hne : acc ++ s.port.inb.bytes ≠ []) :
    ∃ asked, asked ≠ [] ∧ readHeader kind acc s =
      .next (complete .truncatedMessageError .none (degrade (afterReads asked [] s))) := by
  obtain ⟨asked, hasked, -, hread⟩ := readHeader_ended (kind := kind) he hend ha hn
  refine ⟨asked, hasked, ?_⟩
  rw [hread, readEnded, List.isEmpty_eq_false_iff.mpr hne]
  rfl

/-- Inside a payload it always is (R108). -/
theorem readPayload_truncated {n : Nat} (hn : acc.length + s.port.inb.bytes.length < n) :
    ∃ asked, asked ≠ [] ∧ readPayload kind n acc s =
      .next (complete .truncatedMessageError .none (degrade (afterReads asked [] s))) := by
  obtain ⟨asked, hasked, -, hread⟩ := readExact_ended he hend hn
  exact ⟨asked, hasked, by rw [readPayload, hread]; rfl⟩

end

/-- The front of bytes that decide nothing decides nothing (R65). -/
theorem isHeaderPrefix_of_append {a b : Bytes} (h : isHeaderPrefix (a ++ b) = true) : isHeaderPrefix a = true := by
  rw [← decodeHeader_incomplete_iff] at h ⊢
  cases hd : decodeHeader a with
  | incomplete => rfl
  | fetched i k => cases (decodeHeader_append hd b).symm.trans h

/-- Once the first word is read and is an escape, the receive goes on as one that has read it (R107). -/
theorem readHeader_of_first_word {kind : RecvKind} {acc w : Bytes} {s u : State} (hread : readExact 4 acc s = .got w u)
    (h4 : 4 ≤ w.length) : readHeader kind acc s = readHeader kind w u := by
  rw [readHeader, readHeader, hread, readExact_met h4]

/-- A header that the end of the stream cuts short, wherever it cuts it: before the end of the first word, or after. -/
theorem readHeader_cut {kind : RecvKind} {acc : Bytes} {s : State} (he : eagerReads s.port)
    (hend : s.port.inb.wclosed = true) (hcut : isHeaderPrefix (acc ++ s.port.inb.bytes) = true)
    (hne : acc ++ s.port.inb.bytes ≠ []) :
    ∃ asked, asked ≠ [] ∧ readHeader kind acc s =
      .next (complete .truncatedMessageError .none (degrade (afterReads asked [] s))) := by
  have hlen := length_isHeaderPrefix hcut
  rw [List.length_append] at hlen
  by_cases hn : s.port.inb.bytes.length < headerWants acc
  · exact readHeader_truncated he hend (isHeaderPrefix_of_append hcut) hn hne
  · have h4 : acc.length < 4 ∧ 4 ≤ acc.length + s.port.inb.bytes.length := by
      unfold headerWants at hn
      split at hn <;> omega
    obtain ⟨d, rest, hsplit, hd⟩ : ∃ d rest, s.port.inb.bytes = d ++ rest ∧ acc.length + d.length = 4 :=
      ⟨_, _, (List.take_append_drop (4 - acc.length) _).symm, by rw [List.length_take]; omega⟩
    have hword : (acc ++ d).length = 4 := by rw [List.length_append, hd]
    have hd0 : d ≠ [] := by rintro rfl; simp at hd; omega
    rw [hsplit] at hlen hcut hne
    rw [← List.append_assoc] at hcut hne
    obtain ⟨asked, -, hread⟩ := readHeader_truncated (kind := kind) (acc := acc ++ d) (s := afterReads [d.length] rest s)
      he hend (isHeaderPrefix_of_append hcut)
      (by rw [headerWants, hword]; rw [List.length_append] at hlen; simp [afterReads]; omega) hne
    refine ⟨d.length :: asked, List.cons_ne_nil _ _, ?_⟩
    have hfirst := readExact_afterReads he hsplit hd
    rw [if_neg hd0] at hfirst
    rw [readHeader_of_first_word hfirst hword.ge, hread, afterReads_afterReads]
    rfl

/-- A first part of a frame is the whole header and some of the payload, or not yet the whole header. -/
theorem header_whole_or_cut {h p q r : Bytes} (hsplit : h ++ p = q ++ r) :
    (∃ q', q = h ++ q' ∧ p = q' ++ r) ∨ ∃ h', h = q ++ h' ∧ h' ≠ [] := by
  rcases List.append_eq_append_iff.mp hsplit with hwhole | ⟨h', hh, hr⟩
  · exact .inl hwhole
  · by_cases h0 : h' = []
    · subst h0
      exact .inl ⟨[], by simpa using hh.symm, by simpa using hr.symm⟩
    · exact .inr ⟨h', hh, h0⟩

/-- A frame of which the end of the stream leaves a first part, header and payload taken together (R150). -/
theorem readHeader_cut_frame {kind : RecvKind} {h p q r acc : Bytes} {s : State} (he : eagerReads s.port)
    (hend : s.port.inb.wclosed = true) (hh : isHeader h p.length) (hsplit : h ++ p = q ++ r) (hq : q ≠ []) (hr : r ≠ [])
    (hx : exceeds p.length s.params.rxCap = false) (ht : kind.tooSmall p.length = false)
    (ha : isHeaderPrefix acc = true) (hw : acc ++ s.port.inb.bytes = q) :
    ∃ asked, asked ≠ [] ∧ readHeader kind acc s =
      .next (complete .truncatedMessageError .none (degrade (afterReads asked [] s))) := by
  rcases header_whole_or_cut hsplit with ⟨q', hq', hp⟩ | ⟨h', hh', h0⟩
  · obtain ⟨_, hd⟩ := decodeHeader_whole hh
    obtain ⟨asked, -, hheader, -⟩ := readHeader_eager (kind := kind) he hd ha (hw.trans hq')
    have hpos := List.length_pos_iff.mpr hr
    have hshort : ([] : Bytes).length + q'.length < p.length := by rw [hp, List.length_append]; simp; omega
    obtain ⟨asked', hne, hpayload⟩ :=
      readPayload_truncated (kind := kind) (acc := []) (s := afterReads asked q' s) he hend hshort
    refine ⟨asked ++ asked', List.append_ne_nil_of_right_ne_nil _ hne, ?_⟩
    rw [hheader, headerInHand_accepted (s := afterReads asked q' s) hh hx ht, hpayload, afterReads_afterReads]
  · subst hw
    exact readHeader_cut he hend (isHeaderPrefix_of_isHeader hh hh' h0) hq

/-- Settles O31: a start and a step are both a receive with nothing read, and so is the start that follows. -/
theorem cleanEofChangesNothing : Obligations.CleanEofChangesNothing := by
  intro i kind s hb he hempty hend
  refine ⟨fun hi hr => ?starts, fun hu hc => ?held⟩
  case starts =>
    have ends {u : State} (hu : eagerReads u.port) (hendu : u.port.inb.wclosed = true) (hnone : u.port.inb.bytes = [])
        (hbu : u.ep.blocking = true) (hru : canReceive u) :
        exec i u = .next { afterReads [4] [] u with resp := some ⟨.cleanEOF, .none⟩ } := by
      have ⟨hidle, _, _, _⟩ := hru
      rw [exec_isBlockingReceive hi hbu hru, readHeader_cleanEof hu hendu hnone]
      exact finish_of_idle hidle
    exact ⟨_, ends he hend hempty hb hr, rfl, ends he hend rfl hb hr⟩
  case held => rw [step_of_recvHeader hu hc, readHeader_cleanEof he hend hempty]; rfl

/-- Settles O32: a receive that starts has read none of the frame, and a held one part of its header or all of it. -/
theorem truncatedFrameDegradesThenRaises : Obligations.TruncatedFrameDegradesThenRaises := by
  intro i kind h p q r acc s hb he hend hh hsplit hq hr hx ht
  refine ⟨fun hi hrecv hw => ?starts, fun hu hheld => ?held⟩
  case starts =>
    have ⟨hidle, _, _, _⟩ := hrecv
    obtain ⟨asked, hne, hread⟩ :=
      readHeader_cut_frame (kind := kind) (acc := []) he hend hh hsplit hq hr hx ht rfl hw
    refine ⟨asked, hne, ?_⟩
    rw [exec_isBlockingReceive hi hb hrecv, hread]
    exact finish_of_idle ((degrade_cont _).trans hidle)
  case held =>
    rcases hheld with ⟨hc, ha, hw⟩ | ⟨hc, hw⟩
    · obtain ⟨asked, hne, hread⟩ := readHeader_cut_frame he hend hh hsplit hq hr hx ht ha hw
      exact ⟨asked, hne, (step_of_recvHeader hu hc).trans hread⟩
    · have hshort : acc.length + s.port.inb.bytes.length < p.length := by
        have hlen := congrArg List.length hsplit
        have hpos := List.length_pos_iff.mpr hr
        simp only [← hw, List.length_append] at hlen
        omega
      obtain ⟨asked, hne, hread⟩ := readPayload_truncated (kind := kind) he hend hshort
      exact ⟨asked, hne, (step_of_recvPayload hu hc).trans hread⟩

end Sys2Proof.Machine
end

section
/-! What each error leaves behind (R156), by what a receive and a send can end with. -/

namespace Sys2Proof.Machine

/-! ### How a command ends -/

/-- The command still executes, or has ended with OK: no error is reported. -/
def State.NoError (t : State) : Prop := t.cont = .idle → ∃ r, t.resp = some ⟨.ok, r⟩

theorem noError_complete (r : Result) (s : State) : (complete .ok r s).NoError := fun _ => ⟨r, rfl⟩

/-- How a receive past its checks ends, `mid` saying whether a byte of the frame was read before `s` (R149 to R152).
Unlike `ReceiveEnds` it accounts for no frame, and so it is true of every continuation, reachable or not. -/
inductive ReceiveEnding (mid : Bool) (s : State) : State → Prop
  | quiet {t : State} (h : t.NoError) : ReceiveEnding mid s t
  | cleanEof {u : State} (hm : mid = false) (hr : Reads s u [])
      (hq : u.port.calls = s.port.requested [.read s.ep.hRd 4]) : ReceiveEnding mid s (complete .cleanEOF .none u)
  | degraded {u : State} {d : Bytes} {st : Status} (hst : st = .truncatedMessageError ∨ st = .badMessageLengthError)
      (r : Result) (hr : Reads s u d) : ReceiveEnding mid s (complete st r (degrade u))
  | failed {u : State} {d : Bytes} {mark : Bool} (e : TErr) (hr : Reads s u d)
      (hmark : mark = (s.ep.rxDesync || !d.isEmpty || mid)) :
      ReceiveEnding mid s (complete (.transportError e) .none { u with ep := { u.ep with rxDesync := mark } })

/-- How any command ends (R146 to R152), in the step that starts it or in a later one. -/
inductive Ending (i : Instr) (s : State) : State → Prop
  | quiet {t : State} (h : t.NoError) : Ending i s t
  | rejected {st : Status} (hc : s.cont = .idle)
      (hst : st = .validationError ∨ st = .closedHandleError ∨ st = .capabilityError) :
      Ending i s (complete st .none s)
  | receive {t : State} (h : ReceiveEnding s.cont.midFrame s t) : Ending i s t
  | sendFailed {u : State} {q put : Bytes} (e : TErr) (hm : s.cont.midFrame = false)
      (hq : q = s.ep.txq ∨ ∃ p, framesPayload s i p ∧ q = s.ep.txq ++ frameEnc p)
      (hw : WritesOnly (s.withQueue q) u put) : Ending i s (complete (.transportError e) .none u)

/-! ### The blocking receiver -/

section
variable {kind : RecvKind} {acc : Bytes} {s t : State}

/-- A receive goes on, after reads, from the middle of the frame. -/
theorem ReceiveEnding.of_reads {mid : Bool} {u : State} {a : Bytes} (hr : Reads s u a) (hm : mid = true ∨ a ≠ [])
    (h : ReceiveEnding true u t) : ReceiveEnding mid s t := by
  cases h with
  | quiet h => exact .quiet h
  | cleanEof hmid => cases hmid
  | degraded hst r hr' => exact .degraded hst r (hr.trans hr')
  | failed e hr' hmark =>
    refine .failed e (hr.trans hr') ?_
    rw [hmark, Bool.or_true]
    rcases hm with rfl | ha
    · rw [Bool.or_true]
    · simp [ha]

/-- A read loop and what ends it, whatever becomes of the bytes: only the read of a first word, with no byte before it,
can end cleanly (R106). -/
theorem readEnded_ending {started : Bool} {n : Nat} {next : Bytes → State → Out} {wait : Bytes → Cont}
    (h4 : started = false → acc = [] → n = 4) (hwait : ∀ b, wait b ≠ .idle)
    (hnext : ∀ b u, n ≤ b.length → next b u = .next t → ReceiveEnding true u t)
    (h : readEnded started next wait (readExact n acc s) = .next t) :
    ReceiveEnding (started || !acc.isEmpty) s t := by
  rcases readLoop_cases (rfl : readLoop (s.port.inb.bytes.length + 1) n acc s = _) with
    ⟨d, u, e, hlen, -, hr, -⟩ | ⟨d, u, e, -, hr, -, hq⟩ | ⟨x, d, u, e, -, hr, -⟩ | ⟨d, u, e, -, hr, -⟩ | ⟨f, e⟩ <;>
    rw [readExact, e] at h <;> simp only [readEnded] at h
  · refine .of_reads hr.reads ?_ (hnext _ u hlen h)
    by_contra hnone
    obtain ⟨⟨hs, rfl⟩, rfl⟩ : (started = false ∧ acc = []) ∧ d = [] := by simpa using hnone
    rw [h4 hs rfl] at hlen
    cases hlen
  · split at h
    case isTrue hclean =>
      obtain ⟨rfl, rfl, rfl⟩ : started = false ∧ acc = [] ∧ d = [] := by simpa using hclean
      cases h
      exact .cleanEof rfl hr.reads (by rw [hq rfl, h4 rfl rfl]; rfl)
    case isFalse =>
      cases h
      exact .degraded (.inl rfl) _ hr.reads
  · cases h
    refine .failed x hr.reads ?_
    have hempty : (acc ++ d).isEmpty = (acc.isEmpty && d.isEmpty) := by cases acc <;> rfl
    rw [hr.reads.ep, hempty, Bool.not_and]
    ac_rfl
  · cases h
    exact .quiet fun hidle => absurd hidle (hwait _)
  · cases h

theorem deliverPayload_noError {p : Bytes} (h : deliverPayload kind p s = .next t) : t.NoError := by
  obtain ⟨d, -, hd⟩ := deliverPayload_eq kind p s
  cases hd.symm.trans h
  exact fun _ => ⟨_, rfl⟩

theorem readPayload_ending {n : Nat} (h : readPayload kind n acc s = .next t) : ReceiveEnding true s t :=
  readEnded_ending (started := true) (acc := acc) Bool.noConfusion (fun _ => Cont.noConfusion)
    (fun _ _ _ h => .quiet (deliverPayload_noError h)) h

/-- A header in hand is refused, or is bad, or is followed by its payload (R107, R110). -/
theorem headerInHand_ending {w : Bytes} (h : headerInHand kind w s = .next t) : ReceiveEnding true s t := by
  have hr : Reads s { s with cont := .recvHeader kind w } [] := ⟨.recvHeader kind w, .refl _⟩
  have resolved (n : Nat) (h : headerResolved n { s with cont := .recvHeader kind w } = .next t) :
      ReceiveEnding true s t := by
    by_cases hx : exceeds n s.params.rxCap = true
    · rw [headerResolved_exceeds rfl (by exact hx)] at h
      cases h
    · rw [headerResolved_recvHeader rfl (by simpa using hx)] at h
      split at h
      · cases h
        exact .degraded (.inr rfl) _ hr
      · exact .of_reads hr (.inl rfl) (readPayload_ending h)
  rw [headerInHand] at h
  cases hd : decodeHeader w with
  | incomplete =>
    rw [hd] at h
    cases h
    exact .quiet fun hidle => nomatch hidle
  | fetched i k =>
    rw [hd] at h
    rcases decodeHeader_classes hd with ⟨len, rfl, -⟩ | ⟨len64, rfl, -⟩ | ⟨rest, rfl, -⟩
    · exact resolved _ h
    · exact resolved _ h
    · cases (headerInvalid_eq (s := { s with cont := .recvHeader kind w }) (.inl ⟨kind, w, rfl, rfl⟩)).symm.trans h
      exact .degraded (.inr rfl) _ hr

/-- A receive with any bytes of its header read (R107). -/
theorem readHeader_ending (h : readHeader kind acc s = .next t) : ReceiveEnding (!acc.isEmpty) s t := by
  refine readEnded_ending (started := false) (fun _ _ => rfl) (fun _ => Cont.noConfusion) (fun w u hw h => ?_) h
  have hne : w ≠ [] := List.ne_nil_of_length_pos (by omega)
  split at h
  · exact headerInHand_ending h
  · have ends := readEnded_ending (started := false) (fun _ h0 => absurd h0 hne) (fun _ => Cont.noConfusion)
      (fun _ _ _ h => headerInHand_ending h) h
    rwa [List.isEmpty_eq_false_iff.mpr hne] at ends

end

/-! ### The non-blocking receiver -/

/-- Reassembly ends with OK or a bad header (R125). -/
theorem assembleHeld_ending {mid : Bool} {s u t : State} {d b : Bytes} {out : List Value} (hr : Reads s u d)
    (hc : u.cont = .assembling b out) (h : assembleHeld u = .next t) : ReceiveEnding mid s t := by
  rcases assembleHeld_cases hc with ⟨v, vs, e, -⟩ | ⟨vs, e⟩ | ⟨r, e⟩ <;> cases e.symm.trans h
  · exact .quiet (noError_complete _ v)
  · exact .degraded (.inr rfl) _ hr

theorem assemble_ending {mid : Bool} {s u t : State} {d b : Bytes} (hr : ReadsOnly s u d)
    (h : assemble b u = .next t) : ReceiveEnding mid s t :=
  assembleHeld_ending (u := { u with cont := .assembling b [] }) ⟨_, hr.with_cont _⟩ rfl h

/-- The one read of a non-blocking receive can fail, and consumes nothing then (R121). -/
theorem readOnce_ending {max : Nat} {s t : State} (hm : 1 ≤ max) (h : readOnce max s = .next t) :
    ReceiveEnding false s t := by
  have issued := ReadsOnly.issued hm s
  unfold readOnce at h
  rcases tRead_cases hm s with ⟨b, u, e, -, -, hr, -⟩ | e | ⟨e, -⟩ | ⟨x, e⟩ | ⟨e, -⟩ | ⟨f, e⟩ <;> rw [e] at h <;>
    simp only at h
  · exact assemble_ending hr h
  · exact assemble_ending issued h
  · exact assemble_ending issued h
  · cases h
    exact .failed (mark := s.ep.rxDesync) x issued.reads (by simp)
  · cases h
  · cases h

/-! ### The send side -/

section
variable {i : Instr} {s t : State}

theorem writeChunks_ending {cs : List Bytes} (hm : s.cont.midFrame = false) (h : writeChunks cs s = .next t) :
    Ending i s t := by
  rcases writeChunks_cases h with ⟨u, e, -⟩ | ⟨x, put, left, u, e, -, hw, -⟩ | ⟨put, c, rest, u, e, -⟩ | ⟨r, e⟩ <;> cases e
  · exact .quiet (noError_complete _ u)
  · exact .sendFailed x hm (.inl rfl) hw
  · exact .quiet fun hidle => nomatch hidle

/-- A drain of the queue as it stands, or with one more frame (R95, R96). -/
theorem drainOnce_ending {q : Bytes} (hm : s.cont.midFrame = false)
    (hq : q = s.ep.txq ∨ ∃ p, framesPayload s i p ∧ q = s.ep.txq ++ frameEnc p)
    (h : drainOnce (s.withQueue q) = .next t) : Ending i s t := by
  rcases drainOnce_cases h with ⟨-, e⟩ | ⟨n, u, -, -, -, e⟩ | ⟨u, -, -, e⟩ | ⟨x, u, hw, -, e⟩ | ⟨r, e⟩ <;> cases e
  · exact .quiet (noError_complete _ _)
  · exact .quiet (noError_complete _ _)
  · exact .quiet (noError_complete _ u)
  · exact .sendFailed x hm hq hw

theorem sendFrame_ending {p : Bytes} (hm : s.cont.midFrame = false) (hp : framesPayload s i p)
    (h : sendFrame p s = .next t) : Ending i s t := by
  unfold sendFrame sendNonBlocking at h
  simp only at h
  split_ifs at h
  · exact writeChunks_ending hm h
  · exact drainOnce_ending hm (.inr ⟨p, hp, rfl⟩) h

/-! ### The checks -/

section
variable (hc : s.cont = .idle)
include hc

theorem sendChecks_ending {k : Out} (hk : k = .next t → Ending i s t) (h : sendChecks s k = .next t) : Ending i s t := by
  rcases sendChecks_next h with ⟨-, rfl⟩ | ⟨-, -, rfl⟩ | ⟨-, -, h⟩
  · exact .rejected hc (.inr (.inl rfl))
  · exact .rejected hc (.inr (.inr rfl))
  · exact hk h

theorem recvChecks_ending {k : Out} (hk : k = .next t → Ending i s t) (h : recvChecks s k = .next t) : Ending i s t := by
  rcases recvChecks_next h with ⟨-, rfl⟩ | ⟨-, -, rfl⟩ | ⟨-, -, -, h⟩
  · exact .rejected hc (.inr (.inl rfl))
  · exact .rejected hc (.inr (.inr rfl))
  · exact hk h

theorem nonNegative_ending {n : Int} {k : Nat → Out} (hk : k n.toNat = .next t → Ending i s t)
    (h : nonNegative n s k = .next t) : Ending i s t := by
  rcases nonNegative_next h with ⟨-, rfl⟩ | ⟨-, h⟩
  · exact .rejected hc (.inl rfl)
  · exact hk h

theorem sendSlice_ending {b : Bytes} {o n : Int} (hp : sliceValid b o n = true → framesPayload s i (slice b o n))
    (h : sendSlice b o n s = .next t) : Ending i s t := by
  refine sendChecks_ending hc (fun h => ?_) h
  split at h
  · exact sendFrame_ending (by rw [hc]; rfl) (hp ‹_›) h
  · cases h
    exact .rejected hc (.inl rfl)

/-- A receive that starts has read nothing of its frame. -/
theorem Ending.of_receive (h : ReceiveEnding false s t) : Ending i s t := .receive (by rw [hc]; exact h)

end

end

/-! ### Any command -/

theorem bounds_of_sliceValid {b : Bytes} {o n : Int} (h : sliceValid b o n = true) :
    0 ≤ o ∧ 0 ≤ n ∧ o + n ≤ b.length := by
  simp only [sliceValid, Bool.and_eq_true, decide_eq_true_eq] at h
  obtain ⟨⟨⟨ho, -⟩, hn⟩, hsum⟩ := h
  exact ⟨ho, hn, hsum⟩

/-- A command in the step that starts it. -/
theorem exec_ending {i : Instr} {s t : State} (hi : isCommand i = true) (h : exec i s = .next t) : Ending i s t := by
  have hc := cont_idle_of_exec hi h
  have codec {r : Result} (h : finish .ok r s = .next t) : Ending i s t := by
    cases h
    exact .quiet (noError_complete r s)
  have header {kind : RecvKind} (h : readHeader kind [] s = .next t) : Ending i s t :=
    .of_receive hc (readHeader_ending h)
  cases i with
  | hdrEnc n =>
    obtain ⟨-, h⟩ := whenIdle_next h
    split at h
    · cases h
    · exact codec h
  | hdrParse b => exact codec (whenIdle_next h).2
  | frameEnc p =>
    obtain ⟨-, h⟩ := whenIdle_next h
    split at h
    · cases h
    · exact codec h
  | send v => exact sendSlice_ending hc (fun _ => .inl ⟨v, rfl, slice_whole _⟩) (whenIdle_next h).2
  | sendBytes b o n =>
    refine sendSlice_ending hc (fun hv => ?_) (whenIdle_next h).2
    obtain ⟨ho, hn, hsum⟩ := bounds_of_sliceValid hv
    exact .inr ⟨b, o, n, rfl, ho, hn, hsum, rfl⟩
  | drain =>
    exact sendChecks_ending hc (drainOnce_ending (by rw [hc]; rfl) (.inl rfl)) (whenIdle_next h).2
  | recv => exact recvChecks_ending hc header (onlyInMode_next (whenIdle_next h).2).2
  | recvBytes => exact recvChecks_ending hc header (onlyInMode_next (whenIdle_next h).2).2
  | recvBytesInto c =>
    exact recvChecks_ending hc (nonNegative_ending hc header) (onlyInMode_next (whenIdle_next h).2).2
  | recvNb m =>
    refine recvChecks_ending hc (nonNegative_ending hc fun h => ?_) (onlyInMode_next (whenIdle_next h).2).2
    split at h
    · cases h
    · exact .of_receive hc (readOnce_ending (by omega) h)
  | close =>
    obtain ⟨-, h⟩ := whenIdle_next h
    cases h
    exact .quiet (noError_complete _ _)
  | reserved0 => cases hi
  | reservedCF low => cases hi
  | small len => cases hi
  | large len => cases hi
  | invalidHdr rest => cases hi

/-- A command that a later step goes on with, whatever its continuation. -/
theorem resume_ending {i : Instr} {s t : State} (hbusy : s.cont ≠ .idle) (h : resume s = .next t) : Ending i s t := by
  unfold resume at h
  cases hc : s.cont with
  | idle => exact absurd hc hbusy
  | writing current rest =>
    rw [hc] at h
    exact writeChunks_ending (by rw [hc]; rfl) h
  | recvHeader kind acc =>
    rw [hc] at h
    exact .receive (by rw [hc]; exact readHeader_ending h)
  | recvPayload kind n acc =>
    rw [hc] at h
    exact .receive (by rw [hc]; exact readPayload_ending h)
  | assembling b out =>
    rw [hc] at h
    exact .receive (assembleHeld_ending (.refl s) hc h)

/-! ### The trace -/

/-- Bytes were consumed exactly if the inbound wire is shorter. -/
theorem Reads.shorter {s u : State} {d : Bytes} (h : Reads s u d) :
    decide (u.port.inb.bytes.length < s.port.inb.bytes.length) = !d.isEmpty := by
  rw [h.receiveFrame.inBytes, List.length_append]
  cases d <;> simp

/-- Reads that bring no byte leave the inbound wire as it was. -/
theorem Reads.inb_of_nil {s u : State} (h : Reads s u []) : u.port.inb = s.port.inb := by
  obtain ⟨_, rest, _, _, _, hbytes, -, rfl⟩ := h
  exact congrArg (fun b => { s.port.inb with bytes := b }) hbytes.symm

/-- Settles O52: each way a command can end leaves its own trace. -/
theorem eachErrorLeavesItsTrace : Obligations.EachErrorLeavesItsTrace := by
  intro i s t st r hmove hidle hresp
  have ending : Ending i s t := by
    rcases hmove with ⟨hi, h⟩ | ⟨hu, hbusy, h⟩
    · exact exec_ending hi h
    · exact resume_ending hbusy ((step_eq_resume hu hbusy).symm.trans h)
  have ok (h : t.NoError) : st = .ok := by
    obtain ⟨r', hok⟩ := h hidle
    cases hresp.symm.trans hok
    rfl
  cases ending with
  | quiet h => cases ok h; simp
  | rejected hc hst =>
    cases hresp
    refine ⟨fun _ => Host.Outcome.next.inj (finish_of_idle hc), ?_, ?_, ?_⟩ <;>
      rcases hst with rfl | rfl | rfl <;> simp
  | sendFailed e hm hq hw =>
    cases hresp
    obtain ⟨plan, offered, held, -, rfl⟩ := hw
    refine ⟨by simp, by simp, by simp, fun _ _ => ⟨rfl, rfl, ?_, hq⟩⟩
    simp [hm, State.withQueue]
  | receive h =>
    cases h with
    | quiet h => cases ok h; simp
    | cleanEof hm hr hq =>
      cases hresp
      exact ⟨by simp, fun _ => ⟨hr.ep, hr.dst, hr.inb_of_nil, hr.outb, hq⟩, by simp, by simp⟩
    | @degraded u d _ hst r hr =>
      cases hresp
      have left : (degrade u).ep = (if s.ep.writable then s.ep.halfClosed else s.ep.shut) ∧
          (degrade u).dst = s.dst ∧ (degrade u).port.outb.bytes = s.port.outb.bytes :=
        ⟨hr.ep ▸ degrade_ep u, (degrade_dst u).trans hr.dst, hr.receiveFrame.degrade.outBytes⟩
      refine ⟨?_, ?_, fun _ => left, ?_⟩ <;> rcases hst with rfl | rfl <;> simp
    | @failed u _ _ e hr hmark =>
      cases hresp
      have hq : u.ep.txq = s.ep.txq := congrArg Endpoint.txq hr.ep
      refine ⟨by simp, by simp, by simp, fun _ _ => ⟨rfl, hr.dst, ?_, .inl hq⟩⟩
      simp [hr.shorter, hr.ep, hmark]

end Sys2Proof.Machine
end
